-- ==== Sys2Proof/Word.lean ====
section
/-! DEFINITION. The byte, the 32-bit word and the byte string of 00_scope.md section 6.1. -/

namespace Sys2Proof

/-- A byte: 8 bits, unsigned where it is treated as a number (00_scope.md §6.1, R28). -/
abbrev Byte := BitVec 8

/-- A word of the command, operand and response ports (00_scope.md R8: 32 bits). -/
abbrev Word := BitVec 32

/-- `Bytes`: a finite byte string indexed from 0 (00_scope.md §6.1). -/
abbrev Bytes := List Byte

end Sys2Proof
end

