-- ==== Sys2Proof/Config.lean ====
section
/-! DEFINITION. The parameters of 00_scope.md R7 and R8: the fixed ones as numbers, the OPEN ones as the fields of
`Config`, and the block's own configuration `config`, an opaque constant that no proof can look into. -/

namespace Sys2Proof

/-- The two chains, and the two MAC ports with them (00_scope.md §6.3; R65). -/
inductive Chain where
  | md5
  | sha1
  deriving DecidableEq, Repr, Inhabited

/-- `n_h`, the macSize of the port: MD5_LEN = 16, SHA1_LEN = 20 (R8). -/
abbrev Chain.size : Chain → Nat
  | .md5 => 16
  | .sha1 => 20

/-- Blocks per fill: 5 of MD5, 4 of SHA-1 (R8). -/
abbrev Chain.blocks : Chain → Nat
  | .md5 => 5
  | .sha1 => 4

/-- `BUF_LEN` (R8): 80 = 5·16 = 4·20. -/
abbrev bufLen : Nat := 80

/-- One MAC output of chain `h`: exactly `n_h` bytes (`Bytes16`, `Bytes20` of R7). -/
abbrev Digest (h : Chain) := Vector Byte h.size

/-- The OPEN parameters of R8, and the values R24 leaves unspecified after the `n`-th reset. A core of another digest
length is excluded by the types (93_implementation_defined.md U6). -/
structure Config where
  /-- `HMAC_MD5(key, msg)` (R7). -/
  hmacMd5 : Bytes → Bytes → Vector Byte 16
  /-- `HMAC_SHA1(key, msg)` (R7). -/
  hmacSha1 : Bytes → Bytes → Vector Byte 20
  /-- `key_ok_MD5`: the keys the MD5 core accepts (R66). -/
  keyOkMd5 : Bytes → Bool
  /-- `key_ok_SHA1` (R66). -/
  keyOkSha1 : Bytes → Bool
  /-- `MAX_SECRET_LEN` less one: R8 says "at least 1". -/
  secretRoom : Nat
  /-- `MAX_SEED_LEN` less one. -/
  seedRoom : Nat
  /-- Free values: what `seed`, `A_md5`, `A_sha1`, `buf`, `idx` hold after the `n`-th reset (R24, U3).
  The seed is cut to `MAX_SEED_LEN` bytes (`Config.freshSeed`). DESIGN CHOICE, log entry 5. -/
  unspecSeed : Nat → Bytes
  unspecAMd5 : Nat → Vector Byte 16
  unspecASha1 : Nat → Vector Byte 20
  unspecBuf : Nat → Vector Byte 80
  unspecIdx : Nat → Fin 81
  deriving Inhabited

/-- `HMAC_h` of 00_scope.md §6.3. -/
def Config.hmac (c : Config) : (h : Chain) → Bytes → Bytes → Digest h
  | .md5 => c.hmacMd5
  | .sha1 => c.hmacSha1

/-- `key_ok_h` (R8, R66). -/
def Config.keyOk (c : Config) : Chain → Bytes → Bool
  | .md5 => c.keyOkMd5
  | .sha1 => c.keyOkSha1

/-- `MAX_SECRET_LEN`, a natural number at least 1 (R8). -/
def Config.maxSecretLen (c : Config) : Nat := c.secretRoom + 1

/-- `MAX_SEED_LEN`, a natural number at least 1 (R8). -/
def Config.maxSeedLen (c : Config) : Nat := c.seedRoom + 1

/-- What the register `seed` holds after the `n`-th reset: any byte string that the register can hold, which is one of at
most `MAX_SEED_LEN` bytes (R10, R24, R28). Log entry 5. -/
def Config.freshSeed (c : Config) (n : Nat) : Bytes := (c.unspecSeed n).take c.maxSeedLen

/-- The block's configuration. It has no body: nothing can be proved of its fields but what holds for every
configuration (R7: "The model must assume nothing else of them"). Log entries 3, 4 and 5. -/
opaque config : Config

end Sys2Proof
end

