-- ==== Sys2Proof/Syntax.lean ====
section
/-! DEFINITION. The decoded commands of 30_encoding.md R60, the five MAC-port operations of 40_mac_adapter.md and the
micro-operation REFILL: one constructor for each row of the opcode table. -/

namespace Sys2Proof

/-- One constructor per row of spec/opcode_table.json. -/
inductive Instr where
  /-- `INIT(secret : Option Bytes, seed : Option Bytes)` (R48, R75). R60's `TOO_LONG` is an `init` whose operand is
  longer than the configuration allows; the meaning tests for it first (R63, log entry 6). -/
  | init (secret seed : Option Bytes)
  /-- `NEXT_BYTE` (R49, R95). -/
  | nextByte
  /-- `NEXT_BYTES(dest : Option Nat, offset : Int, length : Int)`, `dest = some cap` (R50, R96). -/
  | nextBytes (dest : Option Nat) (offset length : Int)
  /-- `ADD_RANDOM_BYTE(b)` (R51, R97). -/
  | addRandomByte (b : Byte)
  /-- `ADD_RANDOM_BYTES(bs)` (R52, R98). -/
  | addRandomBytes (bs : Bytes)
  /-- `MAC_INIT(h, key)` (R66). -/
  | macInit (h : Chain) (key : Bytes)
  /-- `MAC_UPDATE(h, bytes, offset, length)` (R67). -/
  | macUpdate (h : Chain) (bytes : Bytes) (offset length : Int)
  /-- `MAC_DIGEST(h)` (R68). -/
  | macDigest (h : Chain)
  /-- `MAC_RESET(h)` (R69). -/
  | macReset (h : Chain)
  /-- `MAC_SIZE(h)` (R70). -/
  | macSize (h : Chain)
  /-- `REFILL`, internal, without an encoding (R85). -/
  | refill
  /-- `ILLEGAL(opc)`: an opcode outside 0x01 .. 0x05 (R55). -/
  | illegal (opc : Byte)
  deriving DecidableEq, Repr

end Sys2Proof
end

