-- ==== Sys2Proof/WellFormed.lean ====
section
/-! DEFINITION. Which terms of `Instr` the block's encodings can carry: every operand fits its field. -/

namespace Sys2Proof

/-- An optional byte string whose length fits an unsigned 32-bit length word (R48, R53). -/
def fitsLengthWord : Option Bytes → Bool
  | none => true
  | some b => decide (b.length < 2 ^ 32)

/-- An optional capacity that fits the unsigned word DST_CAP (R50, R53). -/
def fitsCapWord : Option Nat → Bool
  | none => true
  | some cap => decide (cap < 2 ^ 32)

/-- A signed 32-bit operand (R50, R53). -/
def fitsSignedWord (x : Int) : Bool := decide (-2 ^ 31 ≤ x) && decide (x < 2 ^ 31)

/-- An opcode of the five commands (R47). -/
def isCommandOpcode (opc : Byte) : Bool := decide (1 ≤ opc.toNat) && decide (opc.toNat ≤ 5)

/-- The term can be written as a packet (R45 to R52, R55) or as an operation on a MAC port (R58). A MAC port carries
only the selected bytes of a MAC_UPDATE (R67), so the form with another range has no encoding of its own, and REFILL has
none at all (R47). -/
def Instr.wellFormed : Instr → Bool
  | .init secret seed => fitsLengthWord secret && fitsLengthWord seed
  | .nextByte => true
  | .nextBytes dest offset length => fitsCapWord dest && fitsSignedWord offset && fitsSignedWord length
  | .addRandomByte _ => true
  | .addRandomBytes bs => decide (bs.length < 2 ^ 32)
  | .macInit _ _ => true
  | .macUpdate _ bytes offset length => decide (offset = 0) && decide (length = bytes.length)
  | .macDigest _ => true
  | .macReset _ => true
  | .macSize _ => true
  | .refill => false
  | .illegal opc => !isCommandOpcode opc

end Sys2Proof
end

