-- ==== Sys2Proof/Decode.lean ====
section
/-! DEFINITION. The decoder of 30_encoding.md (R45 to R60): a packet off the command and payload ports, an operation off
a MAC port, the byte-serial transport of 20_memory.md R34 (f); and, after it, the encoder written from the same tables. -/

namespace Sys2Proof

/-! ### Words and fields (00_scope.md §6.1, R46) -/

/-- `uint(w)`. -/
def uint (w : Word) : Nat := w.toNat

/-- `sint(w)`: two's complement (00_scope.md §6.1). -/
def sint (w : Word) : Int := if w.getLsbD 31 then (w.toNat : Int) - 2 ^ 32 else w.toNat

/-- `OPC = w0[7:0]` (R46). -/
def fieldOpc (w0 : Word) : Byte := w0.extractLsb' 0 8

/-- `HS = w0[8]` (R46). -/
def fieldHS (w0 : Word) : Bool := w0.getLsbD 8

/-- `HD = w0[9]` (R46). -/
def fieldHD (w0 : Word) : Bool := w0.getLsbD 9

/-- `DP = w0[10]` (R46). -/
def fieldDP (w0 : Word) : Bool := w0.getLsbD 10

/-! ### Packets (R45, R57) -/

/-- A host packet: the header word and the operand words, then the payload (R45). -/
structure Packet where
  words : List Word
  payload : Bytes
  deriving DecidableEq, Repr

/-- The number of operand words, from OPC alone (R47, R57). -/
def operandWords (opc : Byte) : Nat :=
  match opc.toNat with
  | 1 => 2
  | 2 => 0
  | 3 => 3
  | 4 => 1
  | 5 => 1
  | _ => 0

/-- `ls'`: the secret's bytes in an INIT's payload, none when HS = 0 (R48). -/
def secretBytes (w0 w1 : Word) : Nat := if fieldHS w0 then uint w1 else 0

/-- The seed's bytes in an INIT's payload, none when HD = 0 (R48). -/
def seedBytes (w0 w2 : Word) : Nat := if fieldHD w0 then uint w2 else 0

/-- The length of the payload, from the header and the operand words (R57). -/
def payloadLength (w0 : Word) (ops : List Word) : Nat :=
  match (fieldOpc w0).toNat with
  | 1 => secretBytes w0 (ops.getD 0 0) + seedBytes w0 (ops.getD 1 0)
  | 5 => uint (ops.getD 0 0)
  | _ => 0

/-- The decoded command of a whole packet: header `w0`, its operand words, its payload (R48 to R52, R55, R60). Ignored
bits and ignored words are not looked at (R54). -/
def decodeCommand (w0 : Word) (ops : List Word) (p : Bytes) : Instr :=
  match (fieldOpc w0).toNat with
  | 1 =>
    let ls := secretBytes w0 (ops.getD 0 0)
    let ld := seedBytes w0 (ops.getD 1 0)
    .init (if fieldHS w0 then some (p.take ls) else none) (if fieldHD w0 then some ((p.drop ls).take ld) else none)
  | 2 => .nextByte
  | 3 => .nextBytes (if fieldDP w0 then some (uint (ops.getD 0 0)) else none) (sint (ops.getD 1 0)) (sint (ops.getD 2 0))
  | 4 => .addRandomByte ((ops.getD 0 0).extractLsb' 0 8)
  | 5 => .addRandomBytes (p.take (uint (ops.getD 0 0)))
  | _ => .illegal (fieldOpc w0)

/-- What the command port finds: nothing whole yet, or one command and what stands behind it. -/
inductive Fetch where
  | waiting
  | command (i : Instr) (restWords : List Word) (restBytes : Bytes)
  deriving DecidableEq, Repr

/-- Take one packet off the two ports. "The block starts a command only when its whole packet has been received" (R45). -/
def fetch (words : List Word) (bytes : Bytes) : Fetch :=
  match words with
  | [] => .waiting
  | w0 :: rest =>
    let n := operandWords (fieldOpc w0)
    if rest.length < n then .waiting
    else
      let ops := rest.take n
      let m := payloadLength w0 ops
      if bytes.length < m then .waiting
      else .command (decodeCommand w0 ops (bytes.take m)) (rest.drop n) (bytes.drop m)

/-! ### Operations on a MAC port (R58) -/

/-- An operation as a MAC port carries it: the port, the 3-bit MOP, the bytes towards the core. -/
structure PortOp where
  chain : Chain
  mop : BitVec 3
  data : Bytes
  deriving DecidableEq, Repr

/-- Why a decoder gives no instruction. -/
inductive DecodeError where
  /-- The packet is not whole (R45). -/
  | incompletePacket
  /-- Something stands behind the packet. -/
  | trailingInput
  /-- MOP 0, 6 or 7, "never issued by the engine" (R58). -/
  | reservedMop
  deriving DecidableEq, Repr

/-- R58's table. Only the selected bytes of a MAC_UPDATE travel, so the operation off the port is the whole range (R67).
DESIGN CHOICE: with MOP 3, 4 or 5, which the table says carry nothing towards the core, bytes that stand there all the same
are ignored. Log entry 15. -/
def decodePort (op : PortOp) : Except DecodeError Instr :=
  match op.mop.toNat with
  | 1 => .ok (.macInit op.chain op.data)
  | 2 => .ok (.macUpdate op.chain op.data 0 op.data.length)
  | 3 => .ok (.macDigest op.chain)
  | 4 => .ok (.macReset op.chain)
  | 5 => .ok (.macSize op.chain)
  | _ => .error .reservedMop

/-! ### Both together -/

/-- What an instruction looks like on the wires. -/
inductive Wire where
  | packet (p : Packet)
  | port (op : PortOp)
  deriving DecidableEq, Repr

/-- One whole packet and nothing behind it. -/
def decodePacket (p : Packet) : Except DecodeError Instr :=
  match fetch p.words p.payload with
  | .waiting => .error .incompletePacket
  | .command i [] [] => .ok i
  | .command _ _ _ => .error .trailingInput

/-- The decoder: total, and it rejects by name. -/
def decode : Wire → Except DecodeError Instr
  | .packet p => decodePacket p
  | .port op => decodePort op

/-! ### The byte-serial transport (R34 (f)): least significant byte first -/

/-- The four bytes of a word, least significant first. -/
def wordToBytes (w : Word) : Bytes :=
  [w.extractLsb' 0 8, w.extractLsb' 8 8, w.extractLsb' 16 8, w.extractLsb' 24 8]

/-- Four bytes as a word, the first the least significant. -/
def bytesToWord (b0 b1 b2 b3 : Byte) : Word := b3 ++ b2 ++ b1 ++ b0

/-- Take `n` words off a byte stream, if they are all there. -/
def takeWords : Nat → Bytes → Option (List Word × Bytes)
  | 0, bs => some ([], bs)
  | n + 1, b0 :: b1 :: b2 :: b3 :: bs => (takeWords n bs).map fun r => (bytesToWord b0 b1 b2 b3 :: r.1, r.2)
  | _ + 1, _ => none

/-- A packet off a byte stream, and the bytes behind it: total on any bytes. -/
def decodeBytes (bs : Bytes) : Except DecodeError (Instr × Bytes) :=
  match takeWords 1 bs with
  | some ([w0], rest) =>
    match takeWords (operandWords (fieldOpc w0)) rest with
    | some (ops, tail) =>
      match fetch (w0 :: ops) tail with
      | .waiting => .error .incompletePacket
      | .command i _ tail' => .ok (i, tail')
    | none => .error .incompletePacket
  | _ => .error .incompletePacket

/-! ### The encoder -/

/-- A flag as bit `n` of a word. -/
def flagBit (b : Bool) (n : Nat) : Word := if b then BitVec.twoPow 32 n else 0

/-- R46's header word, reserved bits zero. -/
def header (opc : Byte) (hs hd dp : Bool) : Word :=
  opc.setWidth 32 ||| flagBit hs 8 ||| flagBit hd 9 ||| flagBit dp 10

/-- The packet of a host command (R47 to R52, R55); ignored fields are written as zero (R54). -/
def encodePacket : Instr → Option Packet
  | .init secret seed => some
      { words := [header 0x01 secret.isSome seed.isSome false,
          BitVec.ofNat 32 (secret.getD []).length, BitVec.ofNat 32 (seed.getD []).length]
        payload := secret.getD [] ++ seed.getD [] }
  | .nextByte => some { words := [header 0x02 false false false], payload := [] }
  | .nextBytes dest offset length => some
      { words := [header 0x03 false false dest.isSome, BitVec.ofNat 32 (dest.getD 0), BitVec.ofInt 32 offset,
          BitVec.ofInt 32 length]
        payload := [] }
  | .addRandomByte b => some { words := [header 0x04 false false false, b.setWidth 32], payload := [] }
  | .addRandomBytes bs => some { words := [header 0x05 false false false, BitVec.ofNat 32 bs.length], payload := bs }
  | .illegal opc => some { words := [header opc false false false], payload := [] }
  | .macInit _ _ => none
  | .macUpdate _ _ _ _ => none
  | .macDigest _ => none
  | .macReset _ => none
  | .macSize _ => none
  | .refill => none

/-- The bytes `bytes[offset .. offset+length)` that a MAC_UPDATE selects (R67). -/
def selectedBytes (bytes : Bytes) (offset length : Int) : Bytes := (bytes.drop offset.toNat).take length.toNat

/-- The operation of a MAC port (R58). -/
def encodePort : Instr → Option PortOp
  | .macInit h key => some { chain := h, mop := 1, data := key }
  | .macUpdate h bytes offset length => some { chain := h, mop := 2, data := selectedBytes bytes offset length }
  | .macDigest h => some { chain := h, mop := 3, data := [] }
  | .macReset h => some { chain := h, mop := 4, data := [] }
  | .macSize h => some { chain := h, mop := 5, data := [] }
  | .init _ _ => none
  | .nextByte => none
  | .nextBytes _ _ _ => none
  | .addRandomByte _ => none
  | .addRandomBytes _ => none
  | .refill => none
  | .illegal _ => none

/-- The wires of an instruction; `none` for REFILL, which has no encoding (R47). -/
def encode (i : Instr) : Option Wire :=
  match encodePacket i with
  | some p => some (.packet p)
  | none => (encodePort i).map .port

/-- A packet on a byte-serial transport (R34 (f)). -/
def packetBytes (p : Packet) : Bytes := p.words.flatMap wordToBytes ++ p.payload

/-! ### Words as the opcode table numbers them -/

/-- The `n` bytes of `w` from bit `at` on, the lowest first. -/
def bytesFrom (w start n : Nat) : Bytes := (List.range n).map fun j => BitVec.ofNat 8 (w >>> (start + 8 * j))

/-- The packet whose bits are `w`: word `j` is bits `32j+31 .. 32j`, the payload's bytes count on from the last operand
word. It is exactly as long as R57 says, so bits of `w` above it are not in it. Log entry 2. -/
def tablePacket (w : Nat) : Packet :=
  let w0 : Word := BitVec.ofNat 32 w
  let n := operandWords (fieldOpc w0)
  let ops : List Word := (List.range n).map fun j => BitVec.ofNat 32 (w >>> (32 * (j + 1)))
  { words := w0 :: ops, payload := bytesFrom w (32 * (n + 1)) (payloadLength w0 ops) }

/-- The MAC-port operation whose MOP is `w[2:0]`, on the MD5 port, with no bytes. Log entry 9. -/
def tablePortOp (w : Nat) : PortOp := { chain := .md5, mop := BitVec.ofNat 3 w, data := [] }

/-- The wires of a table row's word. A word of fewer than 8 bits is a MAC-port operation, the 3 bits of a MOP; a longer one
is a packet. The 8 bits of an OPC alone are a packet, its other header bits and its operand words zero: a program is what
the host sends, and no host reaches the MAC ports (R71). Log entries 2 and 9. -/
def tableWire (nbits w : Nat) : Wire := if nbits < 8 then .port (tablePortOp w) else .packet (tablePacket w)

/-- The instruction this decoder reads from a word numbered as spec/opcode_table.json numbers it. -/
def decodeTableWord (nbits w : Nat) : Option Instr := (decode (tableWire nbits w)).toOption

end Sys2Proof
end

