-- ==== Sys2Proof/Machine/State.lean ====
section
/-! DEFINITION. The state of one engine (10_state.md R10) with the host side of its ports, the reasons a step stops, and
the state after reset (R24). Plain data throughout. -/

namespace Sys2Proof.Machine

/-- Where the sequencer is inside a command (R18's table). -/
inductive Phase where
  | idle
  | check
  | keyload
  | a1Md5
  | a1Sha1
  | fillMd5Out (k : Fin 5)
  | fillMd5Adv (k : Fin 5)
  | fillSha1Out (k : Fin 4)
  | fillSha1Adv (k : Fin 4)
  | draw
  | respond
  deriving DecidableEq, Repr

/-- The state of one MAC adapter (R21). `key` of the MD5 adapter is `S1`, of the SHA-1 adapter `S2` (R11). -/
structure Adapter where
  /-- "the key given by the last successful MAC_INIT (none before the first)". -/
  key : Option Bytes
  /-- "all bytes updated since the last init/reset, in order". -/
  pend : Bytes
  deriving DecidableEq, Repr

/-- An operation as the contract of 40_mac_adapter.md names it; the port it goes to stands in the event. -/
inductive MacOp where
  | init (key : Bytes)
  | update (bytes : Bytes) (offset length : Int)
  | digest
  | reset
  | size
  deriving DecidableEq, Repr

/-- What the core answers (R58's column "from core"). -/
inductive MacAnswer where
  /-- MAC_INIT accepted the key (R66). -/
  | accepted
  /-- MAC_INIT refused the key: `InvalidKeyError` (R66). -/
  | invalidKey
  /-- MAC_UPDATE's range is outside the bytes: `BoundsError` (R67). -/
  | boundsError
  /-- Nothing comes back (MAC_UPDATE, MAC_RESET). -/
  | nothing
  /-- The `n_h` bytes of MAC_DIGEST (R68). -/
  | digest (bytes : Bytes)
  /-- The number of MAC_SIZE (R70). -/
  | size (n : Nat)
  deriving DecidableEq, Repr

/-- What happens at the block's edges, and its phases, in order. Log entry 12. -/
inductive Event where
  /-- A write of `phase` (R18, R93). -/
  | phase (p : Phase)
  /-- An operation on MAC port `h` and its answer (R58). -/
  | mac (h : Chain) (op : MacOp) (answer : MacAnswer)
  /-- A beat on the destination write port (R42, R59). -/
  | dst (address : Nat) (byte : Byte)
  /-- The response word (R56). -/
  | response (w : Word)
  /-- The reset input was taken (R125). -/
  | reset
  deriving DecidableEq, Repr

/-- The host's memory behind the DST port: (address, byte) pairs, addresses strictly rising (`Memory.wf`). An address that
is not listed holds no value of this model: it is "as the host left it" (20_memory.md R43). Log entry 11. -/
abbrev Memory := List Host.Cell

/-- One engine instance and the host side of its ports. -/
structure State where
  /-- Lifecycle: false = Uninitialized, true = Ready (R16). -/
  init : Bool
  /-- The MD5 adapter: `key_MD5` = `S1`, and `pend_MD5` (R11, R21). -/
  md5 : Adapter
  /-- The SHA-1 adapter: `key_SHA1` = `S2`, and `pend_SHA1` (R11, R21). -/
  sha1 : Adapter
  /-- The private copy of the seed (R12). -/
  seed : Bytes
  /-- `A_md5` (R13). -/
  aMd5 : Vector Byte 16
  /-- `A_sha1` (R13). -/
  aSha1 : Vector Byte 20
  /-- `buf[0..79]`, the space BUF (R14, R30). -/
  buf : Vector Byte 80
  /-- The cursor, 0 .. 80 (R15). -/
  idx : Fin 81
  /-- The sequencer's phase; IDLE between commands (R17, R18). -/
  phase : Phase
  /-- Host side: the reset input (R125). Log entry 8. -/
  resetIn : Bool
  /-- The model's own: how many times the reset input has been taken. Log entry 5. -/
  resets : Nat
  /-- Host side: words standing at the command port (R45). Log entry 1. -/
  cmdIn : List Word
  /-- Host side: bytes standing at the payload port (R45). Log entry 1. -/
  payIn : Bytes
  /-- Operations standing at the MAC ports; the five commands leave none here. Log entry 9. -/
  macIn : List PortOp
  /-- Host side: the memory behind the DST port (R31). Log entry 11. -/
  dst : Memory
  /-- The record of events, oldest first. Log entry 12. -/
  trace : List Event
  deriving DecidableEq, Repr

/-- Why the machine stops. -/
inductive Fault where
  /-- MAC_UPDATE, MAC_DIGEST or MAC_RESET on an adapter that has no key: "`fault` if a model makes it expressible"
  (93_implementation_defined.md U4; R68: "a model gives it no meaning (a fault)"). Raised by the three, and by REFILL and
  the commands that run it where an adapter has no key, which no state a command reaches has. Safe. Log entry 10. -/
  | macWithoutKey
  deriving DecidableEq, Repr

/-- Why a step refuses. -/
inductive Refusal where
  /-- An instruction without a meaning yet, by its mnemonic. Raised in exec's arms only. Safe. -/
  | notModelled (mnemonic : String)
  /-- The block is inside a command: "A model has no step for a second command inside a first" (U7). Raised by step where
  `phase` is not IDLE, which no state a step reaches has. Safe. Log entry 7. -/
  | commandInProgress
  /-- MOP 0, 6 or 7 stands at a MAC port: "never issued by the engine" (R58, R71, U14). Raised by step. Safe. -/
  | reservedMop
  deriving DecidableEq, Repr

/-- The block right after its `n`-th reset, nothing at its ports (R24): Uninitialized, IDLE, both adapters keyless and
idle; every register R24 calls unspecified at a value `c` leaves free. Log entry 5. -/
def State.afterReset (c : Config) (n : Nat) : State where
  init := false
  md5 := { key := none, pend := [] }
  sha1 := { key := none, pend := [] }
  seed := c.freshSeed n
  aMd5 := c.unspecAMd5 n
  aSha1 := c.unspecASha1 n
  buf := c.unspecBuf n
  idx := c.unspecIdx n
  phase := .idle
  resetIn := false
  resets := n
  cmdIn := []
  payIn := []
  macIn := []
  dst := []
  trace := []

/-- The machine right after reset (R24, R125). -/
def State.reset : State := State.afterReset config 0

end Sys2Proof.Machine
end

