-- ==== Sys2Proof/Machine/Ops.lean ====
section
/-! DEFINITION. The named operations over registers and memories: the DST memory, the record of events, the MAC adapter's
five operations and the composite `Mac` (R66 to R72), a block of the buffer fill (R86, R87), the draw of one byte. -/

namespace Sys2Proof.Machine

/-! ### DST as data (20_memory.md R31, R42) -/

/-- The canonical form: addresses strictly rising. -/
abbrev Memory.wf (m : Memory) : Prop := m.Pairwise fun x y => x.1 < y.1

/-- The byte at an address; `none` where no beat has written it. -/
def Memory.read : Memory → Nat → Option Byte
  | [], _ => none
  | (a, b) :: m, x => if x = a then some b else Memory.read m x

/-- `MemWrite(DST, a, 1, b)`, keeping the canonical form. -/
def Memory.write : Memory → Nat → Byte → Memory
  | [], a, b => [(a, b)]
  | (x, y) :: m, a, b =>
    if a < x then (a, b) :: (x, y) :: m
    else if a = x then (a, b) :: m
    else (x, y) :: Memory.write m a b

/-! ### Single updates -/

/-- Append an event to the record. -/
def State.log (e : Event) (s : State) : State := { s with trace := s.trace ++ [e] }

/-- `phase <- p`. -/
def State.setPhase (p : Phase) (s : State) : State := { s with phase := p, trace := s.trace ++ [.phase p] }

/-- `init <- b`. -/
def State.setInit (b : Bool) (s : State) : State := { s with init := b }

/-- `seed <- d`. -/
def State.setSeed (d : Bytes) (s : State) : State := { s with seed := d }

/-- `idx <- i`. -/
def State.setIdx (i : Fin 81) (s : State) : State := { s with idx := i }

/-- `buf <- b`, all 80 cells. -/
def State.setBuf (b : Vector Byte 80) (s : State) : State := { s with buf := b }

/-- The adapter on port `h` (R21). -/
def State.adapter (h : Chain) (s : State) : Adapter :=
  match h with
  | .md5 => s.md5
  | .sha1 => s.sha1

/-- Write the adapter on port `h`, and no other: "The two adapters share no state" (R65). -/
def State.setAdapter (h : Chain) (a : Adapter) (s : State) : State :=
  match h with
  | .md5 => { s with md5 := a }
  | .sha1 => { s with sha1 := a }

/-- `A_h` (R13). -/
def State.chainValue (h : Chain) (s : State) : Digest h :=
  match h with
  | .md5 => s.aMd5
  | .sha1 => s.aSha1

/-- `A_h <- d`. -/
def State.setChainValue (h : Chain) (d : Digest h) (s : State) : State :=
  match h with
  | .md5 => { s with aMd5 := d }
  | .sha1 => { s with aSha1 := d }

/-- One beat on the DST write port (R42, R59). -/
def State.writeDst (a : Nat) (b : Byte) (s : State) : State :=
  { s with dst := Memory.write s.dst a b, trace := s.trace ++ [.dst a b] }

/-! ### The MAC adapter's operations (R66 to R70) -/

/-- `MAC_UPDATE`'s range check fails (R67). -/
def rangeBad (offset length : Int) (size : Nat) : Bool :=
  decide (offset < 0) || decide (length < 0) || decide (offset + length > size)

/-- `MAC_INIT(h, key)` (R66): a refused key leaves the adapter unchanged. -/
def macInit (c : Config) (h : Chain) (key : Bytes) (s : State) : State :=
  if c.keyOk h key then (s.setAdapter h { key := some key, pend := [] }).log (.mac h (.init key) .accepted)
  else s.log (.mac h (.init key) .invalidKey)

/-- The key of port `h`. MAC_UPDATE, MAC_DIGEST and MAC_RESET ask for it first: on an adapter with no key each is the fault
of 93_implementation_defined.md U4. Log entry 10. -/
def needKey (h : Chain) (s : State) : Except Fault Bytes :=
  match (s.adapter h).key with
  | none => .error .macWithoutKey
  | some k => .ok k

/-- `pend_h <- pend_h ++ bytes[offset .. offset+length)` (R67): out of range it leaves the adapter unchanged. -/
def appendRange (h : Chain) (bytes : Bytes) (offset length : Int) (s : State) : State :=
  if rangeBad offset length bytes.length then s.log (.mac h (.update bytes offset length) .boundsError)
  else
    (s.setAdapter h { s.adapter h with pend := (s.adapter h).pend ++ selectedBytes bytes offset length }).log
      (.mac h (.update bytes offset length) .nothing)

/-- `MAC_UPDATE(h, bytes, offset, length)` (R67, U4). -/
def macUpdate (h : Chain) (bytes : Bytes) (offset length : Int) (s : State) : Except Fault State :=
  (needKey h s).map fun _ => appendRange h bytes offset length s

/-- `MAC_DIGEST(h)` (R68, U4): "requires key_h = some k"; neither key nor pend changes. -/
def macDigest (c : Config) (h : Chain) (s : State) : Except Fault (Digest h × State) :=
  (needKey h s).map fun k =>
    let d := c.hmac h k (s.adapter h).pend
    (d, s.log (.mac h .digest (.digest d.toList)))

/-- `pend_h <- []`, key unchanged (R69). -/
def clearPending (h : Chain) (s : State) : State :=
  (s.setAdapter h { s.adapter h with pend := [] }).log (.mac h .reset .nothing)

/-- `MAC_RESET(h)` (R69, U4). -/
def macReset (h : Chain) (s : State) : Except Fault State := (needKey h s).map fun _ => clearPending h s

/-- `MAC_SIZE(h)` (R70): no state read or written. -/
def macSize (h : Chain) (s : State) : State := s.log (.mac h .size (.size h.size))

/-- MAC_UPDATE of each message part in order, each whole (R72). -/
def macUpdates (h : Chain) : List Bytes → State → Except Fault State
  | [], s => .ok s
  | m :: ms, s =>
    match macUpdate h m 0 m.length s with
    | .error f => .error f
    | .ok s' => macUpdates h ms s'

/-- The composite `Mac(h, m1, ..., mr)` (R72): the updates, one digest, one reset. -/
def mac (c : Config) (h : Chain) (parts : List Bytes) (s : State) : Except Fault (Digest h × State) :=
  match macUpdates h parts s with
  | .error f => .error f
  | .ok s1 =>
    match macDigest c h s1 with
    | .error f => .error f
    | .ok (d, s2) => (macReset h s2).map fun s3 => (d, s3)

/-! ### A block of the fill (R85 to R87, R94) -/

/-- `FILL_h_OUT(k)` (R18). -/
def outPhase : (h : Chain) → Fin h.blocks → Phase
  | .md5, k => .fillMd5Out k
  | .sha1, k => .fillSha1Out k

/-- `FILL_h_ADV(k)` (R18). -/
def advPhase : (h : Chain) → Fin h.blocks → Phase
  | .md5, k => .fillMd5Adv k
  | .sha1, k => .fillSha1Adv k

/-- What a pass does to one byte: "MD5 output is written and SHA-1 output is XORed" (R86, R87, R94). -/
def combine (h : Chain) (old new : Byte) : Byte :=
  match h with
  | .md5 => new
  | .sha1 => old ^^^ new

/-- Block `k` of pass `h`: cells `n_h·k + j`, `j < n_h`, take `d[j]`; the others keep their value (R85, R37). -/
def putBlock (h : Chain) (k : Nat) (d : Digest h) (b : Vector Byte 80) : Vector Byte 80 :=
  Vector.ofFn fun i =>
    if r : h.size * k ≤ i.val ∧ i.val - h.size * k < h.size then combine h b[i] (d[i.val - h.size * k]'r.2) else b[i]

/-- One block of a pass: the output block from the chain value before the advance, then the advance (R86, R87). -/
def fillBlock (c : Config) (h : Chain) (k : Fin h.blocks) (s : State) : Except Fault State :=
  match mac c h [(s.chainValue h).toList, s.seed] (s.setPhase (outPhase h k)) with
  | .error f => .error f
  | .ok (d, s1) =>
    let s2 := (s1.setBuf (putBlock h k d s1.buf)).setPhase (advPhase h k)
    match mac c h [(s2.chainValue h).toList] s2 with
    | .error f => .error f
    | .ok (a, s3) => .ok (s3.setChainValue h a)

/-- The blocks of a pass, in order (R86: k = 0 .. 4; R87: k = 0 .. 3). -/
def blockIndices : (h : Chain) → List (Fin h.blocks)
  | .md5 => [0, 1, 2, 3, 4]
  | .sha1 => [0, 1, 2, 3]

/-- A pass over the given blocks. -/
def fillBlocks (c : Config) (h : Chain) : List (Fin h.blocks) → State → Except Fault State
  | [], s => .ok s
  | k :: ks, s =>
    match fillBlock c h k s with
    | .error f => .error f
    | .ok s' => fillBlocks c h ks s'

/-- REFILL (R85): the MD5 pass, the SHA-1 pass, then `idx <- 0` (R88). -/
def refill (c : Config) (s : State) : Except Fault State :=
  match fillBlocks c .md5 (blockIndices .md5) s with
  | .error f => .error f
  | .ok s1 =>
    match fillBlocks c .sha1 (blockIndices .sha1) s1 with
    | .error f => .error f
    | .ok s2 => .ok (s2.setIdx 0)

/-- REFILL, then "back to the phase that invoked REFILL" (R93). -/
def refillAndReturn (c : Config) (s : State) : Except Fault State :=
  match refill c s with
  | .error f => .error f
  | .ok s' => .ok (s'.setPhase s.phase)

/-! ### Draws (R95, R96) -/

/-- Deliver `buf[i]` and put the cursor behind it: `b = buf[idx]; idx <- idx + 1`. -/
def deliver (i : Fin 80) (s : State) : Byte × State := (s.buf[i], s.setIdx i.succ)

/-- Draw one byte: "if the buffer is exhausted, refill before reading" (R95). The refill leaves `idx = 0` (R88), so the
byte is then `buf[0]`. -/
def drawByte (c : Config) (s : State) : Except Fault (Byte × State) :=
  if r : s.idx.val < 80 then .ok (deliver ⟨s.idx.val, r⟩ s)
  else
    match refillAndReturn c s with
    | .error f => .error f
    | .ok s' => .ok (deliver 0 s')

/-- Draw `n` bytes to DST, ascending from address `a` (R96's loop). -/
def drawTo (c : Config) (a : Nat) : Nat → State → Except Fault State
  | 0, s => .ok s
  | n + 1, s =>
    match drawByte c s with
    | .error f => .error f
    | .ok (b, s') => drawTo c (a + 1) n (s'.writeDst a b)

/-- A result as the outcome of a step. -/
def outcomeOf : Except Fault State → Host.Outcome State Fault Refusal
  | .ok s => .next s
  | .error f => .fault f

end Sys2Proof.Machine
end

