-- ==== Sys2Proof/Machine/Operands.lean ====
section
/-! DEFINITION. What the commands make of their operands: the secret split (R77), the length limits (R63), the window
check of NEXT_BYTES (R96), the optional secret and seed of INIT (R78, R79). -/

namespace Sys2Proof.Machine

/-- `l = ceil(n/2) = (n >> 1) + (n & 1)` (R64 (a), R77). -/
def splitLength (n : Nat) : Nat := (n >>> 1) + (n &&& 1)

/-- `S1 = s[0 .. l)`, the first half (R77). -/
def firstHalf (s : Bytes) : Bytes := s.take (splitLength s.length)

/-- `S2 = s[n-l .. n)`, the last half (R77). -/
def lastHalf (s : Bytes) : Bytes := s.drop (s.length - splitLength s.length)

/-- The half that keys the core of chain `h`: `S1` the MD5 core, `S2` the SHA-1 core (R78). -/
def halfFor : Chain → Bytes → Bytes
  | .md5 => firstHalf
  | .sha1 => lastHalf

/-- A supplied operand longer than its maximum (R63). -/
def overLimit (limit : Nat) : Option Bytes → Bool
  | none => false
  | some b => decide (b.length > limit)

/-- R60's `TOO_LONG`: the INIT that R63 refuses. Log entry 6. -/
def tooLong (c : Config) (secret seed : Option Bytes) : Bool :=
  overLimit c.maxSecretLen secret || overLimit c.maxSeedLen seed

/-- Both cores accept their half of the secret (R76 (1)). -/
def secretOk (c : Config) (secret : Bytes) : Bool :=
  c.keyOk .md5 (halfFor .md5 secret) && c.keyOk .sha1 (halfFor .sha1 secret)

/-- The window check of NEXT_BYTES, on exact integers (R96, R64 (e)). -/
def windowBad (cap : Nat) (offset length : Int) : Bool :=
  decide (offset < 0) || decide (length < 0) || decide (offset + length > cap)

/-- The key load: MD5 port first, then SHA-1 (R78); nothing where no secret is supplied. -/
def keyLoad (c : Config) (secret : Option Bytes) (s : State) : State :=
  match secret with
  | none => s
  | some x => macInit c .sha1 (halfFor .sha1 x) (macInit c .md5 (halfFor .md5 x) (s.setPhase .keyload))

/-- The seed store (R79); nothing where no seed is supplied. -/
def storeSeed (seed : Option Bytes) (s : State) : State :=
  match seed with
  | none => s
  | some d => s.setSeed d

end Sys2Proof.Machine
end

