-- ==== Sys2Proof/Machine/Flags.lean ====
section
/-! DEFINITION. Status codes, the order of the checks, and the response word with its flags DV and RDY (30_encoding.md
R56, 60_exceptions.md R105, R115); the one way a command ends (R116, R138). -/

namespace Sys2Proof.Machine

/-- The statuses of R105's table. -/
inductive Status where
  | ok
  | illegalState
  | noSecret
  | noSeed
  | invalidKey
  | nullDest
  | bounds
  | illegalCmd
  | length
  deriving DecidableEq, Repr

/-- R105's numbers. -/
def Status.code : Status → Byte
  | .ok => 0x00
  | .illegalState => 0x01
  | .noSecret => 0x02
  | .noSeed => 0x03
  | .invalidKey => 0x04
  | .nullDest => 0x05
  | .bounds => 0x06
  | .illegalCmd => 0x07
  | .length => 0x08

/-- The checks of INIT in R115's order (R76, R81). -/
def initStatus (c : Config) (ready : Bool) (secret seed : Option Bytes) : Status :=
  if tooLong c secret seed then .length
  else
    match secret with
    | some x =>
      if secretOk c x then (if seed.isNone && !ready then .noSeed else .ok) else .invalidKey
    | none => if ready then .ok else .noSecret

/-- The check of NEXT_BYTE (R95). -/
def nextByteStatus (ready : Bool) : Status := if ready then .ok else .illegalState

/-- The checks of NEXT_BYTES in R115's order (R96). -/
def nextBytesStatus (ready : Bool) (dest : Option Nat) (offset length : Int) : Status :=
  if ready then
    match dest with
    | none => .nullDest
    | some cap => if windowBad cap offset length then .bounds else .ok
  else .illegalState

/-- The response word of R56: zero, RDY, DV, DATA, STATUS from bit 31 down. `data` is the drawn byte of a NEXT_BYTE that
answers OK, and DV says whether there is one. -/
def responseWord (st : Status) (data : Option Byte) (rdy : Bool) : Word :=
  (0 : BitVec 14) ++ BitVec.ofBool rdy ++ BitVec.ofBool data.isSome ++ data.getD 0 ++ st.code

/-- The end of a command: `phase <- RESPOND; respond(st, data); phase <- IDLE`; RDY is `init` after the command (R56). -/
def State.finish (st : Status) (data : Option Byte) (s : State) : State :=
  ((s.setPhase .respond).log (.response (responseWord st data s.init))).setPhase .idle

/-- `raise <Error>` (00_scope.md §6.2, R116): no register written, no DST write, one response word. -/
def State.raiseError (st : Status) (s : State) : State := s.finish st none

end Sys2Proof.Machine
end

