-- ==== Sys2Proof/Machine/Init.lean ====
section
/-! DEFINITION. INIT (41_init.md). -/

namespace Sys2Proof.Machine

/-- `A_h <- Mac(h, seed)`: the first chain value, `A(1)` (R80). -/
def firstChainValue (c : Config) (h : Chain) (s : State) : Except Fault State :=
  match mac c h [s.seed] s with
  | .error f => .error f
  | .ok (a, s') => .ok (s'.setChainValue h a)

/-- The commit of INIT (R75): key load, seed store, both `A(1)`, the eager fill, `init <- 1`, the response. -/
def initCommit (c : Config) (secret seed : Option Bytes) (s : State) : Except Fault State :=
  match firstChainValue c .md5 ((storeSeed seed (keyLoad c secret s)).setPhase .a1Md5) with
  | .error f => .error f
  | .ok s1 =>
    match firstChainValue c .sha1 (s1.setPhase .a1Sha1) with
    | .error f => .error f
    | .ok s2 =>
      match refill c s2 with
      | .error f => .error f
      | .ok s3 => .ok ((s3.setInit true).finish .ok none)

/-- INIT over any configuration: all checks before all writes (R76). -/
def initWith (c : Config) (secret seed : Option Bytes) (s : State) : Except Fault State :=
  match initStatus c s.init secret seed with
  | .ok => initCommit c secret seed (s.setPhase .check)
  | st => .ok ((s.setPhase .check).raiseError st)

/-- `INIT` (R75, R63). -/
def execInit (secret seed : Option Bytes) (s : State) : Host.Outcome State Fault Refusal :=
  outcomeOf (initWith config secret seed s)

end Sys2Proof.Machine
end

