-- ==== Sys2Proof/Machine/MacPort.lean ====
section
/-! DEFINITION. The five operations of a MAC port (40_mac_adapter.md R66 to R70). -/

namespace Sys2Proof.Machine

/-- `MAC_INIT` (R66). -/
def execMacInit (h : Chain) (key : Bytes) (s : State) : Host.Outcome State Fault Refusal :=
  .next (macInit config h key s)

/-- `MAC_UPDATE` (R67; on an adapter with no key the fault of U4). -/
def execMacUpdate (h : Chain) (bytes : Bytes) (offset length : Int) (s : State) : Host.Outcome State Fault Refusal :=
  outcomeOf (macUpdate h bytes offset length s)

/-- `MAC_DIGEST` (R68): the digest is what the port answers; on an adapter with no key the fault of R68 and U4. -/
def execMacDigest (h : Chain) (s : State) : Host.Outcome State Fault Refusal :=
  outcomeOf ((macDigest config h s).map Prod.snd)

/-- `MAC_RESET` (R69; on an adapter with no key the fault of U4). -/
def execMacReset (h : Chain) (s : State) : Host.Outcome State Fault Refusal := outcomeOf (macReset h s)

/-- `MAC_SIZE` (R70). -/
def execMacSize (h : Chain) (s : State) : Host.Outcome State Fault Refusal := .next (macSize h s)

end Sys2Proof.Machine
end

