-- ==== Sys2Proof/Machine/Refill.lean ====
section
/-! DEFINITION. REFILL as a micro-operation of its own (42_refill.md R85). -/

namespace Sys2Proof.Machine

/-- `REFILL` (R85), and back to the phase that invoked it (R93). -/
def execRefill (s : State) : Host.Outcome State Fault Refusal := outcomeOf (refillAndReturn config s)

end Sys2Proof.Machine
end

