-- ==== Sys2Proof/Machine/Stream.lean ====
section
/-! DEFINITION. The draw commands, the entropy hooks and the illegal command (43_stream.md, 30_encoding.md R55). -/

namespace Sys2Proof.Machine

/-- NEXT_BYTE over any configuration (R95). -/
def nextByteWith (c : Config) (s : State) : Except Fault State :=
  match nextByteStatus s.init with
  | .ok =>
    match drawByte c ((s.setPhase .check).setPhase .draw) with
    | .error f => .error f
    | .ok (b, s') => .ok (s'.finish .ok (some b))
  | st => .ok ((s.setPhase .check).raiseError st)

/-- `NEXT_BYTE` (R95). -/
def execNextByte (s : State) : Host.Outcome State Fault Refusal := outcomeOf (nextByteWith config s)

/-- NEXT_BYTES over any configuration (R96): all checks before the first draw. -/
def nextBytesWith (c : Config) (dest : Option Nat) (offset length : Int) (s : State) : Except Fault State :=
  match nextBytesStatus s.init dest offset length with
  | .ok =>
    match drawTo c offset.toNat length.toNat ((s.setPhase .check).setPhase .draw) with
    | .error f => .error f
    | .ok s' => .ok (s'.finish .ok none)
  | st => .ok ((s.setPhase .check).raiseError st)

/-- `NEXT_BYTES` (R96). -/
def execNextBytes (dest : Option Nat) (offset length : Int) (s : State) : Host.Outcome State Fault Refusal :=
  outcomeOf (nextBytesWith config dest offset length s)

/-- `ADD_RANDOM_BYTE` (R97): the byte is discarded; OK in both lifecycle states. -/
def execAddRandomByte (_b : Byte) (s : State) : Host.Outcome State Fault Refusal :=
  .next ((s.setPhase .check).finish .ok none)

/-- `ADD_RANDOM_BYTES` (R98): all bytes are discarded; OK in both lifecycle states, whatever their number. -/
def execAddRandomBytes (_bs : Bytes) (s : State) : Host.Outcome State Fault Refusal :=
  .next ((s.setPhase .check).finish .ok none)

/-- `ILLEGAL` (R55, R112): ERR_ILLEGAL_CMD, no state changes. -/
def execIllegal (_opc : Byte) (s : State) : Host.Outcome State Fault Refusal :=
  .next ((s.setPhase .check).raiseError .illegalCmd)

end Sys2Proof.Machine
end

