-- ==== Sys2Proof/Machine/Dispatch.lean ====
section
/-! DEFINITION. One arm per constructor of `Instr`. -/

namespace Sys2Proof.Machine

def exec (i : Instr) (s : State) : Host.Outcome State Fault Refusal :=
  match i with
  | .init secret seed => Sys2Proof.Machine.execInit secret seed s
  | .nextByte => Sys2Proof.Machine.execNextByte s
  | .nextBytes dest offset length => Sys2Proof.Machine.execNextBytes dest offset length s
  | .addRandomByte b => Sys2Proof.Machine.execAddRandomByte b s
  | .addRandomBytes bs => Sys2Proof.Machine.execAddRandomBytes bs s
  | .macInit h key => Sys2Proof.Machine.execMacInit h key s
  | .macUpdate h bytes offset length => Sys2Proof.Machine.execMacUpdate h bytes offset length s
  | .macDigest h => Sys2Proof.Machine.execMacDigest h s
  | .macReset h => Sys2Proof.Machine.execMacReset h s
  | .macSize h => Sys2Proof.Machine.execMacSize h s
  | .refill => Sys2Proof.Machine.execRefill s
  | .illegal opc => Sys2Proof.Machine.execIllegal opc s

end Sys2Proof.Machine
end

