-- ==== Sys2Proof/Machine/Reset.lean ====
section
/-! DEFINITION. Taking the reset input (70_reset_and_hazards.md R125, R126). -/

namespace Sys2Proof.Machine

/-- The reset input is taken: the block comes out as R24 says, whatever its phase was, and sends no response (R125, R126).
DST bytes already written stay written. DESIGN CHOICE: what stood at the ports is discarded, and taking the reset releases the
input, so a reset lasts one step. Log entry 8. -/
def State.takeReset (c : Config) (s : State) : State :=
  { State.afterReset c (s.resets + 1) with dst := s.dst, trace := s.trace ++ [.reset] }

end Sys2Proof.Machine
end

