-- ==== Sys2Proof/Machine/Step.lean ====
section
/-! DEFINITION. One step: a reset, one operation of a MAC port, or one whole command (20_memory.md R38, D1). -/

namespace Sys2Proof.Machine

/-- One step. The reset input comes first (R125, R126); then an operation standing at a MAC port; then, in IDLE, one whole
packet (R38, R45), and where no whole packet stands at the ports the block waits, unchanged (R45, R123). -/
def step (s : State) : Host.Outcome State Fault Refusal :=
  if s.resetIn then .next (s.takeReset config)
  else
    match s.macIn with
    | op :: rest =>
      match decodePort op with
      | .ok i => exec i { s with macIn := rest }
      | .error _ => .refused .reservedMop
    | [] =>
      match s.phase with
      | .idle =>
        match fetch s.cmdIn s.payIn with
        | .waiting => .next s
        | .command i words bytes => exec i { s with cmdIn := words, payIn := bytes }
      | _ => .refused .commandInProgress

/-- `s` with the instruction of a table word standing where the next step takes its instruction: a packet alone at the
command and payload ports of an idle block, the MAC ports empty; or, for a word of fewer than 8 bits, one operation at the
MAC ports. No reset stands before it. Log entry 2. -/
def State.withFetchWord (s : State) (nbits w : Nat) : State :=
  match tableWire nbits w with
  | .packet p => { s with cmdIn := p.words, payIn := p.payload, macIn := [], resetIn := false, phase := .idle }
  | .port op => { s with macIn := [op], resetIn := false }

end Sys2Proof.Machine
end

