-- ==== Sys2Proof/Safety.lean ====
section
/-! DEFINITION. The terms in which claims are stated: the chains and the stream in closed form (R9, R91, R92), what an
event record says, the rows of R93's state machine, and the invariants of R22, R23 and R31. -/

namespace Sys2Proof.Machine

/-! ### Chains and streams (R9, R91, R92, R94) -/

/-- The chain value `a` advanced `n` times under `key`: `A(i) = HMAC_h(key_h, A(i-1))` (R91). -/
def advanced (c : Config) (h : Chain) (key : Bytes) (a : Digest h) : Nat → Digest h
  | 0 => a
  | n + 1 => c.hmac h key (advanced c h key a n).toList

/-- `A_h(i)`: `A_h(0) = seed`, `A_h(i) = HMAC_h(key_h, A_h(i-1))` (R9, R91). -/
def chainA (c : Config) (h : Chain) (key seed : Bytes) : Nat → Bytes
  | 0 => seed
  | n + 1 => (c.hmac h key (chainA c h key seed n)).toList

/-- Byte `i` of what one pass computes, entered with chain value `a`: block `i / n_h`, byte `i mod n_h` (R86, R87, R94). -/
def passByte (c : Config) (h : Chain) (key seed : Bytes) (a : Digest h) (i : Nat) : Byte :=
  (c.hmac h key ((advanced c h key a (i / h.size)).toList ++ seed))[i % h.size]'(Nat.mod_lt _ (by cases h <;> decide))

/-- `P_h[n]` (R9): byte `n mod n_h` of block `n / n_h + 1`. -/
def prfByte (c : Config) (h : Chain) (key seed : Bytes) (n : Nat) : Byte :=
  (c.hmac h key (chainA c h key seed (n / h.size + 1) ++ seed))[n % h.size]'(Nat.mod_lt _ (by cases h <;> decide))

/-- Stream byte `n`: `P_MD5[n] ^ P_SHA1[n]` (R9, R92). -/
def streamByte (c : Config) (k1 k2 seed : Bytes) (n : Nat) : Byte :=
  prfByte c .md5 k1 seed n ^^^ prfByte c .sha1 k2 seed n

/-! ### What a record says -/

/-- The response words of a record, in order. -/
def responsesOf (ev : List Event) : List Word :=
  ev.filterMap fun e => match e with | .response w => some w | _ => none

/-- The DST write beats of a record, in order. -/
def beatsOf (ev : List Event) : List (Nat × Byte) :=
  ev.filterMap fun e => match e with | .dst a b => some (a, b) | _ => none

/-- The operations on both MAC ports in a record, in order. -/
def macCallsOf (ev : List Event) : List Event :=
  ev.filter fun e => match e with | .mac _ _ _ => true | _ => false

/-- The phases a record writes, in order. -/
def phasesOf (ev : List Event) : List Phase :=
  ev.filterMap fun e => match e with | .phase p => some p | _ => none

/-- The number of MAC_DIGEST computations in a record (R135). -/
def digestsOf (ev : List Event) : Nat :=
  (ev.filter fun e => match e with | .mac _ .digest _ => true | _ => false).length

/-- The MAC-port operations of one composite `Mac(h, parts)` under `key` (R72). -/
def macCalls (c : Config) (h : Chain) (key : Bytes) (parts : List Bytes) : List Event :=
  parts.map (fun m => Event.mac h (.update m 0 m.length) .nothing) ++
    [.mac h .digest (.digest (c.hmac h key parts.flatten).toList), .mac h .reset .nothing]

/-- The seven operations of one block entered with chain value `a` (R90). -/
def blockCalls (c : Config) (h : Chain) (key seed : Bytes) (a : Digest h) : List Event :=
  macCalls c h key [a.toList, seed] ++ macCalls c h key [a.toList]

/-- The operations of one pass entered with chain value `a` (R90). -/
def passCalls (c : Config) (h : Chain) (key seed : Bytes) (a : Digest h) : List Event :=
  (List.range h.blocks).flatMap fun k => blockCalls c h key seed (advanced c h key a k)

/-- R56's fields of a response word. -/
def respStatus (w : Word) : Byte := w.extractLsb' 0 8
def respData (w : Word) : Byte := w.extractLsb' 8 8
def respDV (w : Word) : Bool := w.getLsbD 16
def respRDY (w : Word) : Bool := w.getLsbD 17
def respZero (w : Word) : BitVec 14 := w.extractLsb' 18 14

/-- The bytes a draw command hands to the host: the data byte of a NEXT_BYTE (DV = 1), the beats of a NEXT_BYTES. -/
def drawnBytes (ev : List Event) : Bytes :=
  ev.filterMap fun e => match e with
    | .dst _ b => some b
    | .response w => if respDV w then some (respData w) else none
    | _ => none

/-! ### The sequencer's state machine (R93) -/

/-- The phases after which a REFILL is over, and those that may invoke one, by R93's table: is `q` a successor of `p`? -/
def phaseRow : Phase → Phase → Bool
  | .idle, .check => true
  | .check, .respond => true
  | .check, .keyload => true
  | .check, .a1Md5 => true
  | .check, .draw => true
  | .keyload, .a1Md5 => true
  | .a1Md5, .a1Sha1 => true
  | .a1Sha1, .fillMd5Out k => k.val == 0
  | .draw, .fillMd5Out k => k.val == 0
  | .fillMd5Out k, .fillMd5Adv m => k.val == m.val
  | .fillMd5Adv k, .fillMd5Out m => k.val + 1 == m.val
  | .fillMd5Adv k, .fillSha1Out m => k.val == 4 && m.val == 0
  | .fillSha1Out k, .fillSha1Adv m => k.val == m.val
  | .fillSha1Adv k, .fillSha1Out m => k.val + 1 == m.val
  | .fillSha1Adv k, .respond => k.val == 3
  | .fillSha1Adv k, .draw => k.val == 3
  | .draw, .draw => true
  | .draw, .respond => true
  | .respond, .idle => true
  | _, _ => false

/-- Every neighbour in the list, started at `p`, is a row of R93. -/
def phasePath : Phase → List Phase → Bool
  | _, [] => true
  | p, q :: qs => phaseRow p q && phasePath q qs

/-- The phases of one REFILL in R93's order. -/
def refillPhases : List Phase :=
  (List.finRange 5).flatMap (fun k => [.fillMd5Out k, .fillMd5Adv k]) ++
    (List.finRange 4).flatMap (fun k => [.fillSha1Out k, .fillSha1Adv k])

/-! ### Frames -/

/-- Every register of R10 but `phase` is the same: "writes no register of 10_state.md" (R116), the phase being back in
IDLE at the end. -/
def SameRegisters (s t : State) : Prop :=
  t.init = s.init ∧ t.md5 = s.md5 ∧ t.sha1 = s.sha1 ∧ t.seed = s.seed ∧ t.aMd5 = s.aMd5 ∧ t.aSha1 = s.aSha1 ∧
    t.buf = s.buf ∧ t.idx = s.idx

/-- What stands at the ports and the reset input are the same: no instruction touches them. -/
def SamePorts (s t : State) : Prop :=
  t.resetIn = s.resetIn ∧ t.resets = s.resets ∧ t.cmdIn = s.cmdIn ∧ t.payIn = s.payIn ∧ t.macIn = s.macIn

/-- Every byte of DST reads as before. -/
def SameDst (s t : State) : Prop := ∀ a, Memory.read t.dst a = Memory.read s.dst a

/-- Every byte of DST outside `a .. a+n-1` reads as before. -/
def SameDstOutside (a n : Nat) (s t : State) : Prop :=
  ∀ x, x < a ∨ a + n ≤ x → Memory.read t.dst x = Memory.read s.dst x

/-- The state after a command that only answers: nothing but the record changes, and the phase is IDLE (R97, R116). -/
def answered (st : Status) (s : State) : State :=
  { s with
    phase := .idle
    trace := s.trace ++ [.phase .check, .phase .respond, .response (responseWord st none s.init), .phase .idle] }

/-- What the answer `code` of an INIT says of it (R107, R108, R109, R113): one conjunct for each error INIT can answer, and
the last that it answers no other. `ready` is `init` before the command. -/
def InitErrorCause (c : Config) (ready : Bool) (secret seed : Option Bytes) (code : Byte) : Prop :=
  (code = 0x02 → ready = false ∧ secret = none) ∧
    (code = 0x03 → ready = false ∧ seed = none ∧
      ∃ x, secret = some x ∧ (c.keyOk .md5 (firstHalf x) && c.keyOk .sha1 (lastHalf x)) = true) ∧
    (code = 0x04 → ∃ x, secret = some x ∧ (c.keyOk .md5 (firstHalf x) && c.keyOk .sha1 (lastHalf x)) = false) ∧
    (code = 0x08 → (∃ x, secret = some x ∧ x.length > c.maxSecretLen) ∨ ∃ d, seed = some d ∧ d.length > c.maxSeedLen) ∧
    (code = 0x00 ∨ code = 0x02 ∨ code = 0x03 ∨ code = 0x04 ∨ code = 0x08)

/-! ### Instructions -/

/-- The five host commands and the illegal command: what a packet carries (R47, R55). -/
def isHostCommand : Instr → Bool
  | .init _ _ => true
  | .nextByte => true
  | .nextBytes _ _ _ => true
  | .addRandomByte _ => true
  | .addRandomBytes _ => true
  | .illegal _ => true
  | .macInit _ _ => false
  | .macUpdate _ _ _ _ => false
  | .macDigest _ => false
  | .macReset _ => false
  | .macSize _ => false
  | .refill => false

/-- Two packets' words `w0 :: ops` and `w0' :: ops'` that differ at most in what R54 lists as ignored: reserved header bits,
flags foreign to the opcode, unused operand words, the upper bits of ADD_RANDOM_BYTE's word. -/
def SameUsedBits (w0 w0' : Word) (ops ops' : List Word) : Prop :=
  fieldOpc w0' = fieldOpc w0 ∧ ops.length = operandWords (fieldOpc w0) ∧ ops'.length = operandWords (fieldOpc w0) ∧
    (fieldOpc w0 = 0x01 → fieldHS w0' = fieldHS w0 ∧ fieldHD w0' = fieldHD w0 ∧
      (fieldHS w0 = true → ops'[0]? = ops[0]?) ∧ (fieldHD w0 = true → ops'[1]? = ops[1]?)) ∧
    (fieldOpc w0 = 0x03 → fieldDP w0' = fieldDP w0 ∧ (fieldDP w0 = true → ops'[0]? = ops[0]?) ∧
      ops'[1]? = ops[1]? ∧ ops'[2]? = ops[2]?) ∧
    (fieldOpc w0 = 0x04 → ops'[0]?.map (fun w => w.extractLsb' 0 8) = ops[0]?.map (fun w => w.extractLsb' 0 8)) ∧
    (fieldOpc w0 = 0x05 → ops' = ops)

/-- A NEXT_BYTE, or a NEXT_BYTES whose window check passes (R96); and how many bytes it draws. -/
def validDraw : Instr → Option Nat
  | .nextByte => some 1
  | .nextBytes (some cap) offset length => if windowBad cap offset length then none else some length.toNat
  | .nextBytes none _ _ => none
  | .init _ _ => none
  | .addRandomByte _ => none
  | .addRandomBytes _ => none
  | .macInit _ _ => none
  | .macUpdate _ _ _ _ => none
  | .macDigest _ => none
  | .macReset _ => none
  | .macSize _ => none
  | .refill => none
  | .illegal _ => none

/-- Run instructions one after another, stopping at the first stop. -/
def execAll : List Instr → State → Host.Outcome State Fault Refusal
  | [], s => .next s
  | i :: is, s =>
    match exec i s with
    | .next s' => execAll is s'
    | .fault f => .fault f
    | .refused r => .refused r

/-! ### Invariants -/

/-- Both adapters idle (R22). -/
def AdaptersIdle (s : State) : Prop := s.md5.pend = [] ∧ s.sha1.pend = []

/-- Both adapters idle and keyed, with the halves `k1` and `k2` (R22, R23). -/
def Keyed (k1 k2 : Bytes) (s : State) : Prop :=
  s.md5 = { key := some k1, pend := [] } ∧ s.sha1 = { key := some k2, pend := [] }

/-- `s` is Ready, keyed with `k1`, `k2`, and `pos` bytes of the stream have been drawn: R23's fill count `f`, with
`A_md5 = A_MD5(5f+1)`, `A_sha1 = A_SHA1(4f+1)`, stream bytes `80(f-1) .. 80f-1` in `buf`, and R27's
`pos = 80(f-1) + idx`. -/
def StreamAt (c : Config) (k1 k2 : Bytes) (pos : Nat) (s : State) : Prop :=
  s.init = true ∧ Keyed k1 k2 s ∧
    ∃ f, 1 ≤ f ∧ pos = 80 * (f - 1) + s.idx.val ∧
      s.aMd5.toList = chainA c .md5 k1 s.seed (5 * f + 1) ∧
      s.aSha1.toList = chainA c .sha1 k2 s.seed (4 * f + 1) ∧
      ∀ j : Fin 80, s.buf[j] = streamByte c k1 k2 s.seed (80 * (f - 1) + j.val)

/-- R22 and R23 between commands: IDLE, nothing at the MAC ports, both adapters idle, and in Ready a stream position with
two keys of one length. -/
def EngineInv (c : Config) (s : State) : Prop :=
  s.phase = .idle ∧ s.macIn = [] ∧ AdaptersIdle s ∧
    (s.init = true → ∃ k1 k2 pos, k1.length = k2.length ∧ StreamAt c k1 k2 pos s)

/-- The registers of variable length fit their widths (R10, R28), nothing standing at the MAC ports: two keys or none, of one
length, at most `ceil(MAX_SECRET_LEN/2)`; a seed of at most `MAX_SEED_LEN` bytes. The other widths are the types' own. -/
def RegistersFit (c : Config) (s : State) : Prop :=
  s.macIn = [] ∧ s.md5.key.map List.length = s.sha1.key.map List.length ∧
    (∀ k, s.md5.key = some k → k.length ≤ (c.maxSecretLen + 1) / 2) ∧ s.seed.length ≤ c.maxSeedLen

/-- What DST holds after the beats of a record, in order, on top of `m`. -/
def replayBeats : List (Nat × Byte) → Memory → Memory
  | [], m => m
  | (a, b) :: bs, m => replayBeats bs (Memory.write m a b)

/-- DST is canonical, every address fits the 32-bit write port (R59), and it holds exactly what the recorded beats have
put there (R42, R43). -/
def DstInv (s : State) : Prop :=
  Memory.wf s.dst ∧ (∀ cell ∈ s.dst, cell.1 < 2 ^ 32) ∧ s.dst = replayBeats (beatsOf s.trace) []

/-- Two engines that no host can tell apart (R24, R104): the same flag, adapters, phase and ports, and in Ready the same
registers; before the first INIT the unspecified registers may differ. -/
def Alike (s t : State) : Prop :=
  t.init = s.init ∧ t.md5 = s.md5 ∧ t.sha1 = s.sha1 ∧ t.phase = s.phase ∧
    t.resetIn = s.resetIn ∧ t.cmdIn = s.cmdIn ∧ t.payIn = s.payIn ∧ t.macIn = s.macIn ∧
    (s.init = true → t.seed = s.seed ∧ t.aMd5 = s.aMd5 ∧ t.aSha1 = s.aSha1 ∧ t.buf = s.buf ∧ t.idx = s.idx)

/-- A safe run, for claims about hosts: no step faults or refuses (R124: an error status is an ordinary outcome). -/
def SafeRun (n : Nat) (s : State) : Prop := ∃ t, Host.Core.run core n s = .next t

end Sys2Proof.Machine
end

