-- ==== Sys2Proof/Certificates/Slice0/Obligations.lean ====
section
/-! DEFINITION. The statements for the provers. Where one speaks of `trace`, that is the model's record of what happens at
the block's edges (log entry 12); where it says `c : Config`, it holds for every choice of the OPEN parameters of
00_scope.md R8, and `config` is the block's own. -/

open Sys2Proof Sys2Proof.Machine

/-! ### Encoding -/

/-- Decoding what the encoder writes gives the instruction back, with every operand at every value its field admits
(R47 to R52, R55, R58, R60). -/
def Obligations.DecodeOfEncodeIsIdentity : Prop :=
  ∀ i : Instr, i.wellFormed = true → ∃ w, encode i = some w ∧ decode w = .ok i

/-- A packet off the ports is taken whole and exactly: what stands behind it stays (R45, R57). -/
def Obligations.PacketIsSelfDelimiting : Prop :=
  ∀ (i : Instr) (p : Packet) (ws : List Word) (bs : Bytes), i.wellFormed = true → encodePacket i = some p →
    fetch (p.words ++ ws) (p.payload ++ bs) = .command i ws bs

/-- The same over a byte-serial transport, each word least significant byte first (R34 (f)). -/
def Obligations.ByteSerialPacketDecodes : Prop :=
  ∀ (i : Instr) (p : Packet) (bs : Bytes), i.wellFormed = true → encodePacket i = some p →
    decodeBytes (packetBytes p ++ bs) = .ok (i, bs)

/-- R54: reserved bits and unused operands are ignored: packets that differ in them only are the same command, and a step
that takes the one does exactly what a step that takes the other does. -/
def Obligations.ReservedBitsAreIgnored : Prop :=
  ∀ (s : State) (w0 w0' : Word) (ops ops' ws : List Word) (bs : Bytes), SameUsedBits w0 w0' ops ops' →
    fetch (w0 :: (ops ++ ws)) bs = fetch (w0' :: (ops' ++ ws)) bs ∧
      (s.resetIn = false → s.macIn = [] → s.phase = .idle → fetch (w0 :: (ops ++ ws)) bs ≠ .waiting →
        step { s with cmdIn := w0 :: (ops ++ ws), payIn := bs } = step { s with cmdIn := w0' :: (ops' ++ ws), payIn := bs })

/-- R45: "The block starts a command only when its whole packet has been received; a partly received packet changes no
state." -/
def Obligations.PartialPacketChangesNothing : Prop :=
  ∀ s : State, s.resetIn = false → s.macIn = [] → s.phase = .idle →
    (s.cmdIn = [] ∨ ∃ w0 ws, s.cmdIn = w0 :: ws ∧
      (ws.length < operandWords (fieldOpc w0) ∨
        s.payIn.length < payloadLength w0 (ws.take (operandWords (fieldOpc w0))))) →
    step s = .next s

/-- R55: an opcode outside 0x01 .. 0x05 is a packet of the header alone; it answers ERR_ILLEGAL_CMD and changes nothing. -/
def Obligations.IllegalOpcodeAnswersIllegalCommand : Prop :=
  ∀ (w0 : Word) (ws : List Word) (bs : Bytes), isCommandOpcode (fieldOpc w0) = false →
    fetch (w0 :: ws) bs = .command (.illegal (fieldOpc w0)) ws bs ∧
      ∀ s, ∃ t, exec (.illegal (fieldOpc w0)) s = .next t ∧ SameRegisters s t ∧ SamePorts s t ∧ t.dst = s.dst ∧
        t.phase = .idle ∧
        t.trace = s.trace ++ [.phase .check, .phase .respond, .response (responseWord .illegalCmd none s.init), .phase .idle]

/-- Words written out from the tables of 30_encoding.md and its section 8 decode to the commands they stand for. -/
def Obligations.WorkedEncodingsDecode : Prop :=
  fetch [0x00000301, 3, 2] [1, 2, 3, 0xaa, 0xbb] = .command (.init (some [1, 2, 3]) (some [0xaa, 0xbb])) [] [] ∧
    fetch [0x00000201, 0, 1] [0xcc] = .command (.init none (some [0xcc])) [] [] ∧
    fetch [0x00000002] [] = .command .nextByte [] [] ∧
    fetch [0x00000403, 0x64, 4, 0x60] [] = .command (.nextBytes (some 100) 4 96) [] [] ∧
    fetch [0x00000403, 8, 0xFFFFFFFF, 2] [] = .command (.nextBytes (some 8) (-1) 2) [] [] ∧
    fetch [0x00000003, 0, 0, 1] [] = .command (.nextBytes none 0 1) [] [] ∧
    fetch [0x00000004, 0x5A] [] = .command (.addRandomByte 0x5a) [] [] ∧
    fetch [0x00000005, 2] [1, 2] = .command (.addRandomBytes [1, 2]) [] [] ∧
    fetch [0x00000006] [] = .command (.illegal 0x06) [] []

/-- R58's codes on a MAC port, each with the bytes it carries; MOP 0, 6 and 7 are no operation. (That MOP 3, 4
and 5 are decoded with bytes `d` standing there, which are ignored, is the model's choice, log entry 15.) -/
def Obligations.MacPortCodesDecode : Prop :=
  ∀ (h : Chain) (d : Bytes),
    decodePort { chain := h, mop := 1, data := d } = .ok (.macInit h d) ∧
      decodePort { chain := h, mop := 2, data := d } = .ok (.macUpdate h d 0 d.length) ∧
      decodePort { chain := h, mop := 3, data := d } = .ok (.macDigest h) ∧
      decodePort { chain := h, mop := 4, data := d } = .ok (.macReset h) ∧
      decodePort { chain := h, mop := 5, data := d } = .ok (.macSize h) ∧
      ∀ m : BitVec 3, m = 0 ∨ m = 6 ∨ m = 7 → decodePort { chain := h, mop := m, data := d } = .error .reservedMop

/-! ### The step -/

/-- When a whole packet of the well-formed command `i` stands at the ports of an idle block, the step is `exec i` with
that packet taken off the ports (R38, R45). -/
def Obligations.StepRunsTheDecodedCommand : Prop :=
  ∀ (s : State) (i : Instr) (p : Packet) (ws : List Word) (bs : Bytes), i.wellFormed = true → encodePacket i = some p →
    s.resetIn = false → s.macIn = [] → s.phase = .idle → s.cmdIn = p.words ++ ws → s.payIn = p.payload ++ bs →
    step s = exec i { s with cmdIn := ws, payIn := bs }

/-- When the operation of the well-formed instruction `i` stands first at the MAC ports, the step is `exec i` with it taken
off (log entry 9). -/
def Obligations.StepRunsThePortOperation : Prop :=
  ∀ (s : State) (i : Instr) (op : PortOp) (rest : List PortOp), i.wellFormed = true → encodePort i = some op →
    s.resetIn = false → s.macIn = op :: rest → step s = exec i { s with macIn := rest }

/-- R125, R126: the reset input, in any phase: Uninitialized, IDLE, both adapters keyless and idle, no response; DST stays
as written. (That the ports are emptied, the input released and the record kept is the model's choice, log
entry 8.) -/
def Obligations.ResetInputResetsTheBlock : Prop :=
  ∀ s : State, s.resetIn = true → ∃ t, step s = .next t ∧ t.init = false ∧ t.phase = .idle ∧
    t.md5 = { key := none, pend := [] } ∧ t.sha1 = { key := none, pend := [] } ∧ t.resetIn = false ∧
    t.cmdIn = [] ∧ t.payIn = [] ∧ t.macIn = [] ∧ t.dst = s.dst ∧ t.trace = s.trace ++ [.reset]

/-- R24's table, the rows that give a value. -/
def Obligations.ResetStateIsUninitialized : Prop :=
  State.reset.init = false ∧ State.reset.phase = .idle ∧ State.reset.md5.key = none ∧ State.reset.sha1.key = none ∧
    State.reset.md5.pend = [] ∧ State.reset.sha1.pend = []

/-! ### Responses and errors -/

/-- R56, R39: every command is answered by exactly one response word, behind every DST beat, and its fields are R56's:
STATUS, DATA (zero unless DV), DV exactly for a NEXT_BYTE that answers OK, RDY = `init` after the command, zeros above. -/
def Obligations.EveryCommandIsAnsweredOnce : Prop :=
  ∀ (i : Instr) (s t : State), isHostCommand i = true → exec i s = .next t →
    ∃ ev w, ∃ st : Status, t.trace = s.trace ++ ev ++ [.response w, .phase .idle] ∧ responsesOf ev = [] ∧
      respStatus w = st.code ∧ (respDV w = true ↔ i = .nextByte ∧ st = .ok) ∧ (respDV w = false → respData w = 0) ∧
      respRDY w = t.init ∧ respZero w = 0 ∧ t.phase = .idle

/-- R116: a command that answers an error sends that one response with `RDY = init`, writes no register, makes no DST
write, issues no MAC-port operation, delivers no data, and leaves the sequencer in IDLE. -/
def Obligations.FailingCommandChangesNothing : Prop :=
  ∀ (i : Instr) (s t : State) (ev : List Event) (w : Word), isHostCommand i = true → exec i s = .next t →
    t.trace = s.trace ++ ev → w ∈ responsesOf ev → respStatus w ≠ 0 →
    responsesOf ev = [w] ∧ respDV w = false ∧ respData w = 0 ∧ respRDY w = s.init ∧ respZero w = 0 ∧
      SameRegisters s t ∧ SamePorts s t ∧ t.dst = s.dst ∧ t.phase = .idle ∧ beatsOf ev = [] ∧ macCallsOf ev = []

/-- R105's column "raised by", for every error: which command in which lifecycle state can answer it (R106 to R113). INIT
answers ERR_NO_SECRET, ERR_NO_SEED, ERR_INVALID_KEY and ERR_LENGTH, each for its cause (`InitErrorCause`), and it alone; that
is said of the block's INIT, and of INIT over every configuration. The entropy hooks answer no error. -/
def Obligations.ErrorsHaveTheirCause : Prop :=
  (∀ (i : Instr) (s t : State) (ev : List Event) (w : Word), isHostCommand i = true → exec i s = .next t →
    t.trace = s.trace ++ ev → w ∈ responsesOf ev →
    (respStatus w = 0x01 → s.init = false ∧ (i = .nextByte ∨ ∃ dest offset length, i = .nextBytes dest offset length)) ∧
      (respStatus w = 0x02 ∨ respStatus w = 0x03 ∨ respStatus w = 0x04 ∨ respStatus w = 0x08 →
        ∃ secret seed, i = .init secret seed ∧ InitErrorCause config s.init secret seed (respStatus w)) ∧
      (respStatus w = 0x05 → s.init = true ∧ ∃ offset length, i = .nextBytes none offset length) ∧
      (respStatus w = 0x06 → s.init = true ∧ ∃ cap offset length, i = .nextBytes (some cap) offset length ∧
        (offset < 0 ∨ length < 0 ∨ offset + length > cap)) ∧
      (respStatus w = 0x07 → ∃ opc, i = .illegal opc) ∧ (respStatus w).toNat ≤ 8) ∧
    ∀ (c : Config) (secret seed : Option Bytes) (s t : State) (ev : List Event) (w : Word),
      initWith c secret seed s = .ok t → t.trace = s.trace ++ ev → w ∈ responsesOf ev →
      InitErrorCause c s.init secret seed (respStatus w)

/-- R106: in Uninitialized both draw commands answer ERR_ILLEGAL_STATE, whatever their operands. -/
def Obligations.DrawsAreRejectedBeforeInit : Prop :=
  ∀ s : State, s.init = false →
    exec .nextByte s = .next (answered .illegalState s) ∧
      ∀ (dest : Option Nat) (offset length : Int), exec (.nextBytes dest offset length) s = .next (answered .illegalState s)

/-- R110, R111: in Ready a NEXT_BYTES without a destination answers ERR_NULL_DEST, and one whose window check fails, in
exact integers, answers ERR_BOUNDS. -/
def Obligations.InvalidWindowIsRejected : Prop :=
  ∀ (s : State) (offset length : Int), s.init = true →
    exec (.nextBytes none offset length) s = .next (answered .nullDest s) ∧
      ∀ cap : Nat, offset < 0 ∨ length < 0 ∨ offset + length > cap →
        exec (.nextBytes (some cap) offset length) s = .next (answered .bounds s)

/-- R107, R108, R109, R113 in the order of R115: the four errors of INIT, each with an unchanged state. -/
def Obligations.InitReportsTheFirstError : Prop :=
  ∀ (c : Config) (secret seed : Option Bytes) (s : State),
    ((∃ x, secret = some x ∧ x.length > c.maxSecretLen) ∨ (∃ d, seed = some d ∧ d.length > c.maxSeedLen) →
        initWith c secret seed s = .ok (answered .length s)) ∧
      ((∀ x, secret = some x → x.length ≤ c.maxSecretLen) → (∀ d, seed = some d → d.length ≤ c.maxSeedLen) →
        (∀ x, secret = some x → (c.keyOk .md5 (firstHalf x) && c.keyOk .sha1 (lastHalf x)) = false →
          initWith c secret seed s = .ok (answered .invalidKey s)) ∧
        (secret = none → s.init = false → initWith c secret seed s = .ok (answered .noSecret s)) ∧
        (∀ x, secret = some x → (c.keyOk .md5 (firstHalf x) && c.keyOk .sha1 (lastHalf x)) = true → seed = none →
          s.init = false → initWith c secret seed s = .ok (answered .noSeed s))) ∧
      exec (.init secret seed) s = outcomeOf (initWith config secret seed s)

/-- R26, R106 to R113: which status a command answers, and where its DST beats go, depend on the command and on `init`
alone: nothing secret shows but drawn bytes. -/
def Obligations.StatusRevealsOnlyTheLifecycle : Prop :=
  ∀ (i : Instr) (s s' t t' : State) (ev ev' : List Event), isHostCommand i = true → s'.init = s.init →
    exec i s = .next t → exec i s' = .next t' → t.trace = s.trace ++ ev → t'.trace = s'.trace ++ ev' →
    (responsesOf ev').map respStatus = (responsesOf ev).map respStatus ∧
      (i ≠ .nextByte → responsesOf ev' = responsesOf ev) ∧
      (beatsOf ev').map Prod.fst = (beatsOf ev).map Prod.fst ∧ t'.init = t.init

/-- R93: the phases a command writes run through the rows of R93's table, from IDLE to IDLE. -/
def Obligations.PhasesFollowTheStateMachine : Prop :=
  ∀ (i : Instr) (s t : State) (ev : List Event), isHostCommand i = true → exec i s = .next t → t.trace = s.trace ++ ev →
    phasePath .idle (phasesOf ev) = true ∧ (phasesOf ev).getLast? = some .idle

/-! ### MAC-port operations -/

/-- R66: MAC_INIT of a key the core accepts sets the key and clears the pending bytes; of a key it refuses it answers
`InvalidKeyError` and leaves the adapter unchanged. For every configuration, the block's own among them. -/
def Obligations.MacInitLoadsOrRefusesTheKey : Prop :=
  ∀ (c : Config) (h : Chain) (key : Bytes) (s : State),
    (c.keyOk h key = true → (macInit c h key s).adapter h = { key := some key, pend := [] } ∧
      (macInit c h key s).trace = s.trace ++ [.mac h (.init key) .accepted]) ∧
    (c.keyOk h key = false → (macInit c h key s).adapter h = s.adapter h ∧
      (macInit c h key s).trace = s.trace ++ [.mac h (.init key) .invalidKey]) ∧
    exec (.macInit h key) s = .next (macInit config h key s)

/-- R67: on a keyed adapter MAC_UPDATE appends `bytes[offset .. offset+length)`, or answers a bounds error and leaves the
adapter unchanged; without a key it is the fault of 93_implementation_defined.md U4 (whatever the range:
log entry 10, DEDUCED). -/
def Obligations.MacUpdateAppendsTheRange : Prop :=
  ∀ (h : Chain) (bytes : Bytes) (offset length : Int) (s : State),
    (∀ k, (s.adapter h).key = some k → ∃ t, exec (.macUpdate h bytes offset length) s = .next t ∧
      (if offset < 0 ∨ length < 0 ∨ offset + length > bytes.length then
          t.adapter h = s.adapter h ∧ t.trace = s.trace ++ [.mac h (.update bytes offset length) .boundsError]
        else
          (t.adapter h).key = some k ∧
            (t.adapter h).pend = (s.adapter h).pend ++ (bytes.drop offset.toNat).take length.toNat ∧
            t.trace = s.trace ++ [.mac h (.update bytes offset length) .nothing])) ∧
    ((s.adapter h).key = none → exec (.macUpdate h bytes offset length) s = .fault .macWithoutKey)

/-- R68: MAC_DIGEST of a keyed adapter answers `HMAC_h(key, pend)` and changes neither; without a key it is the fault that
gives it no meaning. -/
def Obligations.MacDigestAnswersTheMac : Prop :=
  ∀ (h : Chain) (s : State),
    (∀ k, (s.adapter h).key = some k → ∃ t, exec (.macDigest h) s = .next t ∧ t.adapter h = s.adapter h ∧
      t.trace = s.trace ++ [.mac h .digest (.digest (config.hmac h k (s.adapter h).pend).toList)]) ∧
    ((s.adapter h).key = none → exec (.macDigest h) s = .fault .macWithoutKey)

/-- R69: on a keyed adapter MAC_RESET clears the pending bytes and keeps the key; without a key it is the fault of
93_implementation_defined.md U4. -/
def Obligations.MacResetClearsPending : Prop :=
  ∀ (h : Chain) (s : State),
    (∀ k, (s.adapter h).key = some k → ∃ t, exec (.macReset h) s = .next t ∧ (t.adapter h).key = some k ∧
      (t.adapter h).pend = [] ∧ t.trace = s.trace ++ [.mac h .reset .nothing]) ∧
    ((s.adapter h).key = none → exec (.macReset h) s = .fault .macWithoutKey)

/-- R70: MAC_SIZE answers 16 on the MD5 port and 20 on the SHA-1 port and touches no state. -/
def Obligations.MacSizeAnswersTheLength : Prop :=
  ∀ s : State,
    exec (.macSize .md5) s = .next { s with trace := s.trace ++ [.mac .md5 .size (.size 16)] } ∧
      exec (.macSize .sha1) s = .next { s with trace := s.trace ++ [.mac .sha1 .size (.size 20)] }

/-- R65 and the frame of the five operations: nothing changes but the adapter of the port (and the record). -/
def Obligations.MacPortsShareNoState : Prop :=
  ∀ (h g : Chain) (i : Instr) (s t : State), g ≠ h →
    ((∃ key, i = .macInit h key) ∨ (∃ b o l, i = .macUpdate h b o l) ∨ i = .macDigest h ∨ i = .macReset h ∨ i = .macSize h) →
    exec i s = .next t →
    t.adapter g = s.adapter g ∧ t.init = s.init ∧ t.seed = s.seed ∧ t.aMd5 = s.aMd5 ∧ t.aSha1 = s.aSha1 ∧ t.buf = s.buf ∧
      t.idx = s.idx ∧ t.phase = s.phase ∧ SamePorts s t ∧ SameDst s t

/-- R72: the composite on an idle keyed adapter is `HMAC_h(key, m1 ++ ... ++ mr)`, whatever way the message is cut into
parts, and leaves the adapter idle with the same key. -/
def Obligations.CompositeMacIsHmacOfTheParts : Prop :=
  ∀ (c : Config) (h : Chain) (parts : List Bytes) (s : State) (k : Bytes),
    s.adapter h = { key := some k, pend := [] } →
    ∃ t, mac c h parts s = .ok (c.hmac h k parts.flatten, t) ∧ t.adapter h = s.adapter h ∧ SameRegisters s t ∧
      t.trace = s.trace ++ macCalls c h k parts

/-! ### REFILL -/

/-- R85 to R88, R94: REFILL leaves `buf[j] = M[j] ^ S[j]` for all 80 bytes, whatever `buf` held, advances the MD5 chain by
five and the SHA-1 chain by four, sets `idx` to 0, and changes nothing else. (That REFILL as a term of its own ends in the
phase it began in is log entry 9, DEDUCED from R93's "back to the phase that invoked REFILL".) -/
def Obligations.RefillFillsTheBuffer : Prop :=
  ∀ (k1 k2 : Bytes) (s : State), Keyed k1 k2 s → ∃ t, exec .refill s = .next t ∧
    (∀ j : Fin 80, t.buf[j] =
      passByte config .md5 k1 s.seed s.aMd5 j.val ^^^ passByte config .sha1 k2 s.seed s.aSha1 j.val) ∧
    t.aMd5 = advanced config .md5 k1 s.aMd5 5 ∧ t.aSha1 = advanced config .sha1 k2 s.aSha1 4 ∧ t.idx = 0 ∧
    t.init = s.init ∧ t.md5 = s.md5 ∧ t.sha1 = s.sha1 ∧ t.seed = s.seed ∧ t.phase = s.phase ∧ SamePorts s t ∧ SameDst s t

/-- R90: the 63 operations of a REFILL on the MAC ports, in order, 18 of them MAC_DIGEST, all of the MD5 port before the
first of the SHA-1 port. R93: its phases. (That the last phase, of REFILL as a term of its own, is the one it began in is
log entry 9, DEDUCED from R93.) -/
def Obligations.RefillIssuesTheTraceOfR90 : Prop :=
  ∀ (k1 k2 : Bytes) (s t : State) (ev : List Event), Keyed k1 k2 s → exec .refill s = .next t → t.trace = s.trace ++ ev →
    macCallsOf ev = passCalls config .md5 k1 s.seed s.aMd5 ++ passCalls config .sha1 k2 s.seed s.aSha1 ∧
      (macCallsOf ev).length = 63 ∧ digestsOf ev = 18 ∧ phasesOf ev = refillPhases ++ [s.phase] ∧
      responsesOf ev = [] ∧ beatsOf ev = []

/-! ### INIT -/

/-- R77: the split of the secret: two halves of length `ceil(n/2)`; of an even secret they join to it, of an odd one they
share exactly the middle byte. -/
def Obligations.SecretSplitsIntoHalves : Prop :=
  ∀ s : Bytes, (firstHalf s).length = (s.length + 1) / 2 ∧ (lastHalf s).length = (s.length + 1) / 2 ∧
    firstHalf s <+: s ∧ lastHalf s <:+ s ∧
    (∀ k, s.length = 2 * k → firstHalf s ++ lastHalf s = s) ∧
    (∀ k, s.length = 2 * k + 1 →
      (firstHalf s)[k]? = s[k]? ∧ (lastHalf s)[0]? = s[k]? ∧ firstHalf s ++ (lastHalf s).drop 1 = s)

/-- R75, R78 to R81, R91: an INIT whose checks pass completes: the keys in force are the halves of the supplied secret or
the old ones, the seed is the supplied or the old one, the block is Ready at the first byte of that stream with a full
buffer, it answers OK, and nothing else changes. For every configuration, the block's own among them. -/
def Obligations.InitStartsTheStream : Prop :=
  ∀ (c : Config) (secret seed : Option Bytes) (s : State) (k1 k2 : Bytes),
    (∀ x, secret = some x → x.length ≤ c.maxSecretLen ∧ c.keyOk .md5 (firstHalf x) = true ∧
      c.keyOk .sha1 (lastHalf x) = true ∧ k1 = firstHalf x ∧ k2 = lastHalf x) →
    (∀ d, seed = some d → d.length ≤ c.maxSeedLen) →
    (secret = none → s.init = true ∧ Keyed k1 k2 s) → (seed = none → s.init = true) →
    ∃ t ev, initWith c secret seed s = .ok t ∧ (c = config → exec (.init secret seed) s = .next t) ∧
      StreamAt c k1 k2 0 t ∧ t.seed = seed.getD s.seed ∧ t.idx = 0 ∧ t.phase = .idle ∧ SamePorts s t ∧ t.dst = s.dst ∧
      t.trace = s.trace ++ ev ∧ responsesOf ev = [responseWord .ok none true]

/-- R84: the MAC-port operations of a successful INIT, in order: 71 with a secret and 69 without, 20 of them MAC_DIGEST. -/
def Obligations.InitIssuesTheTraceOfR84 : Prop :=
  ∀ (c : Config) (secret seed : Option Bytes) (s t : State) (k1 k2 : Bytes) (ev : List Event),
    initStatus c s.init secret seed = .ok →
    (∀ x, secret = some x → k1 = firstHalf x ∧ k2 = lastHalf x) → (secret = none → Keyed k1 k2 s) →
    initWith c secret seed s = .ok t → t.trace = s.trace ++ ev →
    macCallsOf ev =
        (if secret.isSome then [.mac .md5 (.init k1) .accepted, .mac .sha1 (.init k2) .accepted] else []) ++
          macCalls c .md5 k1 [t.seed] ++ macCalls c .sha1 k2 [t.seed] ++
          passCalls c .md5 k1 t.seed (c.hmac .md5 k1 t.seed) ++ passCalls c .sha1 k2 t.seed (c.hmac .sha1 k2 t.seed) ∧
      (macCallsOf ev).length = (if secret.isSome then 71 else 69) ∧ digestsOf ev = 20

/-- R83: a successful INIT leaves the registers a freshly reset engine would have after INIT with the keys and the seed
now in force: RESEED, REKEY and RESTART are full initialisations. -/
def Obligations.ReinitEqualsFreshInit : Prop :=
  ∀ (c : Config) (n : Nat) (x : Bytes) (secret seed : Option Bytes) (s : State), s.init = true →
    (secret = some x ∨ (secret = none ∧ Keyed (firstHalf x) (lastHalf x) s)) →
    c.keyOk .md5 (firstHalf x) = true → c.keyOk .sha1 (lastHalf x) = true →
    x.length ≤ c.maxSecretLen → (seed.getD s.seed).length ≤ c.maxSeedLen →
    ∃ t t', initWith c secret seed s = .ok t ∧
      initWith c (some x) (some (seed.getD s.seed)) (State.afterReset c n) = .ok t' ∧ SameRegisters t t'

/-! ### Draws -/

/-- R95: NEXT_BYTE in Ready with an unread byte in the buffer: it answers `buf[idx]` and moves the cursor, nothing else. -/
def Obligations.NextByteReadsTheBuffer : Prop :=
  ∀ (s : State) (r : s.idx.val < 80), s.init = true →
    exec .nextByte s = .next
      { s with
        idx := ⟨s.idx.val + 1, by omega⟩
        phase := .idle
        trace := s.trace ++ [.phase .check, .phase .draw, .phase .respond,
          .response (responseWord .ok (some s.buf[s.idx.val]) true), .phase .idle] }

/-- R95: NEXT_BYTE in Ready with an exhausted buffer: it refills, answers the new `buf[0]` and leaves `idx = 1`. -/
def Obligations.NextByteRefillsFirst : Prop :=
  ∀ (k1 k2 : Bytes) (s : State), s.init = true → Keyed k1 k2 s → s.idx = 80 → ∃ t ev, exec .nextByte s = .next t ∧
    (∀ j : Fin 80, t.buf[j] =
      passByte config .md5 k1 s.seed s.aMd5 j.val ^^^ passByte config .sha1 k2 s.seed s.aSha1 j.val) ∧
    t.aMd5 = advanced config .md5 k1 s.aMd5 5 ∧ t.aSha1 = advanced config .sha1 k2 s.aSha1 4 ∧ t.idx = 1 ∧
    t.init = true ∧ t.md5 = s.md5 ∧ t.sha1 = s.sha1 ∧ t.seed = s.seed ∧ t.phase = .idle ∧ SamePorts s t ∧ SameDst s t ∧
    t.trace = s.trace ++ ev ∧ responsesOf ev = [responseWord .ok (some t.buf[0]) true] ∧ digestsOf ev = 18

/-- R96, R42, R43, R92: a valid NEXT_BYTES writes the next `length` bytes of the stream to `offset ..`, ascending, one beat
each, and no other byte of DST; it answers OK. -/
def Obligations.NextBytesDeliversTheStream : Prop :=
  ∀ (k1 k2 : Bytes) (pos cap : Nat) (offset length : Int) (s : State), StreamAt config k1 k2 pos s → Memory.wf s.dst →
    0 ≤ offset → 0 ≤ length → offset + length ≤ cap →
    ∃ t ev, exec (.nextBytes (some cap) offset length) s = .next t ∧ StreamAt config k1 k2 (pos + length.toNat) t ∧
      t.trace = s.trace ++ ev ∧ responsesOf ev = [responseWord .ok none true] ∧
      beatsOf ev =
        (List.range length.toNat).map (fun j => (offset.toNat + j, streamByte config k1 k2 s.seed (pos + j))) ∧
      (∀ j < length.toNat, Memory.read t.dst (offset.toNat + j) = some (streamByte config k1 k2 s.seed (pos + j))) ∧
      SameDstOutside offset.toNat length.toNat s t ∧ t.seed = s.seed ∧ t.phase = .idle ∧ SamePorts s t

/-- R31, R42, R59: whatever NEXT_BYTES the encoding can carry, the beats it makes go to `offset, offset+1, ...`, each once,
inside the window, at addresses of 32 bits; every other command makes none. -/
def Obligations.BeatsStayInsideTheWindow : Prop :=
  ∀ (i : Instr) (s t : State) (ev : List Event), i.wellFormed = true → exec i s = .next t → t.trace = s.trace ++ ev →
    (∀ dest offset length, i = .nextBytes dest offset length →
      beatsOf ev = [] ∨ ∃ cap, dest = some cap ∧ 0 ≤ offset ∧ offset + length ≤ cap ∧
        (beatsOf ev).map Prod.fst = List.range' offset.toNat length.toNat ∧
        ∀ b ∈ beatsOf ev, b.1 < cap ∧ b.1 < 2 ^ 32) ∧
    ((∀ dest offset length, i ≠ .nextBytes dest offset length) → beatsOf ev = [] ∧ t.dst = s.dst)

/-- R102: a valid NEXT_BYTES of length 0 only answers OK: no DST write, no REFILL even at `idx = 80`, no state change; its
checks still apply. -/
def Obligations.ZeroLengthDrawChangesNothing : Prop :=
  ∀ (s : State) (cap : Nat) (offset : Int),
    (s.init = true → 0 ≤ offset → offset ≤ cap →
      exec (.nextBytes (some cap) offset 0) s = .next
        { s with
          phase := .idle
          trace := s.trace ++ [.phase .check, .phase .draw, .phase .respond, .response (responseWord .ok none true),
            .phase .idle] }) ∧
    (s.init = false → exec (.nextBytes (some cap) offset 0) s = .next (answered .illegalState s)) ∧
    (s.init = true → exec (.nextBytes none offset 0) s = .next (answered .nullDest s)) ∧
    (s.init = true → offset < 0 ∨ offset > cap → exec (.nextBytes (some cap) offset 0) s = .next (answered .bounds s))

/-- R99: from one state, a valid NEXT_BYTES of length `n` and `n` NEXT_BYTE deliver the same bytes and end with the same
registers. -/
def Obligations.BatchingIsEquivalent : Prop :=
  ∀ (k1 k2 : Bytes) (s : State) (cap : Nat) (offset length : Int), s.init = true → Keyed k1 k2 s →
    0 ≤ offset → 0 ≤ length → offset + length ≤ cap →
    ∃ t u ev ev', exec (.nextBytes (some cap) offset length) s = .next t ∧
      execAll (List.replicate length.toNat .nextByte) s = .next u ∧
      t.trace = s.trace ++ ev ∧ u.trace = s.trace ++ ev' ∧
      drawnBytes ev = drawnBytes ev' ∧ (drawnBytes ev).length = length.toNat ∧ SameRegisters t u

/-- R100: a draw of `n ≥ 1` bytes from `idx = i0` runs REFILL `r = ceil((i0 + n)/80) - 1` times and ends with
`idx = i0 + n - 80 r`, in 1..80; a draw of none runs none and leaves `idx`. For one NEXT_BYTES and for `n` NEXT_BYTE. -/
def Obligations.RefillCountOfADraw : Prop :=
  ∀ (k1 k2 : Bytes) (s t : State) (ev : List Event) (cap n : Nat) (offset : Int), s.init = true → Keyed k1 k2 s →
    0 ≤ offset → offset + n ≤ cap →
    (exec (.nextBytes (some cap) offset n) s = .next t ∨ execAll (List.replicate n .nextByte) s = .next t) →
    t.trace = s.trace ++ ev →
    (1 ≤ n → (phasesOf ev).count (.fillMd5Out 0) = (s.idx.val + n + 79) / 80 - 1 ∧
        digestsOf ev = 18 * ((s.idx.val + n + 79) / 80 - 1) ∧
        t.idx.val = s.idx.val + n - 80 * ((s.idx.val + n + 79) / 80 - 1) ∧ 1 ≤ t.idx.val) ∧
      (n = 0 → digestsOf ev = 0 ∧ t.idx = s.idx)

/-- R101: one NEXT_BYTES of `m + n` bytes, and one of `m` then one of `n` behind it, deliver the same bytes to the same
places and end with the same registers. (That the two draws write one DST, at the same addresses, is the model's choice, log
entry 11.) -/
def Obligations.SplitDrawIsContinuous : Prop :=
  ∀ (k1 k2 : Bytes) (s : State) (cap m n : Nat) (offset : Int), s.init = true → Keyed k1 k2 s →
    0 ≤ offset → offset + (m + n : Nat) ≤ cap →
    ∃ t u, exec (.nextBytes (some cap) offset (m + n : Nat)) s = .next t ∧
      execAll [.nextBytes (some cap) offset m, .nextBytes (some cap) (offset + m) n] s = .next u ∧
      SameRegisters t u ∧ t.dst = u.dst

/-- R92: the stream in closed form. Drawn from stream position `pos` by any list of valid draw commands, the bytes are
`P_MD5[k] ^ P_SHA1[k]` for `k = pos, pos+1, ...`, and the stream stands behind them. (With `InitStartsTheStream`, whose
position is 0, this is "the `k`-th byte drawn after a successful INIT".) -/
def Obligations.AnyDrawsDeliverThePrf : Prop :=
  ∀ (k1 k2 : Bytes) (pos : Nat) (is : List Instr) (s : State), StreamAt config k1 k2 pos s →
    (∀ i ∈ is, validDraw i ≠ none) →
    ∃ t ev n, execAll is s = .next t ∧ t.trace = s.trace ++ ev ∧ n = (is.filterMap validDraw).sum ∧
      drawnBytes ev = (List.range n).map (fun j => streamByte config k1 k2 s.seed (pos + j)) ∧
      StreamAt config k1 k2 (pos + n) t

/-- The frame of the draw commands: keys, seed and `init` stay, the chains and the buffer change only where the draw runs
past the end of the buffer, no port changes, and DST changes only at the addresses `offset ..` a NEXT_BYTES names. -/
def Obligations.DrawsTouchOnlyTheStream : Prop :=
  ∀ (i : Instr) (s t : State), exec i s = .next t → Memory.wf s.dst →
    (i = .nextByte ∨ ∃ dest offset length, i = .nextBytes dest offset length) →
    t.init = s.init ∧ t.md5.key = s.md5.key ∧ t.sha1.key = s.sha1.key ∧ t.seed = s.seed ∧ SamePorts s t ∧ t.phase = .idle ∧
      (AdaptersIdle s → AdaptersIdle t) ∧
      (∀ n, validDraw i = some n → s.idx.val + n ≤ 80 → t.aMd5 = s.aMd5 ∧ t.aSha1 = s.aSha1 ∧ t.buf = s.buf) ∧
      (i = .nextByte → SameDst s t) ∧
      (∀ dest offset length, i = .nextBytes dest offset length → SameDstOutside offset.toNat length.toNat s t)

/-- R97, R98: the entropy hooks answer OK in both lifecycle states, whatever bytes they carry, and change nothing. -/
def Obligations.EntropyHooksAreNoOps : Prop :=
  ∀ (b : Byte) (bs : Bytes) (s : State),
    exec (.addRandomByte b) s = .next (answered .ok s) ∧ exec (.addRandomBytes bs) s = .next (answered .ok s)

/-! ### Whole-machine rules -/

/-- R16, R120: no command takes the block out of Ready, and no step but one that runs an INIT with a secret and a seed
takes it out of Uninitialized. -/
def Obligations.OnlyInitMakesReady : Prop :=
  ∀ s t : State, step s = .next t → s.resetIn = false →
    (s.init = true → t.init = true) ∧
      (s.init = false → (∀ x d ws bs, fetch s.cmdIn s.payIn ≠ .command (.init (some x) (some d)) ws bs) → t.init = false)

/-- R11, R12: a host command writes the keys only as an INIT that supplies a secret, with its halves, and the seed only as
an INIT that supplies a seed. -/
def Obligations.OnlyInitWritesKeysAndSeed : Prop :=
  ∀ (i : Instr) (s t : State), isHostCommand i = true → exec i s = .next t →
    (t.md5.key = s.md5.key ∧ t.sha1.key = s.sha1.key ∨
      ∃ x seed, i = .init (some x) seed ∧ t.md5.key = some (firstHalf x) ∧ t.sha1.key = some (lastHalf x)) ∧
    (t.seed = s.seed ∨ ∃ secret d, i = .init secret (some d) ∧ t.seed = d)

/-- The engine invariant and the DST invariant hold at `State.reset`. Of the first, IDLE, idle adapters and Uninitialized are
R22 and R24; that nothing stands at the MAC ports is the model's choice, log entry 9. The second rests on the model's choices
alone: DST lists nothing (log entry 11) and the record is empty (log entry 12). -/
def Obligations.EngineInvariantHoldsAtReset : Prop := EngineInv config State.reset ∧ DstInv State.reset

/-- R22, R23, R91: between commands the adapters are idle, and in Ready there are two keys of one length, a fill count `f`
with `A_MD5(5f+1)`, `A_SHA1(4f+1)`, and stream bytes `80(f-1) .. 80f-1` in the buffer. Every step keeps it. -/
def Obligations.StepKeepsTheEngineInvariant : Prop :=
  ∀ s t : State, EngineInv config s → step s = .next t → EngineInv config t

/-- DST stays canonical, within 32-bit addresses, and holds exactly what the recorded beats have put there (R42, R43, R59;
that it persists between commands is log entry 11). Every step keeps it. -/
def Obligations.StepKeepsTheDstInvariant : Prop :=
  ∀ s t : State, DstInv s → step s = .next t → DstInv t

/-- R124, R136: from the invariant no run of any length faults or refuses: no command stops the block. (That a step which
waits for a packet, leaving the state as it is, counts as a step is the model's choice, log entry 1.) -/
def Obligations.EveryRunGoesOn : Prop :=
  ∀ (n : Nat) (s : State), EngineInv config s → SafeRun n s

/-- R24, R104: what reset leaves in the unspecified registers never shows: two engines alike but for it step alike and make
the same events, for ever. -/
def Obligations.ResetLeftoversNeverShow : Prop :=
  ∀ s s' t : State, Alike s s' → step s = .next t →
    ∃ t' ev, step s' = .next t' ∧ Alike t t' ∧ t.trace = s.trace ++ ev ∧ t'.trace = s'.trace ++ ev

/-- R10, R28: at reset the registers of variable length fit their widths: no key, and of `seed`, whose value R24 leaves
unspecified, at most MAX_SEED_LEN bytes (log entry 5). That nothing stands at the MAC ports is log entry 9. -/
def Obligations.RegisterWidthsHoldAtReset : Prop := RegistersFit config State.reset

/-- R10, R28: `S1` and `S2` stay of one length, at most `ceil(MAX_SECRET_LEN/2)`, and `seed` at most MAX_SEED_LEN bytes.
Every step with nothing at the MAC ports keeps it, a reset among them. (A MAC_INIT that stands at a port from outside the
five commands, log entry 9, could load a key of any length.) -/
def Obligations.StepKeepsTheRegisterWidths : Prop :=
  ∀ s t : State, RegistersFit config s → step s = .next t → RegistersFit config t

/-- R105: the number of every status, as the STATUS field of a response word carries it, whatever DATA and RDY are. -/
def Obligations.StatusNumbersAreThoseOfR105 : Prop :=
  ∀ (data : Option Byte) (rdy : Bool),
    respStatus (responseWord .ok data rdy) = 0x00 ∧ respStatus (responseWord .illegalState data rdy) = 0x01 ∧
      respStatus (responseWord .noSecret data rdy) = 0x02 ∧ respStatus (responseWord .noSeed data rdy) = 0x03 ∧
      respStatus (responseWord .invalidKey data rdy) = 0x04 ∧ respStatus (responseWord .nullDest data rdy) = 0x05 ∧
      respStatus (responseWord .bounds data rdy) = 0x06 ∧ respStatus (responseWord .illegalCmd data rdy) = 0x07 ∧
      respStatus (responseWord .length data rdy) = 0x08
end

