-- ==== Sys2Proof/Laws/State.lean ====
section
/-! SUPPORT. One lemma per field and update of State. -/

namespace Sys2Proof.Machine

@[simp] theorem State.adapter_md5 (s : State) : s.adapter .md5 = s.md5 := rfl
@[simp] theorem State.adapter_sha1 (s : State) : s.adapter .sha1 = s.sha1 := rfl
@[simp] theorem State.chainValue_md5 (s : State) : s.chainValue .md5 = s.aMd5 := rfl
@[simp] theorem State.chainValue_sha1 (s : State) : s.chainValue .sha1 = s.aSha1 := rfl

/-! ### State.log -/
@[simp] theorem State.log_init (s : State) (e : Event) : (s.log e).init = s.init := rfl
@[simp] theorem State.log_md5 (s : State) (e : Event) : (s.log e).md5 = s.md5 := rfl
@[simp] theorem State.log_sha1 (s : State) (e : Event) : (s.log e).sha1 = s.sha1 := rfl
@[simp] theorem State.log_seed (s : State) (e : Event) : (s.log e).seed = s.seed := rfl
@[simp] theorem State.log_aMd5 (s : State) (e : Event) : (s.log e).aMd5 = s.aMd5 := rfl
@[simp] theorem State.log_aSha1 (s : State) (e : Event) : (s.log e).aSha1 = s.aSha1 := rfl
@[simp] theorem State.log_buf (s : State) (e : Event) : (s.log e).buf = s.buf := rfl
@[simp] theorem State.log_idx (s : State) (e : Event) : (s.log e).idx = s.idx := rfl
@[simp] theorem State.log_phase (s : State) (e : Event) : (s.log e).phase = s.phase := rfl
@[simp] theorem State.log_resetIn (s : State) (e : Event) : (s.log e).resetIn = s.resetIn := rfl
@[simp] theorem State.log_resets (s : State) (e : Event) : (s.log e).resets = s.resets := rfl
@[simp] theorem State.log_cmdIn (s : State) (e : Event) : (s.log e).cmdIn = s.cmdIn := rfl
@[simp] theorem State.log_payIn (s : State) (e : Event) : (s.log e).payIn = s.payIn := rfl
@[simp] theorem State.log_macIn (s : State) (e : Event) : (s.log e).macIn = s.macIn := rfl
@[simp] theorem State.log_dst (s : State) (e : Event) : (s.log e).dst = s.dst := rfl
@[simp] theorem State.log_trace (s : State) (e : Event) : (s.log e).trace = s.trace ++ [e] := rfl
@[simp] theorem State.log_adapter (s : State) (e : Event) (h : Chain) : (s.log e).adapter h = s.adapter h := by cases h <;> rfl
@[simp] theorem State.log_chainValue (s : State) (e : Event) (h : Chain) : (s.log e).chainValue h = s.chainValue h := by cases h <;> rfl

/-! ### State.setPhase -/
@[simp] theorem State.setPhase_init (s : State) (p : Phase) : (s.setPhase p).init = s.init := rfl
@[simp] theorem State.setPhase_md5 (s : State) (p : Phase) : (s.setPhase p).md5 = s.md5 := rfl
@[simp] theorem State.setPhase_sha1 (s : State) (p : Phase) : (s.setPhase p).sha1 = s.sha1 := rfl
@[simp] theorem State.setPhase_seed (s : State) (p : Phase) : (s.setPhase p).seed = s.seed := rfl
@[simp] theorem State.setPhase_aMd5 (s : State) (p : Phase) : (s.setPhase p).aMd5 = s.aMd5 := rfl
@[simp] theorem State.setPhase_aSha1 (s : State) (p : Phase) : (s.setPhase p).aSha1 = s.aSha1 := rfl
@[simp] theorem State.setPhase_buf (s : State) (p : Phase) : (s.setPhase p).buf = s.buf := rfl
@[simp] theorem State.setPhase_idx (s : State) (p : Phase) : (s.setPhase p).idx = s.idx := rfl
@[simp] theorem State.setPhase_phase (s : State) (p : Phase) : (s.setPhase p).phase = p := rfl
@[simp] theorem State.setPhase_resetIn (s : State) (p : Phase) : (s.setPhase p).resetIn = s.resetIn := rfl
@[simp] theorem State.setPhase_resets (s : State) (p : Phase) : (s.setPhase p).resets = s.resets := rfl
@[simp] theorem State.setPhase_cmdIn (s : State) (p : Phase) : (s.setPhase p).cmdIn = s.cmdIn := rfl
@[simp] theorem State.setPhase_payIn (s : State) (p : Phase) : (s.setPhase p).payIn = s.payIn := rfl
@[simp] theorem State.setPhase_macIn (s : State) (p : Phase) : (s.setPhase p).macIn = s.macIn := rfl
@[simp] theorem State.setPhase_dst (s : State) (p : Phase) : (s.setPhase p).dst = s.dst := rfl
@[simp] theorem State.setPhase_trace (s : State) (p : Phase) : (s.setPhase p).trace = s.trace ++ [.phase p] := rfl
@[simp] theorem State.setPhase_adapter (s : State) (p : Phase) (h : Chain) : (s.setPhase p).adapter h = s.adapter h := by cases h <;> rfl
@[simp] theorem State.setPhase_chainValue (s : State) (p : Phase) (h : Chain) : (s.setPhase p).chainValue h = s.chainValue h := by cases h <;> rfl

/-! ### State.setInit -/
@[simp] theorem State.setInit_init (s : State) (b : Bool) : (s.setInit b).init = b := rfl
@[simp] theorem State.setInit_md5 (s : State) (b : Bool) : (s.setInit b).md5 = s.md5 := rfl
@[simp] theorem State.setInit_sha1 (s : State) (b : Bool) : (s.setInit b).sha1 = s.sha1 := rfl
@[simp] theorem State.setInit_seed (s : State) (b : Bool) : (s.setInit b).seed = s.seed := rfl
@[simp] theorem State.setInit_aMd5 (s : State) (b : Bool) : (s.setInit b).aMd5 = s.aMd5 := rfl
@[simp] theorem State.setInit_aSha1 (s : State) (b : Bool) : (s.setInit b).aSha1 = s.aSha1 := rfl
@[simp] theorem State.setInit_buf (s : State) (b : Bool) : (s.setInit b).buf = s.buf := rfl
@[simp] theorem State.setInit_idx (s : State) (b : Bool) : (s.setInit b).idx = s.idx := rfl
@[simp] theorem State.setInit_phase (s : State) (b : Bool) : (s.setInit b).phase = s.phase := rfl
@[simp] theorem State.setInit_resetIn (s : State) (b : Bool) : (s.setInit b).resetIn = s.resetIn := rfl
@[simp] theorem State.setInit_resets (s : State) (b : Bool) : (s.setInit b).resets = s.resets := rfl
@[simp] theorem State.setInit_cmdIn (s : State) (b : Bool) : (s.setInit b).cmdIn = s.cmdIn := rfl
@[simp] theorem State.setInit_payIn (s : State) (b : Bool) : (s.setInit b).payIn = s.payIn := rfl
@[simp] theorem State.setInit_macIn (s : State) (b : Bool) : (s.setInit b).macIn = s.macIn := rfl
@[simp] theorem State.setInit_dst (s : State) (b : Bool) : (s.setInit b).dst = s.dst := rfl
@[simp] theorem State.setInit_trace (s : State) (b : Bool) : (s.setInit b).trace = s.trace := rfl
@[simp] theorem State.setInit_adapter (s : State) (b : Bool) (h : Chain) : (s.setInit b).adapter h = s.adapter h := by cases h <;> rfl
@[simp] theorem State.setInit_chainValue (s : State) (b : Bool) (h : Chain) : (s.setInit b).chainValue h = s.chainValue h := by cases h <;> rfl

/-! ### State.setSeed -/
@[simp] theorem State.setSeed_init (s : State) (d : Bytes) : (s.setSeed d).init = s.init := rfl
@[simp] theorem State.setSeed_md5 (s : State) (d : Bytes) : (s.setSeed d).md5 = s.md5 := rfl
@[simp] theorem State.setSeed_sha1 (s : State) (d : Bytes) : (s.setSeed d).sha1 = s.sha1 := rfl
@[simp] theorem State.setSeed_seed (s : State) (d : Bytes) : (s.setSeed d).seed = d := rfl
@[simp] theorem State.setSeed_aMd5 (s : State) (d : Bytes) : (s.setSeed d).aMd5 = s.aMd5 := rfl
@[simp] theorem State.setSeed_aSha1 (s : State) (d : Bytes) : (s.setSeed d).aSha1 = s.aSha1 := rfl
@[simp] theorem State.setSeed_buf (s : State) (d : Bytes) : (s.setSeed d).buf = s.buf := rfl
@[simp] theorem State.setSeed_idx (s : State) (d : Bytes) : (s.setSeed d).idx = s.idx := rfl
@[simp] theorem State.setSeed_phase (s : State) (d : Bytes) : (s.setSeed d).phase = s.phase := rfl
@[simp] theorem State.setSeed_resetIn (s : State) (d : Bytes) : (s.setSeed d).resetIn = s.resetIn := rfl
@[simp] theorem State.setSeed_resets (s : State) (d : Bytes) : (s.setSeed d).resets = s.resets := rfl
@[simp] theorem State.setSeed_cmdIn (s : State) (d : Bytes) : (s.setSeed d).cmdIn = s.cmdIn := rfl
@[simp] theorem State.setSeed_payIn (s : State) (d : Bytes) : (s.setSeed d).payIn = s.payIn := rfl
@[simp] theorem State.setSeed_macIn (s : State) (d : Bytes) : (s.setSeed d).macIn = s.macIn := rfl
@[simp] theorem State.setSeed_dst (s : State) (d : Bytes) : (s.setSeed d).dst = s.dst := rfl
@[simp] theorem State.setSeed_trace (s : State) (d : Bytes) : (s.setSeed d).trace = s.trace := rfl
@[simp] theorem State.setSeed_adapter (s : State) (d : Bytes) (h : Chain) : (s.setSeed d).adapter h = s.adapter h := by cases h <;> rfl
@[simp] theorem State.setSeed_chainValue (s : State) (d : Bytes) (h : Chain) : (s.setSeed d).chainValue h = s.chainValue h := by cases h <;> rfl

/-! ### State.setIdx -/
@[simp] theorem State.setIdx_init (s : State) (i : Fin 81) : (s.setIdx i).init = s.init := rfl
@[simp] theorem State.setIdx_md5 (s : State) (i : Fin 81) : (s.setIdx i).md5 = s.md5 := rfl
@[simp] theorem State.setIdx_sha1 (s : State) (i : Fin 81) : (s.setIdx i).sha1 = s.sha1 := rfl
@[simp] theorem State.setIdx_seed (s : State) (i : Fin 81) : (s.setIdx i).seed = s.seed := rfl
@[simp] theorem State.setIdx_aMd5 (s : State) (i : Fin 81) : (s.setIdx i).aMd5 = s.aMd5 := rfl
@[simp] theorem State.setIdx_aSha1 (s : State) (i : Fin 81) : (s.setIdx i).aSha1 = s.aSha1 := rfl
@[simp] theorem State.setIdx_buf (s : State) (i : Fin 81) : (s.setIdx i).buf = s.buf := rfl
@[simp] theorem State.setIdx_idx (s : State) (i : Fin 81) : (s.setIdx i).idx = i := rfl
@[simp] theorem State.setIdx_phase (s : State) (i : Fin 81) : (s.setIdx i).phase = s.phase := rfl
@[simp] theorem State.setIdx_resetIn (s : State) (i : Fin 81) : (s.setIdx i).resetIn = s.resetIn := rfl
@[simp] theorem State.setIdx_resets (s : State) (i : Fin 81) : (s.setIdx i).resets = s.resets := rfl
@[simp] theorem State.setIdx_cmdIn (s : State) (i : Fin 81) : (s.setIdx i).cmdIn = s.cmdIn := rfl
@[simp] theorem State.setIdx_payIn (s : State) (i : Fin 81) : (s.setIdx i).payIn = s.payIn := rfl
@[simp] theorem State.setIdx_macIn (s : State) (i : Fin 81) : (s.setIdx i).macIn = s.macIn := rfl
@[simp] theorem State.setIdx_dst (s : State) (i : Fin 81) : (s.setIdx i).dst = s.dst := rfl
@[simp] theorem State.setIdx_trace (s : State) (i : Fin 81) : (s.setIdx i).trace = s.trace := rfl
@[simp] theorem State.setIdx_adapter (s : State) (i : Fin 81) (h : Chain) : (s.setIdx i).adapter h = s.adapter h := by cases h <;> rfl
@[simp] theorem State.setIdx_chainValue (s : State) (i : Fin 81) (h : Chain) : (s.setIdx i).chainValue h = s.chainValue h := by cases h <;> rfl

/-! ### State.setBuf -/
@[simp] theorem State.setBuf_init (s : State) (b : Vector Byte 80) : (s.setBuf b).init = s.init := rfl
@[simp] theorem State.setBuf_md5 (s : State) (b : Vector Byte 80) : (s.setBuf b).md5 = s.md5 := rfl
@[simp] theorem State.setBuf_sha1 (s : State) (b : Vector Byte 80) : (s.setBuf b).sha1 = s.sha1 := rfl
@[simp] theorem State.setBuf_seed (s : State) (b : Vector Byte 80) : (s.setBuf b).seed = s.seed := rfl
@[simp] theorem State.setBuf_aMd5 (s : State) (b : Vector Byte 80) : (s.setBuf b).aMd5 = s.aMd5 := rfl
@[simp] theorem State.setBuf_aSha1 (s : State) (b : Vector Byte 80) : (s.setBuf b).aSha1 = s.aSha1 := rfl
@[simp] theorem State.setBuf_buf (s : State) (b : Vector Byte 80) : (s.setBuf b).buf = b := rfl
@[simp] theorem State.setBuf_idx (s : State) (b : Vector Byte 80) : (s.setBuf b).idx = s.idx := rfl
@[simp] theorem State.setBuf_phase (s : State) (b : Vector Byte 80) : (s.setBuf b).phase = s.phase := rfl
@[simp] theorem State.setBuf_resetIn (s : State) (b : Vector Byte 80) : (s.setBuf b).resetIn = s.resetIn := rfl
@[simp] theorem State.setBuf_resets (s : State) (b : Vector Byte 80) : (s.setBuf b).resets = s.resets := rfl
@[simp] theorem State.setBuf_cmdIn (s : State) (b : Vector Byte 80) : (s.setBuf b).cmdIn = s.cmdIn := rfl
@[simp] theorem State.setBuf_payIn (s : State) (b : Vector Byte 80) : (s.setBuf b).payIn = s.payIn := rfl
@[simp] theorem State.setBuf_macIn (s : State) (b : Vector Byte 80) : (s.setBuf b).macIn = s.macIn := rfl
@[simp] theorem State.setBuf_dst (s : State) (b : Vector Byte 80) : (s.setBuf b).dst = s.dst := rfl
@[simp] theorem State.setBuf_trace (s : State) (b : Vector Byte 80) : (s.setBuf b).trace = s.trace := rfl
@[simp] theorem State.setBuf_adapter (s : State) (b : Vector Byte 80) (h : Chain) : (s.setBuf b).adapter h = s.adapter h := by cases h <;> rfl
@[simp] theorem State.setBuf_chainValue (s : State) (b : Vector Byte 80) (h : Chain) : (s.setBuf b).chainValue h = s.chainValue h := by cases h <;> rfl

/-! ### State.writeDst -/
@[simp] theorem State.writeDst_init (s : State) (a : Nat) (b : Byte) : (s.writeDst a b).init = s.init := rfl
@[simp] theorem State.writeDst_md5 (s : State) (a : Nat) (b : Byte) : (s.writeDst a b).md5 = s.md5 := rfl
@[simp] theorem State.writeDst_sha1 (s : State) (a : Nat) (b : Byte) : (s.writeDst a b).sha1 = s.sha1 := rfl
@[simp] theorem State.writeDst_seed (s : State) (a : Nat) (b : Byte) : (s.writeDst a b).seed = s.seed := rfl
@[simp] theorem State.writeDst_aMd5 (s : State) (a : Nat) (b : Byte) : (s.writeDst a b).aMd5 = s.aMd5 := rfl
@[simp] theorem State.writeDst_aSha1 (s : State) (a : Nat) (b : Byte) : (s.writeDst a b).aSha1 = s.aSha1 := rfl
@[simp] theorem State.writeDst_buf (s : State) (a : Nat) (b : Byte) : (s.writeDst a b).buf = s.buf := rfl
@[simp] theorem State.writeDst_idx (s : State) (a : Nat) (b : Byte) : (s.writeDst a b).idx = s.idx := rfl
@[simp] theorem State.writeDst_phase (s : State) (a : Nat) (b : Byte) : (s.writeDst a b).phase = s.phase := rfl
@[simp] theorem State.writeDst_resetIn (s : State) (a : Nat) (b : Byte) : (s.writeDst a b).resetIn = s.resetIn := rfl
@[simp] theorem State.writeDst_resets (s : State) (a : Nat) (b : Byte) : (s.writeDst a b).resets = s.resets := rfl
@[simp] theorem State.writeDst_cmdIn (s : State) (a : Nat) (b : Byte) : (s.writeDst a b).cmdIn = s.cmdIn := rfl
@[simp] theorem State.writeDst_payIn (s : State) (a : Nat) (b : Byte) : (s.writeDst a b).payIn = s.payIn := rfl
@[simp] theorem State.writeDst_macIn (s : State) (a : Nat) (b : Byte) : (s.writeDst a b).macIn = s.macIn := rfl
@[simp] theorem State.writeDst_dst (s : State) (a : Nat) (b : Byte) : (s.writeDst a b).dst = Memory.write s.dst a b := rfl
@[simp] theorem State.writeDst_trace (s : State) (a : Nat) (b : Byte) : (s.writeDst a b).trace = s.trace ++ [.dst a b] := rfl
@[simp] theorem State.writeDst_adapter (s : State) (a : Nat) (b : Byte) (h : Chain) : (s.writeDst a b).adapter h = s.adapter h := by cases h <;> rfl
@[simp] theorem State.writeDst_chainValue (s : State) (a : Nat) (b : Byte) (h : Chain) : (s.writeDst a b).chainValue h = s.chainValue h := by cases h <;> rfl

/-! ### State.finish -/
@[simp] theorem State.finish_init (s : State) (st : Status) (d : Option Byte) : (s.finish st d).init = s.init := rfl
@[simp] theorem State.finish_md5 (s : State) (st : Status) (d : Option Byte) : (s.finish st d).md5 = s.md5 := rfl
@[simp] theorem State.finish_sha1 (s : State) (st : Status) (d : Option Byte) : (s.finish st d).sha1 = s.sha1 := rfl
@[simp] theorem State.finish_seed (s : State) (st : Status) (d : Option Byte) : (s.finish st d).seed = s.seed := rfl
@[simp] theorem State.finish_aMd5 (s : State) (st : Status) (d : Option Byte) : (s.finish st d).aMd5 = s.aMd5 := rfl
@[simp] theorem State.finish_aSha1 (s : State) (st : Status) (d : Option Byte) : (s.finish st d).aSha1 = s.aSha1 := rfl
@[simp] theorem State.finish_buf (s : State) (st : Status) (d : Option Byte) : (s.finish st d).buf = s.buf := rfl
@[simp] theorem State.finish_idx (s : State) (st : Status) (d : Option Byte) : (s.finish st d).idx = s.idx := rfl
@[simp] theorem State.finish_phase (s : State) (st : Status) (d : Option Byte) : (s.finish st d).phase = .idle := rfl
@[simp] theorem State.finish_resetIn (s : State) (st : Status) (d : Option Byte) : (s.finish st d).resetIn = s.resetIn := rfl
@[simp] theorem State.finish_resets (s : State) (st : Status) (d : Option Byte) : (s.finish st d).resets = s.resets := rfl
@[simp] theorem State.finish_cmdIn (s : State) (st : Status) (d : Option Byte) : (s.finish st d).cmdIn = s.cmdIn := rfl
@[simp] theorem State.finish_payIn (s : State) (st : Status) (d : Option Byte) : (s.finish st d).payIn = s.payIn := rfl
@[simp] theorem State.finish_macIn (s : State) (st : Status) (d : Option Byte) : (s.finish st d).macIn = s.macIn := rfl
@[simp] theorem State.finish_dst (s : State) (st : Status) (d : Option Byte) : (s.finish st d).dst = s.dst := rfl
@[simp] theorem State.finish_trace (s : State) (st : Status) (d : Option Byte) : (s.finish st d).trace = s.trace ++ [.phase .respond, .response (responseWord st d s.init), .phase .idle] := by simp [State.finish, State.finish, State.setPhase, State.log]
@[simp] theorem State.finish_adapter (s : State) (st : Status) (d : Option Byte) (h : Chain) : (s.finish st d).adapter h = s.adapter h := by cases h <;> rfl
@[simp] theorem State.finish_chainValue (s : State) (st : Status) (d : Option Byte) (h : Chain) : (s.finish st d).chainValue h = s.chainValue h := by cases h <;> rfl

/-! ### State.raiseError -/
@[simp] theorem State.raiseError_init (s : State) (st : Status) : (s.raiseError st).init = s.init := rfl
@[simp] theorem State.raiseError_md5 (s : State) (st : Status) : (s.raiseError st).md5 = s.md5 := rfl
@[simp] theorem State.raiseError_sha1 (s : State) (st : Status) : (s.raiseError st).sha1 = s.sha1 := rfl
@[simp] theorem State.raiseError_seed (s : State) (st : Status) : (s.raiseError st).seed = s.seed := rfl
@[simp] theorem State.raiseError_aMd5 (s : State) (st : Status) : (s.raiseError st).aMd5 = s.aMd5 := rfl
@[simp] theorem State.raiseError_aSha1 (s : State) (st : Status) : (s.raiseError st).aSha1 = s.aSha1 := rfl
@[simp] theorem State.raiseError_buf (s : State) (st : Status) : (s.raiseError st).buf = s.buf := rfl
@[simp] theorem State.raiseError_idx (s : State) (st : Status) : (s.raiseError st).idx = s.idx := rfl
@[simp] theorem State.raiseError_phase (s : State) (st : Status) : (s.raiseError st).phase = .idle := rfl
@[simp] theorem State.raiseError_resetIn (s : State) (st : Status) : (s.raiseError st).resetIn = s.resetIn := rfl
@[simp] theorem State.raiseError_resets (s : State) (st : Status) : (s.raiseError st).resets = s.resets := rfl
@[simp] theorem State.raiseError_cmdIn (s : State) (st : Status) : (s.raiseError st).cmdIn = s.cmdIn := rfl
@[simp] theorem State.raiseError_payIn (s : State) (st : Status) : (s.raiseError st).payIn = s.payIn := rfl
@[simp] theorem State.raiseError_macIn (s : State) (st : Status) : (s.raiseError st).macIn = s.macIn := rfl
@[simp] theorem State.raiseError_dst (s : State) (st : Status) : (s.raiseError st).dst = s.dst := rfl
@[simp] theorem State.raiseError_trace (s : State) (st : Status) : (s.raiseError st).trace = s.trace ++ [.phase .respond, .response (responseWord st none s.init), .phase .idle] := by simp [State.raiseError, State.finish, State.setPhase, State.log]
@[simp] theorem State.raiseError_adapter (s : State) (st : Status) (h : Chain) : (s.raiseError st).adapter h = s.adapter h := by cases h <;> rfl
@[simp] theorem State.raiseError_chainValue (s : State) (st : Status) (h : Chain) : (s.raiseError st).chainValue h = s.chainValue h := by cases h <;> rfl

/-! ### State.setAdapter -/
@[simp] theorem State.setAdapter_init (s : State) (h : Chain) (a : Adapter) : (s.setAdapter h a).init = s.init := by cases h <;> rfl
@[simp] theorem State.setAdapter_seed (s : State) (h : Chain) (a : Adapter) : (s.setAdapter h a).seed = s.seed := by cases h <;> rfl
@[simp] theorem State.setAdapter_aMd5 (s : State) (h : Chain) (a : Adapter) : (s.setAdapter h a).aMd5 = s.aMd5 := by cases h <;> rfl
@[simp] theorem State.setAdapter_aSha1 (s : State) (h : Chain) (a : Adapter) : (s.setAdapter h a).aSha1 = s.aSha1 := by cases h <;> rfl
@[simp] theorem State.setAdapter_buf (s : State) (h : Chain) (a : Adapter) : (s.setAdapter h a).buf = s.buf := by cases h <;> rfl
@[simp] theorem State.setAdapter_idx (s : State) (h : Chain) (a : Adapter) : (s.setAdapter h a).idx = s.idx := by cases h <;> rfl
@[simp] theorem State.setAdapter_phase (s : State) (h : Chain) (a : Adapter) : (s.setAdapter h a).phase = s.phase := by cases h <;> rfl
@[simp] theorem State.setAdapter_resetIn (s : State) (h : Chain) (a : Adapter) : (s.setAdapter h a).resetIn = s.resetIn := by cases h <;> rfl
@[simp] theorem State.setAdapter_resets (s : State) (h : Chain) (a : Adapter) : (s.setAdapter h a).resets = s.resets := by cases h <;> rfl
@[simp] theorem State.setAdapter_cmdIn (s : State) (h : Chain) (a : Adapter) : (s.setAdapter h a).cmdIn = s.cmdIn := by cases h <;> rfl
@[simp] theorem State.setAdapter_payIn (s : State) (h : Chain) (a : Adapter) : (s.setAdapter h a).payIn = s.payIn := by cases h <;> rfl
@[simp] theorem State.setAdapter_macIn (s : State) (h : Chain) (a : Adapter) : (s.setAdapter h a).macIn = s.macIn := by cases h <;> rfl
@[simp] theorem State.setAdapter_dst (s : State) (h : Chain) (a : Adapter) : (s.setAdapter h a).dst = s.dst := by cases h <;> rfl
@[simp] theorem State.setAdapter_trace (s : State) (h : Chain) (a : Adapter) : (s.setAdapter h a).trace = s.trace := by cases h <;> rfl
@[simp] theorem State.setAdapter_md5_md5 (s : State) (a : Adapter) : (s.setAdapter .md5 a).md5 = a := rfl
@[simp] theorem State.setAdapter_md5_sha1 (s : State) (a : Adapter) : (s.setAdapter .md5 a).sha1 = s.sha1 := rfl
@[simp] theorem State.setAdapter_sha1_md5 (s : State) (a : Adapter) : (s.setAdapter .sha1 a).md5 = s.md5 := rfl
@[simp] theorem State.setAdapter_sha1_sha1 (s : State) (a : Adapter) : (s.setAdapter .sha1 a).sha1 = a := rfl
@[simp] theorem State.setAdapter_adapter (s : State) (h : Chain) (a : Adapter) : (s.setAdapter h a).adapter h = a := by cases h <;> rfl
theorem State.setAdapter_adapter_ne (s : State) (h g : Chain) (a : Adapter) (n : g ≠ h) : (s.setAdapter h a).adapter g = s.adapter g := by
  cases h <;> cases g <;> first | rfl | exact absurd rfl n
@[simp] theorem State.setAdapter_chainValue (s : State) (h g : Chain) (a : Adapter) : (s.setAdapter h a).chainValue g = s.chainValue g := by cases h <;> cases g <;> rfl
@[simp] theorem State.setAdapter_self (s : State) (h : Chain) : s.setAdapter h (s.adapter h) = s := by cases h <;> rfl
@[simp] theorem State.setAdapter_setAdapter (s : State) (h : Chain) (a b : Adapter) : (s.setAdapter h a).setAdapter h b = s.setAdapter h b := by cases h <;> rfl

/-! ### State.setChainValue -/
@[simp] theorem State.setChainValue_init (s : State) (h : Chain) (d : Digest h) : (s.setChainValue h d).init = s.init := by cases h <;> rfl
@[simp] theorem State.setChainValue_md5 (s : State) (h : Chain) (d : Digest h) : (s.setChainValue h d).md5 = s.md5 := by cases h <;> rfl
@[simp] theorem State.setChainValue_sha1 (s : State) (h : Chain) (d : Digest h) : (s.setChainValue h d).sha1 = s.sha1 := by cases h <;> rfl
@[simp] theorem State.setChainValue_seed (s : State) (h : Chain) (d : Digest h) : (s.setChainValue h d).seed = s.seed := by cases h <;> rfl
@[simp] theorem State.setChainValue_buf (s : State) (h : Chain) (d : Digest h) : (s.setChainValue h d).buf = s.buf := by cases h <;> rfl
@[simp] theorem State.setChainValue_idx (s : State) (h : Chain) (d : Digest h) : (s.setChainValue h d).idx = s.idx := by cases h <;> rfl
@[simp] theorem State.setChainValue_phase (s : State) (h : Chain) (d : Digest h) : (s.setChainValue h d).phase = s.phase := by cases h <;> rfl
@[simp] theorem State.setChainValue_resetIn (s : State) (h : Chain) (d : Digest h) : (s.setChainValue h d).resetIn = s.resetIn := by cases h <;> rfl
@[simp] theorem State.setChainValue_resets (s : State) (h : Chain) (d : Digest h) : (s.setChainValue h d).resets = s.resets := by cases h <;> rfl
@[simp] theorem State.setChainValue_cmdIn (s : State) (h : Chain) (d : Digest h) : (s.setChainValue h d).cmdIn = s.cmdIn := by cases h <;> rfl
@[simp] theorem State.setChainValue_payIn (s : State) (h : Chain) (d : Digest h) : (s.setChainValue h d).payIn = s.payIn := by cases h <;> rfl
@[simp] theorem State.setChainValue_macIn (s : State) (h : Chain) (d : Digest h) : (s.setChainValue h d).macIn = s.macIn := by cases h <;> rfl
@[simp] theorem State.setChainValue_dst (s : State) (h : Chain) (d : Digest h) : (s.setChainValue h d).dst = s.dst := by cases h <;> rfl
@[simp] theorem State.setChainValue_trace (s : State) (h : Chain) (d : Digest h) : (s.setChainValue h d).trace = s.trace := by cases h <;> rfl
@[simp] theorem State.setChainValue_md5_aMd5 (s : State) (d : Digest .md5) : (s.setChainValue .md5 d).aMd5 = d := rfl
@[simp] theorem State.setChainValue_md5_aSha1 (s : State) (d : Digest .md5) : (s.setChainValue .md5 d).aSha1 = s.aSha1 := rfl
@[simp] theorem State.setChainValue_sha1_aMd5 (s : State) (d : Digest .sha1) : (s.setChainValue .sha1 d).aMd5 = s.aMd5 := rfl
@[simp] theorem State.setChainValue_sha1_aSha1 (s : State) (d : Digest .sha1) : (s.setChainValue .sha1 d).aSha1 = d := rfl
@[simp] theorem State.setChainValue_chainValue (s : State) (h : Chain) (d : Digest h) : (s.setChainValue h d).chainValue h = d := by cases h <;> rfl
theorem State.setChainValue_chainValue_ne (s : State) (h g : Chain) (d : Digest h) (n : g ≠ h) : (s.setChainValue h d).chainValue g = s.chainValue g := by
  cases h <;> cases g <;> first | rfl | exact absurd rfl n
@[simp] theorem State.setChainValue_adapter (s : State) (h g : Chain) (d : Digest h) : (s.setChainValue h d).adapter g = s.adapter g := by cases h <;> cases g <;> rfl

end Sys2Proof.Machine
end

