-- ==== Sys2Proof/Laws/Mac.lean ====
section
/-! SUPPORT. What the operations of the MAC adapter and the composite `Mac` can do, once. -/

namespace Sys2Proof.Machine

/-- The whole range passes MAC_UPDATE's check and selects every byte (R67). -/
theorem rangeBad_whole (m : Bytes) : rangeBad 0 m.length m.length = false := by simp [rangeBad]

theorem selectedBytes_whole (m : Bytes) : selectedBytes m 0 m.length = m := by simp [selectedBytes]

/-! ### The key (R67 to R69, U4) -/

theorem needKey_keyed {h : Chain} {s : State} {k : Bytes} (hk : (s.adapter h).key = some k) : needKey h s = .ok k := by
  rw [needKey, hk]

theorem needKey_keyless {h : Chain} {s : State} (hk : (s.adapter h).key = none) :
    needKey h s = .error .macWithoutKey := by
  rw [needKey, hk]

/-- With a key MAC_UPDATE, MAC_DIGEST and MAC_RESET have their effect. -/
theorem macUpdate_keyed {h : Chain} {s : State} {k : Bytes} (hk : (s.adapter h).key = some k) (m : Bytes) (o l : Int) :
    macUpdate h m o l s = .ok (appendRange h m o l s) := by rw [macUpdate, needKey_keyed hk]; rfl

theorem macDigest_keyed {h : Chain} {s : State} {k : Bytes} (hk : (s.adapter h).key = some k) (c : Config) :
    macDigest c h s = .ok (c.hmac h k (s.adapter h).pend,
      s.log (.mac h .digest (.digest (c.hmac h k (s.adapter h).pend).toList))) := by rw [macDigest, needKey_keyed hk]; rfl

theorem macReset_keyed {h : Chain} {s : State} {k : Bytes} (hk : (s.adapter h).key = some k) :
    macReset h s = .ok (clearPending h s) := by rw [macReset, needKey_keyed hk]; rfl

/-- Without one each is the fault of U4. -/
theorem macUpdate_keyless {h : Chain} {s : State} (hk : (s.adapter h).key = none) (m : Bytes) (o l : Int) :
    macUpdate h m o l s = .error .macWithoutKey := by rw [macUpdate, needKey_keyless hk]; rfl

theorem macDigest_keyless {h : Chain} {s : State} (hk : (s.adapter h).key = none) (c : Config) :
    macDigest c h s = .error .macWithoutKey := by rw [macDigest, needKey_keyless hk]; rfl

theorem macReset_keyless {h : Chain} {s : State} (hk : (s.adapter h).key = none) :
    macReset h s = .error .macWithoutKey := by rw [macReset, needKey_keyless hk]; rfl

/-- What an operation that needs a key did: the adapter has one, and the operation had its effect. -/
theorem needKey_map_inv {α : Type} {h : Chain} {s : State} {f : Bytes → α} {x : α} (e : (needKey h s).map f = .ok x) :
    ∃ k, (s.adapter h).key = some k ∧ x = f k := by
  cases hk : (s.adapter h).key with
  | none => rw [needKey_keyless hk] at e; exact absurd e (by simp [Except.map])
  | some k => rw [needKey_keyed hk] at e; exact ⟨k, rfl, (Except.ok.inj e).symm⟩

/-- What MAC_DIGEST as an instruction did: nothing but its event (R68). -/
theorem macDigest_inv {c : Config} {h : Chain} {s t : State} (e : (macDigest c h s).map Prod.snd = .ok t) :
    ∃ k, (s.adapter h).key = some k ∧
      t = s.log (.mac h .digest (.digest (c.hmac h k (s.adapter h).pend).toList)) := by
  cases hk : (s.adapter h).key with
  | none => rw [macDigest_keyless hk] at e; exact absurd e (by simp [Except.map])
  | some k => rw [macDigest_keyed hk] at e; exact ⟨k, rfl, (Except.ok.inj e).symm⟩

/-! ### The composite (R72) -/

/-- Appending the whole of `m` (R67). -/
theorem appendRange_whole (h : Chain) (m : Bytes) (s : State) :
    appendRange h m 0 m.length s =
      (s.setAdapter h { s.adapter h with pend := (s.adapter h).pend ++ m }).log (.mac h (.update m 0 m.length) .nothing) := by
  simp [appendRange, rangeBad_whole, selectedBytes_whole]

/-- The updates of a composite: the parts are appended in order, one event each (R72). -/
theorem macUpdates_keyed (h : Chain) (parts : List Bytes) (s : State) (k : Bytes) (hk : (s.adapter h).key = some k) :
    macUpdates h parts s = .ok
      { s.setAdapter h { s.adapter h with pend := (s.adapter h).pend ++ parts.flatten } with
        trace := s.trace ++ parts.map fun m => Event.mac h (.update m 0 m.length) .nothing } := by
  induction parts generalizing s with
  | nil => cases h <;> simp [macUpdates, State.setAdapter, State.adapter]
  | cons m ms ih =>
    rw [macUpdates, macUpdate_keyed hk, appendRange_whole]
    simp only
    rw [ih _ (by simpa using hk)]
    cases h <;> simp [State.setAdapter, State.adapter, State.log]

/-- `Mac(h, parts)` with a key: the result is `HMAC_h(k, pend ++ parts)`, the adapter is left idle with the same key, the
record grows by the composite's operations, and nothing else changes (R72). -/
theorem mac_keyed (c : Config) (h : Chain) (parts : List Bytes) (s : State) (k p : Bytes)
    (hk : s.adapter h = { key := some k, pend := p }) :
    mac c h parts s = .ok (c.hmac h k (p ++ parts.flatten),
      { s.setAdapter h { key := some k, pend := [] } with
        trace := s.trace ++ ((parts.map fun m => Event.mac h (.update m 0 m.length) .nothing) ++
          [.mac h .digest (.digest (c.hmac h k (p ++ parts.flatten)).toList), .mac h .reset .nothing]) }) := by
  have hk' : (s.adapter h).key = some k := by rw [hk]
  rw [mac, macUpdates_keyed h parts s k hk']
  simp only
  rw [macDigest_keyed (k := k) (by cases h <;> simpa [State.setAdapter, State.adapter] using hk')]
  simp only
  rw [macReset_keyed (k := k) (by cases h <;> simpa [State.setAdapter, State.adapter, State.log] using hk')]
  cases h <;> simp_all [Except.map, clearPending, State.setAdapter, State.adapter, State.log]

/-- `Mac(h, parts)` on an idle keyed adapter: `HMAC_h(k, parts)`, and only the record changes (R72). -/
theorem mac_idle (c : Config) (h : Chain) (parts : List Bytes) (s : State) (k : Bytes)
    (hk : s.adapter h = { key := some k, pend := [] }) :
    mac c h parts s = .ok (c.hmac h k parts.flatten, { s with trace := s.trace ++ macCalls c h k parts }) := by
  rw [mac_keyed c h parts s k [] hk, ← hk, State.setAdapter_self]
  rfl

/-- `Mac` on a keyless adapter is the fault of U4, at its first operation. -/
theorem mac_keyless (c : Config) (h : Chain) (parts : List Bytes) (s : State) (hk : (s.adapter h).key = none) :
    mac c h parts s = .error .macWithoutKey := by
  cases parts with
  | nil => rw [mac, macUpdates]; simp only; rw [macDigest_keyless hk]
  | cons m ms => rw [mac, macUpdates, macUpdate_keyless hk]

end Sys2Proof.Machine
end

