-- ==== Sys2Proof/Laws/Record.lean ====
section
/-! SUPPORT. The projections of a record of events over appending. -/

namespace Sys2Proof.Machine

@[simp] theorem responsesOf_append (x y : List Event) : responsesOf (x ++ y) = responsesOf x ++ responsesOf y := by
  simp [responsesOf]
@[simp] theorem beatsOf_append (x y : List Event) : beatsOf (x ++ y) = beatsOf x ++ beatsOf y := by simp [beatsOf]
@[simp] theorem macCallsOf_append (x y : List Event) : macCallsOf (x ++ y) = macCallsOf x ++ macCallsOf y := by
  simp [macCallsOf]
@[simp] theorem phasesOf_append (x y : List Event) : phasesOf (x ++ y) = phasesOf x ++ phasesOf y := by simp [phasesOf]
@[simp] theorem drawnBytes_append (x y : List Event) : drawnBytes (x ++ y) = drawnBytes x ++ drawnBytes y := by
  simp [drawnBytes]
@[simp] theorem digestsOf_append (x y : List Event) : digestsOf (x ++ y) = digestsOf x + digestsOf y := by
  simp [digestsOf]

@[simp] theorem responsesOf_nil : responsesOf [] = [] := rfl
@[simp] theorem beatsOf_nil : beatsOf [] = [] := rfl
@[simp] theorem macCallsOf_nil : macCallsOf [] = [] := rfl
@[simp] theorem phasesOf_nil : phasesOf [] = [] := rfl
@[simp] theorem drawnBytes_nil : drawnBytes [] = [] := rfl
@[simp] theorem digestsOf_nil : digestsOf [] = 0 := rfl

/-- A record that holds operations of the MAC ports only. -/
def OnlyMac (ev : List Event) : Prop := ∀ e ∈ ev, ∃ h op a, e = .mac h op a

/-- The operations of one composite are operations of a MAC port. -/
theorem macCalls_onlyMac (c : Config) (h : Chain) (key : Bytes) (parts : List Bytes) : OnlyMac (macCalls c h key parts) := by
  intro e he
  simp only [macCalls, List.mem_append, List.mem_map, List.mem_cons, List.not_mem_nil, or_false] at he
  rcases he with ⟨m, _, rfl⟩ | rfl | rfl <;> exact ⟨_, _, _, rfl⟩

/-- Such a record holds no response, beat, phase or drawn byte, and is its own list of MAC-port operations. -/
theorem OnlyMac.projections {ev : List Event} (m : OnlyMac ev) :
    responsesOf ev = [] ∧ beatsOf ev = [] ∧ phasesOf ev = [] ∧ drawnBytes ev = [] ∧ macCallsOf ev = ev := by
  induction ev with
  | nil => exact ⟨rfl, rfl, rfl, rfl, rfl⟩
  | cons e ev ih =>
    obtain ⟨h, op, a, rfl⟩ := m e (by simp)
    obtain ⟨h1, h2, h3, h4, h5⟩ := ih fun e he => m e (List.mem_cons_of_mem _ he)
    simp only [responsesOf, beatsOf, phasesOf, drawnBytes, macCallsOf] at *
    simp [h1, h2, h3, h4, h5]

/-- A composite is one MAC_DIGEST. -/
@[simp] theorem digestsOf_macCalls (c : Config) (h : Chain) (key : Bytes) (parts : List Bytes) :
    digestsOf (macCalls c h key parts) = 1 := by
  have e : digestsOf (parts.map fun m => Event.mac h (.update m 0 m.length) .nothing) = 0 := by simp [digestsOf]
  rw [macCalls, digestsOf_append, e]
  rfl

end Sys2Proof.Machine
end

