-- ==== Sys2Proof/Laws/Fill.lean ====
section
/-! SUPPORT. What a block, a pass and a whole REFILL can do, once, in closed form (R85 to R94). -/

namespace Sys2Proof.Machine

/-! ### Chains -/

theorem advanced_succ_front (c : Config) (h : Chain) (key : Bytes) (a : Digest h) (n : Nat) :
    advanced c h key (c.hmac h key a.toList) n = advanced c h key a (n + 1) := by
  induction n with
  | zero => rfl
  | succ n ih => simp only [advanced, ih]

theorem advanced_add (c : Config) (h : Chain) (key : Bytes) (a : Digest h) (m n : Nat) :
    advanced c h key (advanced c h key a m) n = advanced c h key a (m + n) := by
  induction n with
  | zero => rfl
  | succ n ih => rw [advanced, ih]; rfl

/-- The chain of R91 is its first value advanced. -/
theorem chainA_succ (c : Config) (h : Chain) (key seed : Bytes) (n : Nat) :
    chainA c h key seed (n + 1) = (advanced c h key (c.hmac h key seed) n).toList := by
  induction n with
  | zero => rfl
  | succ n ih => rw [chainA, ih]; rfl

/-- Advancing a value of the chain by `n`. -/
theorem chainA_add (c : Config) (h : Chain) (key seed : Bytes) (a : Digest h) (m : Nat)
    (e : a.toList = chainA c h key seed m) (n : Nat) :
    (advanced c h key a n).toList = chainA c h key seed (m + n) := by
  induction n with
  | zero => exact e
  | succ n ih => rw [advanced, ih]; rfl

/-! ### One block -/

/-- The record of one block (R90, R93). -/
def blockRecord (c : Config) (h : Chain) (key seed : Bytes) (a : Digest h) (b : Fin h.blocks) : List Event :=
  .phase (outPhase h b) :: (macCalls c h key [a.toList, seed] ++ .phase (advPhase h b) :: macCalls c h key [a.toList])

/-- One block of a pass on an idle keyed adapter (R86, R87). -/
theorem fillBlock_idle (c : Config) (h : Chain) (b : Fin h.blocks) (s : State) (k : Bytes)
    (hk : s.adapter h = { key := some k, pend := [] }) :
    fillBlock c h b s = .ok
      { (s.setBuf (putBlock h b (c.hmac h k ((s.chainValue h).toList ++ s.seed)) s.buf)).setChainValue h
          (c.hmac h k (s.chainValue h).toList) with
        phase := advPhase h b
        trace := s.trace ++ blockRecord c h k s.seed (s.chainValue h) b } := by
  rw [fillBlock, mac_idle c h _ _ k (by simpa using hk)]
  simp only
  rw [mac_idle c h _ _ k (by cases h <;> simpa [State.setPhase, State.setBuf, State.adapter] using hk)]
  cases h <;> simp [State.setPhase, State.setBuf, State.setChainValue, State.chainValue, blockRecord]

/-- A block whose adapter has no key reaches the digest without a key. -/
theorem fillBlock_keyless (c : Config) (h : Chain) (b : Fin h.blocks) (s : State) (hk : (s.adapter h).key = none) :
    fillBlock c h b s = .error .macWithoutKey := by
  rw [fillBlock, mac_keyless c h _ _ (by simpa using hk)]

/-! ### One pass -/

/-- The buffer after the blocks `bs` of a pass entered with chain value `a`. -/
def passBuf (c : Config) (h : Chain) (key seed : Bytes) : List (Fin h.blocks) → Digest h → Vector Byte 80 → Vector Byte 80
  | [], _, v => v
  | b :: bs, a, v =>
    passBuf c h key seed bs (c.hmac h key a.toList) (putBlock h b (c.hmac h key (a.toList ++ seed)) v)

/-- The record of the blocks `bs`. -/
def passRecord (c : Config) (h : Chain) (key seed : Bytes) : List (Fin h.blocks) → Digest h → List Event
  | [], _ => []
  | b :: bs, a => blockRecord c h key seed a b ++ passRecord c h key seed bs (c.hmac h key a.toList)

/-- The blocks `bs` of a pass on an idle keyed adapter. -/
theorem fillBlocks_idle (c : Config) (h : Chain) (bs : List (Fin h.blocks)) (s : State) (k : Bytes)
    (hk : s.adapter h = { key := some k, pend := [] }) :
    fillBlocks c h bs s = .ok
      { (s.setBuf (passBuf c h k s.seed bs (s.chainValue h) s.buf)).setChainValue h
          (advanced c h k (s.chainValue h) bs.length) with
        phase := bs.foldl (fun _ b => advPhase h b) s.phase
        trace := s.trace ++ passRecord c h k s.seed bs (s.chainValue h) } := by
  induction bs generalizing s with
  | nil => cases h <;> simp [fillBlocks, passBuf, passRecord, advanced, State.setBuf, State.setChainValue, State.chainValue]
  | cons b bs ih =>
    rw [fillBlocks, fillBlock_idle c h b s k hk]
    simp only
    rw [ih _ (by cases h <;> simpa [State.setBuf, State.setChainValue, State.adapter] using hk)]
    cases h <;>
      simp [passBuf, passRecord, State.setBuf, State.setChainValue, State.chainValue, advanced_succ_front]

/-- What a block makes of byte `i`: the first chain writes, the second XORs (R86, R87, R94). -/
theorem putBlock_get (h : Chain) (k : Nat) (d : Digest h) (v : Vector Byte 80) (i : Nat) (hi : i < 80) :
    (putBlock h k d v)[i] =
      if r : h.size * k ≤ i ∧ i - h.size * k < h.size then combine h v[i] (d[i - h.size * k]'r.2) else v[i] := by
  simp [putBlock]

theorem putBlock_get_in (h : Chain) (k : Nat) (d : Digest h) (v : Vector Byte 80) (i : Nat) (hi : i < 80)
    (q : i / h.size = k) :
    (putBlock h k d v)[i] = combine h v[i] (d[i % h.size]'(Nat.mod_lt _ (by cases h <;> decide))) := by
  subst q
  have e : i - h.size * (i / h.size) = i % h.size := by
    have := Nat.div_add_mod i h.size; omega
  have r : h.size * (i / h.size) ≤ i ∧ i - h.size * (i / h.size) < h.size :=
    ⟨Nat.mul_div_le _ _, by rw [e]; exact Nat.mod_lt _ (by cases h <;> decide)⟩
  rw [putBlock_get, dif_pos r]
  simp only [e]

theorem putBlock_get_out (h : Chain) (k : Nat) (d : Digest h) (v : Vector Byte 80) (i : Nat) (hi : i < 80)
    (q : i / h.size ≠ k) : (putBlock h k d v)[i] = v[i] := by
  rw [putBlock_get, dif_neg]
  rintro ⟨r1, r2⟩
  refine q (Nat.div_eq_of_lt_le ?_ ?_) <;> cases h <;> simp only [Chain.size] at * <;> omega

/-- After the MD5 pass every byte is that of the MD5 blocks, whatever `buf` held before (R86). -/
theorem passBuf_md5_get (c : Config) (key seed : Bytes) (a : Digest .md5) (v : Vector Byte 80) (i : Nat) (hi : i < 80) :
    (passBuf c .md5 key seed (blockIndices .md5) a v)[i] = passByte c .md5 key seed a i := by
  have q : i / 16 = 0 ∨ i / 16 = 1 ∨ i / 16 = 2 ∨ i / 16 = 3 ∨ i / 16 = 4 := by omega
  simp only [passBuf, blockIndices, passByte]
  rcases q with q | q | q | q | q <;>
    simp [putBlock_get_in, putBlock_get_out, q, combine, advanced, Chain.blocks]

/-- After the SHA-1 pass every byte is XORed with that of the SHA-1 blocks (R87). -/
theorem passBuf_sha1_get (c : Config) (key seed : Bytes) (a : Digest .sha1) (v : Vector Byte 80) (i : Nat) (hi : i < 80) :
    (passBuf c .sha1 key seed (blockIndices .sha1) a v)[i] = v[i] ^^^ passByte c .sha1 key seed a i := by
  have q : i / 20 = 0 ∨ i / 20 = 1 ∨ i / 20 = 2 ∨ i / 20 = 3 := by omega
  simp only [passBuf, blockIndices, passByte]
  rcases q with q | q | q | q <;>
    simp [putBlock_get_in, putBlock_get_out, q, combine, advanced, Chain.blocks]

/-! ### The whole REFILL -/

/-- The record of a whole REFILL (R90, R93). -/
def refillRecord (c : Config) (k1 k2 seed : Bytes) (a1 : Digest .md5) (a2 : Digest .sha1) : List Event :=
  passRecord c .md5 k1 seed (blockIndices .md5) a1 ++ passRecord c .sha1 k2 seed (blockIndices .sha1) a2

/-- The buffer a REFILL leaves (R94). -/
def refillBuf (c : Config) (k1 k2 seed : Bytes) (a1 : Digest .md5) (a2 : Digest .sha1) (v : Vector Byte 80) : Vector Byte 80 :=
  passBuf c .sha1 k2 seed (blockIndices .sha1) a2 (passBuf c .md5 k1 seed (blockIndices .md5) a1 v)

/-- `buf[i] = M[i] ^ S[i]` (R94). -/
theorem refillBuf_get (c : Config) (k1 k2 seed : Bytes) (a1 : Digest .md5) (a2 : Digest .sha1) (v : Vector Byte 80)
    (i : Nat) (hi : i < 80) :
    (refillBuf c k1 k2 seed a1 a2 v)[i] = passByte c .md5 k1 seed a1 i ^^^ passByte c .sha1 k2 seed a2 i := by
  simp only [refillBuf, passBuf_sha1_get, passBuf_md5_get]

/-- The old buffer has no influence (R86). -/
theorem refillBuf_old (c : Config) (k1 k2 seed : Bytes) (a1 : Digest .md5) (a2 : Digest .sha1) (v w : Vector Byte 80) :
    refillBuf c k1 k2 seed a1 a2 v = refillBuf c k1 k2 seed a1 a2 w := by
  ext i hi : 1
  rw [refillBuf_get, refillBuf_get]

/-- The state after a REFILL entered in `s` with keys `k1`, `k2`. -/
def refilled (c : Config) (k1 k2 : Bytes) (s : State) : State :=
  { s with
    aMd5 := advanced c .md5 k1 s.aMd5 5
    aSha1 := advanced c .sha1 k2 s.aSha1 4
    buf := refillBuf c k1 k2 s.seed s.aMd5 s.aSha1 s.buf
    idx := 0
    phase := .fillSha1Adv 3
    trace := s.trace ++ refillRecord c k1 k2 s.seed s.aMd5 s.aSha1 }

/-- REFILL on idle keyed adapters (R85). -/
theorem refill_keyed (c : Config) (k1 k2 : Bytes) (s : State) (hk : Keyed k1 k2 s) :
    refill c s = .ok (refilled c k1 k2 s) := by
  obtain ⟨h1, h2⟩ := hk
  rw [refill, fillBlocks_idle c .md5 _ s k1 h1]
  simp only
  rw [fillBlocks_idle c .sha1 _ _ k2 (by simpa [State.setBuf, State.setChainValue, State.adapter] using h2)]
  simp [State.setBuf, State.setChainValue, State.chainValue, State.setIdx, refilled, refillRecord, refillBuf, blockIndices,
    advPhase]

/-- REFILL, and back to the invoking phase. -/
theorem refillAndReturn_keyed (c : Config) (k1 k2 : Bytes) (s : State) (hk : Keyed k1 k2 s) :
    refillAndReturn c s = .ok ((refilled c k1 k2 s).setPhase s.phase) := by
  rw [refillAndReturn, refill_keyed c k1 k2 s hk]

/-- The MAC-port operations of a pass are those of R90. -/
theorem macCallsOf_blockRecord (c : Config) (h : Chain) (key seed : Bytes) (a : Digest h) (b : Fin h.blocks) :
    macCallsOf (blockRecord c h key seed a b) = blockCalls c h key seed a := by
  have e1 := (macCalls_onlyMac c h key [a.toList, seed]).projections.2.2.2.2
  have e2 := (macCalls_onlyMac c h key [a.toList]).projections.2.2.2.2
  simp only [macCallsOf] at e1 e2
  simp [blockRecord, macCallsOf, blockCalls, e1, e2]

theorem macCallsOf_refillRecord (c : Config) (k1 k2 seed : Bytes) (a1 : Digest .md5) (a2 : Digest .sha1) :
    macCallsOf (refillRecord c k1 k2 seed a1 a2) = passCalls c .md5 k1 seed a1 ++ passCalls c .sha1 k2 seed a2 := by
  have r5 : List.range 5 = [0, 1, 2, 3, 4] := rfl
  have r4 : List.range 4 = [0, 1, 2, 3] := rfl
  simp [refillRecord, passRecord, blockIndices, macCallsOf_blockRecord, passCalls, r5, r4, advanced]

/-- A block's record holds no response, beat or drawn byte; its phases are OUT then ADV; it is two MAC_DIGESTs. -/
theorem blockRecord_projections (c : Config) (h : Chain) (key seed : Bytes) (a : Digest h) (b : Fin h.blocks) :
    responsesOf (blockRecord c h key seed a b) = [] ∧ beatsOf (blockRecord c h key seed a b) = [] ∧
      drawnBytes (blockRecord c h key seed a b) = [] ∧
      phasesOf (blockRecord c h key seed a b) = [outPhase h b, advPhase h b] ∧
      digestsOf (blockRecord c h key seed a b) = 2 := by
  obtain ⟨p1, p2, p3, p4, -⟩ := (macCalls_onlyMac c h key [a.toList, seed]).projections
  obtain ⟨q1, q2, q3, q4, -⟩ := (macCalls_onlyMac c h key [a.toList]).projections
  have d1 := digestsOf_macCalls c h key [a.toList, seed]
  have d2 := digestsOf_macCalls c h key [a.toList]
  have e : blockRecord c h key seed a b = [.phase (outPhase h b)] ++ (macCalls c h key [a.toList, seed] ++
      ([.phase (advPhase h b)] ++ macCalls c h key [a.toList])) := rfl
  rw [e]
  simp only [responsesOf_append, beatsOf_append, drawnBytes_append, phasesOf_append, digestsOf_append, p1, p2, p3, p4, q1, q2,
    q3, q4, d1, d2]
  exact ⟨rfl, rfl, rfl, rfl, rfl⟩

/-- The record of a REFILL: no response, beat or drawn byte; R93's phases; 18 MAC_DIGESTs (R89). -/
theorem refillRecord_projections (c : Config) (k1 k2 seed : Bytes) (a1 : Digest .md5) (a2 : Digest .sha1) :
    responsesOf (refillRecord c k1 k2 seed a1 a2) = [] ∧ beatsOf (refillRecord c k1 k2 seed a1 a2) = [] ∧
      drawnBytes (refillRecord c k1 k2 seed a1 a2) = [] ∧
      phasesOf (refillRecord c k1 k2 seed a1 a2) = refillPhases ∧
      digestsOf (refillRecord c k1 k2 seed a1 a2) = 18 := by
  simp only [refillRecord, passRecord, blockIndices, responsesOf_append, beatsOf_append, drawnBytes_append, phasesOf_append,
    digestsOf_append, blockRecord_projections, responsesOf_nil, beatsOf_nil, drawnBytes_nil, phasesOf_nil, digestsOf_nil]
  simp only [List.append_nil, true_and]
  exact ⟨by decide, trivial⟩

end Sys2Proof.Machine
end

