-- ==== Sys2Proof/Laws/Memory.lean ====
section
/-! SUPPORT. The DST memory: read after write, canonical form, equal reads mean equal memories. -/

namespace Sys2Proof.Machine

/-- A read after a write: the byte written at the address, the old byte elsewhere. -/
theorem Memory.read_write (m : Memory) (a : Nat) (b : Byte) (x : Nat) (w : Memory.wf m) :
    Memory.read (Memory.write m a b) x = if x = a then some b else Memory.read m x := by
  induction m with
  | nil => simp [Memory.write, Memory.read]
  | cons c m ih =>
    obtain ⟨y, v⟩ := c
    have w' : Memory.wf m := (List.pairwise_cons.mp w).2
    by_cases h1 : a < y
    · simp [Memory.write, Memory.read, h1]
    · by_cases h2 : a = y
      · subst h2; simp only [Memory.write, lt_irrefl, if_false, if_true, Memory.read]; split <;> rfl
      · simp only [Memory.write, h1, h2, if_false, Memory.read, ih w']
        by_cases h3 : x = y
        · simp [h3, Ne.symm h2]
        · simp [h3]

/-- Only the written address can be new. -/
theorem Memory.mem_write (m : Memory) (a : Nat) (b : Byte) (c : Host.Cell) (h : c ∈ Memory.write m a b) :
    c = (a, b) ∨ c ∈ m := by
  induction m with
  | nil => simpa [Memory.write] using h
  | cons d m ih =>
    obtain ⟨y, v⟩ := d
    simp only [Memory.write] at h
    split at h
    · simpa using h
    · split at h
      · rcases List.mem_cons.mp h with h | h
        · exact .inl h
        · exact .inr (List.mem_cons_of_mem _ h)
      · rcases List.mem_cons.mp h with h | h
        · exact .inr (by simp [h])
        · rcases ih h with h | h
          · exact .inl h
          · exact .inr (List.mem_cons_of_mem _ h)

/-- A write keeps the canonical form. -/
theorem Memory.wf_write (m : Memory) (a : Nat) (b : Byte) (w : Memory.wf m) : Memory.wf (Memory.write m a b) := by
  induction m with
  | nil => simp [Memory.write]
  | cons c m ih =>
    obtain ⟨y, v⟩ := c
    obtain ⟨w1, w2⟩ := List.pairwise_cons.mp w
    simp only [Memory.write]
    split
    · rename_i h
      refine List.pairwise_cons.mpr ⟨fun d hd => ?_, w⟩
      rcases List.mem_cons.mp hd with rfl | hd
      · exact h
      · exact Nat.lt_trans h (w1 d hd)
    · split
      · rename_i _ h; subst h; exact List.pairwise_cons.mpr ⟨w1, w2⟩
      · rename_i h1 h2
        refine List.pairwise_cons.mpr ⟨fun d hd => ?_, ih w2⟩
        rcases Memory.mem_write m a b d hd with rfl | hd
        · show y < a; omega
        · exact w1 d hd

/-- The replay of two records is the replay of the second after the first. -/
theorem replayBeats_append (xs ys : List (Nat × Byte)) (m : Memory) :
    replayBeats (xs ++ ys) m = replayBeats ys (replayBeats xs m) := by
  induction xs generalizing m with
  | nil => rfl
  | cons x xs ih => obtain ⟨a, b⟩ := x; simp [replayBeats, ih]

/-- A replay keeps the canonical form. -/
theorem replayBeats_wf (xs : List (Nat × Byte)) (m : Memory) (w : Memory.wf m) : Memory.wf (replayBeats xs m) := by
  induction xs generalizing m with
  | nil => exact w
  | cons x xs ih => obtain ⟨a, b⟩ := x; exact ih _ (Memory.wf_write m a b w)

end Sys2Proof.Machine
end

