-- ==== Sys2Proof/Laws/Draw.lean ====
section
/-! SUPPORT. What a draw can do on keyed adapters, once, and what it does to the stream (R92, R95, R96). -/

namespace Sys2Proof.Machine

/-- The draw of one byte on adapters keyed with `k1`, `k2`. -/
def nextDraw (c : Config) (k1 k2 : Bytes) (s : State) : Byte × State :=
  if r : s.idx.val < 80 then deliver ⟨s.idx.val, r⟩ s else deliver 0 ((refilled c k1 k2 s).setPhase s.phase)

/-- A draw on keyed adapters always delivers. -/
theorem drawByte_keyed (c : Config) (k1 k2 : Bytes) (s : State) (hk : Keyed k1 k2 s) :
    drawByte c s = .ok (nextDraw c k1 k2 s) := by
  unfold drawByte nextDraw
  split
  · rfl
  · rw [refillAndReturn_keyed c k1 k2 s hk]

/-- The record of one draw: empty, or a REFILL's and the return to the invoking phase. -/
def drawRecord (c : Config) (k1 k2 : Bytes) (s : State) : List Event :=
  if s.idx.val < 80 then [] else refillRecord c k1 k2 s.seed s.aMd5 s.aSha1 ++ [.phase s.phase]

/-- Everything a draw leaves alone, and what it adds to the record. -/
theorem nextDraw_frame (c : Config) (k1 k2 : Bytes) (s : State) :
    (nextDraw c k1 k2 s).2.init = s.init ∧ (nextDraw c k1 k2 s).2.md5 = s.md5 ∧ (nextDraw c k1 k2 s).2.sha1 = s.sha1 ∧
      (nextDraw c k1 k2 s).2.seed = s.seed ∧ (nextDraw c k1 k2 s).2.phase = s.phase ∧
      SamePorts s (nextDraw c k1 k2 s).2 ∧ (nextDraw c k1 k2 s).2.dst = s.dst ∧
      (nextDraw c k1 k2 s).2.trace = s.trace ++ drawRecord c k1 k2 s := by
  unfold nextDraw drawRecord
  split <;> simp [deliver, SamePorts, refilled]

/-- The registers a draw writes, where the buffer holds an unread byte. -/
theorem nextDraw_buffered (c : Config) (k1 k2 : Bytes) (s : State) (r : s.idx.val < 80) :
    nextDraw c k1 k2 s = (s.buf[s.idx.val], s.setIdx ⟨s.idx.val + 1, by omega⟩) := by
  rw [nextDraw, dif_pos r]; rfl

/-- The registers a draw writes, where the buffer is exhausted: the byte is `buf[0]` of the refilled buffer. -/
theorem nextDraw_exhausted (c : Config) (k1 k2 : Bytes) (s : State) (r : ¬ s.idx.val < 80) :
    nextDraw c k1 k2 s =
      ((refillBuf c k1 k2 s.seed s.aMd5 s.aSha1 s.buf)[0], ((refilled c k1 k2 s).setPhase s.phase).setIdx 1) := by
  rw [nextDraw, dif_neg r]; rfl

theorem nextDraw_keyed (c : Config) (k1 k2 : Bytes) (s : State) (hk : Keyed k1 k2 s) :
    Keyed k1 k2 (nextDraw c k1 k2 s).2 := by
  obtain ⟨-, h1, h2, -⟩ := nextDraw_frame c k1 k2 s
  exact ⟨h1.trans hk.1, h2.trans hk.2⟩

/-- The record of a draw holds no response, beat or drawn byte; a REFILL is 18 MAC_DIGESTs (R89, R135). -/
theorem drawRecord_projections (c : Config) (k1 k2 : Bytes) (s : State) :
    responsesOf (drawRecord c k1 k2 s) = [] ∧ beatsOf (drawRecord c k1 k2 s) = [] ∧ drawnBytes (drawRecord c k1 k2 s) = [] ∧
      phasesOf (drawRecord c k1 k2 s) = (if s.idx.val < 80 then [] else refillPhases ++ [s.phase]) ∧
      digestsOf (drawRecord c k1 k2 s) = (if s.idx.val < 80 then 0 else 18) := by
  obtain ⟨h1, h2, h3, h4, h5⟩ := refillRecord_projections c k1 k2 s.seed s.aMd5 s.aSha1
  unfold drawRecord
  split
  · exact ⟨rfl, rfl, rfl, rfl, rfl⟩
  · simp only [responsesOf_append, beatsOf_append, drawnBytes_append, phasesOf_append, digestsOf_append, h1, h2, h3, h4, h5]
    exact ⟨rfl, rfl, rfl, rfl, rfl⟩

/-! ### The stream -/

/-- A pass entered with `A_h(m+1)` computes the bytes of `P_h` from `n_h·m` on (R92). -/
theorem passByte_prf (c : Config) (h : Chain) (key seed : Bytes) (a : Digest h) (m i : Nat)
    (e : a.toList = chainA c h key seed (m + 1)) :
    passByte c h key seed a i = prfByte c h key seed (h.size * m + i) := by
  have hp : 0 < h.size := by cases h <;> decide
  have e1 : (h.size * m + i) / h.size = m + i / h.size := by rw [Nat.mul_add_div hp]
  have e2 : (h.size * m + i) % h.size = i % h.size := Nat.mul_add_mod _ _ _
  have e3 : m + 1 + i / h.size = m + i / h.size + 1 := by omega
  simp only [passByte, prfByte, chainA_add c h key seed a _ e, e1, e2, e3]

/-- A REFILL of an exhausted buffer keeps the stream position and makes the fill count one more (R91, R92). -/
theorem refilled_streamAt (c : Config) (k1 k2 : Bytes) (pos : Nat) (s : State) (p : Phase)
    (hs : StreamAt c k1 k2 pos s) (r : ¬ s.idx.val < 80) : StreamAt c k1 k2 pos ((refilled c k1 k2 s).setPhase p) := by
  obtain ⟨hi, hk, f, hf, hp, h1, h2, hb⟩ := hs
  refine ⟨hi, hk, f + 1, by omega, ?_, ?_, ?_, fun j => ?_⟩
  · have := s.idx.isLt; simp [refilled]; omega
  · exact (chainA_add c .md5 k1 s.seed s.aMd5 _ h1 5).trans (congrArg _ (by omega))
  · exact (chainA_add c .sha1 k2 s.seed s.aSha1 _ h2 4).trans (congrArg _ (by omega))
  · simp only [State.setPhase_buf, State.setPhase_seed, refilled, Fin.getElem_fin, refillBuf_get, streamByte]
    rw [passByte_prf c .md5 k1 s.seed s.aMd5 _ _ h1, passByte_prf c .sha1 k2 s.seed s.aSha1 _ _ h2]
    congr 2 <;> simp only [Chain.size] <;> omega

/-- A draw delivers the next byte of the stream and moves one position on (R92, R95). -/
theorem nextDraw_streamAt (c : Config) (k1 k2 : Bytes) (pos : Nat) (s : State) (hs : StreamAt c k1 k2 pos s) :
    (nextDraw c k1 k2 s).1 = streamByte c k1 k2 s.seed pos ∧ StreamAt c k1 k2 (pos + 1) (nextDraw c k1 k2 s).2 := by
  have key : ∀ (i : Fin 80) (u : State), StreamAt c k1 k2 pos u → u.idx.val = i.val →
      (deliver i u).1 = streamByte c k1 k2 u.seed pos ∧ StreamAt c k1 k2 (pos + 1) (deliver i u).2 := by
    rintro i u ⟨hi, hk, f, hf, hp, h1, h2, hb⟩ e
    refine ⟨?_, hi, hk, f, hf, ?_, h1, h2, hb⟩
    · simp only [deliver]; rw [hb i, hp, e]
    · simp [deliver, hp, e]; omega
  unfold nextDraw
  split
  · exact key _ s hs rfl
  · rename_i r
    exact key 0 _ (refilled_streamAt c k1 k2 pos s s.phase hs r) rfl

/-! ### Draws to DST -/

/-- One more draw to DST on keyed adapters. -/
theorem drawTo_keyed_succ (c : Config) (k1 k2 : Bytes) (a n : Nat) (s : State) (hk : Keyed k1 k2 s) :
    drawTo c a (n + 1) s = drawTo c (a + 1) n ((nextDraw c k1 k2 s).2.writeDst a (nextDraw c k1 k2 s).1) := by
  rw [drawTo, drawByte_keyed c k1 k2 s hk]

/-- The bytes that `n` draws from `s` deliver. -/
def drawsFrom (c : Config) (k1 k2 : Bytes) : Nat → State → Bytes
  | 0, _ => []
  | n + 1, s => (nextDraw c k1 k2 s).1 :: drawsFrom c k1 k2 n (nextDraw c k1 k2 s).2

/-- The state `n` draws leave. -/
def afterDraws (c : Config) (k1 k2 : Bytes) : Nat → State → State
  | 0, s => s
  | n + 1, s => afterDraws c k1 k2 n (nextDraw c k1 k2 s).2

/-- Beats ascending from `a`. -/
def beatsAt : Nat → Bytes → List (Nat × Byte)
  | _, [] => []
  | a, b :: bs => (a, b) :: beatsAt (a + 1) bs

theorem SameRegisters.refl (s : State) : SameRegisters s s := ⟨rfl, rfl, rfl, rfl, rfl, rfl, rfl, rfl⟩

theorem SameRegisters.trans {s t u : State} (h : SameRegisters s t) (g : SameRegisters t u) : SameRegisters s u := by
  obtain ⟨h1, h2, h3, h4, h5, h6, h7, h8⟩ := h
  obtain ⟨g1, g2, g3, g4, g5, g6, g7, g8⟩ := g
  exact ⟨g1.trans h1, g2.trans h2, g3.trans h3, g4.trans h4, g5.trans h5, g6.trans h6, g7.trans h7, g8.trans h8⟩

theorem SameRegisters.symm {s t : State} (h : SameRegisters s t) : SameRegisters t s := by
  obtain ⟨h1, h2, h3, h4, h5, h6, h7, h8⟩ := h
  exact ⟨h1.symm, h2.symm, h3.symm, h4.symm, h5.symm, h6.symm, h7.symm, h8.symm⟩

theorem Keyed.same {k1 k2 : Bytes} {s t : State} (hk : Keyed k1 k2 s) (h : SameRegisters s t) : Keyed k1 k2 t :=
  ⟨h.2.1.trans hk.1, h.2.2.1.trans hk.2⟩

/-- A draw looks at the registers alone. -/
theorem nextDraw_congr (c : Config) (k1 k2 : Bytes) {s t : State} (h : SameRegisters s t) :
    (nextDraw c k1 k2 t).1 = (nextDraw c k1 k2 s).1 ∧ SameRegisters (nextDraw c k1 k2 s).2 (nextDraw c k1 k2 t).2 := by
  obtain ⟨h1, h2, h3, h4, h5, h6, h7, h8⟩ := h
  unfold nextDraw SameRegisters deliver refilled
  by_cases r : s.idx.val < 80 <;> simp [h1, h2, h3, h4, h5, h6, h7, h8, r]

theorem draws_congr (c : Config) (k1 k2 : Bytes) (n : Nat) {s t : State} (h : SameRegisters s t) :
    drawsFrom c k1 k2 n t = drawsFrom c k1 k2 n s ∧ SameRegisters (afterDraws c k1 k2 n s) (afterDraws c k1 k2 n t) := by
  induction n generalizing s t with
  | zero => exact ⟨rfl, h⟩
  | succ n ih =>
    obtain ⟨h1, h2⟩ := nextDraw_congr c k1 k2 h
    obtain ⟨h3, h4⟩ := ih h2
    exact ⟨by simp only [drawsFrom, h1, h3], h4⟩

/-- Draws one after another. -/
theorem draws_add (c : Config) (k1 k2 : Bytes) (m n : Nat) (s : State) :
    drawsFrom c k1 k2 (m + n) s = drawsFrom c k1 k2 m s ++ drawsFrom c k1 k2 n (afterDraws c k1 k2 m s) ∧
      afterDraws c k1 k2 (m + n) s = afterDraws c k1 k2 n (afterDraws c k1 k2 m s) := by
  induction m generalizing s with
  | zero => simp [drawsFrom, afterDraws]
  | succ m ih =>
    rw [Nat.succ_add]
    obtain ⟨h1, h2⟩ := ih (nextDraw c k1 k2 s).2
    exact ⟨by simp only [drawsFrom, h1, List.cons_append, afterDraws], by simp only [afterDraws, h2]⟩

/-- From a stream position, `n` draws deliver the next `n` bytes of the stream (R92). -/
theorem draws_streamAt (c : Config) (k1 k2 : Bytes) (n pos : Nat) (s : State) (hs : StreamAt c k1 k2 pos s) :
    drawsFrom c k1 k2 n s = (List.range n).map (fun j => streamByte c k1 k2 s.seed (pos + j)) ∧
      StreamAt c k1 k2 (pos + n) (afterDraws c k1 k2 n s) ∧ (afterDraws c k1 k2 n s).seed = s.seed := by
  induction n generalizing s pos with
  | zero => exact ⟨rfl, hs, rfl⟩
  | succ n ih =>
    obtain ⟨h1, h2⟩ := nextDraw_streamAt c k1 k2 pos s hs
    have e := (nextDraw_frame c k1 k2 s).2.2.2.1
    obtain ⟨h3, h4, h5⟩ := ih (pos + 1) _ h2
    refine ⟨?_, ?_, h5.trans e⟩
    · rw [drawsFrom, h1, h3, List.range_succ_eq_map, e]
      simp [List.map_map, Function.comp_def, Nat.add_comm, Nat.add_left_comm]
    · rw [afterDraws]; convert h4 using 1; omega

/-- StreamAt looks at the registers alone. -/
theorem StreamAt.same {c : Config} {k1 k2 : Bytes} {pos : Nat} {s t : State} (hs : StreamAt c k1 k2 pos s)
    (h : SameRegisters s t) : StreamAt c k1 k2 pos t := by
  obtain ⟨hi, hk, f, hf, hp, h1, h2, hb⟩ := hs
  obtain ⟨g1, g2, g3, g4, g5, g6, g7, g8⟩ := h
  exact ⟨g1.trans hi, ⟨g2.trans hk.1, g3.trans hk.2⟩, f, hf, by rw [g8]; exact hp, by rw [g5, g4]; exact h1,
    by rw [g6, g4]; exact h2, fun j => by rw [g7, g4]; exact hb j⟩

/-- How one draw moves the cursor: `q` REFILLs, 0 or 1 (R95, R100). -/
theorem nextDraw_cursor (c : Config) (k1 k2 : Bytes) (s : State) :
    ∃ q, (nextDraw c k1 k2 s).2.idx.val + 80 * q = s.idx.val + 1 ∧ digestsOf (drawRecord c k1 k2 s) = 18 * q ∧
      1 ≤ (nextDraw c k1 k2 s).2.idx.val ∧
      (s.phase = .draw → (phasesOf (drawRecord c k1 k2 s)).count (.fillMd5Out 0) = q ∧
        ∀ rest, phasePath .draw (phasesOf (drawRecord c k1 k2 s) ++ rest) = phasePath .draw rest) := by
  obtain ⟨-, -, -, p4, p5⟩ := drawRecord_projections c k1 k2 s
  by_cases r : s.idx.val < 80
  · rw [nextDraw_buffered c k1 k2 s r, p4, p5]
    exact ⟨0, by simp, by simp [r], by simp, fun _ => ⟨by simp [r], fun rest => by simp [r]⟩⟩
  · have := s.idx.isLt
    rw [nextDraw_exhausted c k1 k2 s r, p4, p5]
    refine ⟨1, by simp; omega, by simp [r], by simp, fun e => ⟨?_, fun rest => ?_⟩⟩
    · rw [e, if_neg r]; decide
    · rw [e, if_neg r]; rfl

/-- Everything `n` draws to DST do on keyed adapters (R96, R100): no error, ascending beats of the bytes drawn, the
registers of `n` draws; `r` REFILLs, with `idx` as R100 says; the phases they write are REFILLs between DRAW and DRAW. -/
theorem drawTo_keyed (c : Config) (k1 k2 : Bytes) (a n : Nat) (s : State) (hk : Keyed k1 k2 s) :
    ∃ t ev r, drawTo c a n s = .ok t ∧ SameRegisters (afterDraws c k1 k2 n s) t ∧ t.phase = s.phase ∧ SamePorts s t ∧
      t.trace = s.trace ++ ev ∧ t.dst = replayBeats (beatsOf ev) s.dst ∧
      responsesOf ev = [] ∧ beatsOf ev = beatsAt a (drawsFrom c k1 k2 n s) ∧ drawnBytes ev = drawsFrom c k1 k2 n s ∧
      digestsOf ev = 18 * r ∧ t.idx.val + 80 * r = s.idx.val + n ∧
      (n = 0 → r = 0) ∧ (0 < n → 1 ≤ t.idx.val) ∧ t.init = s.init ∧ Keyed k1 k2 t ∧ t.seed = s.seed ∧
      (s.phase = .draw → (phasesOf ev).count (.fillMd5Out 0) = r ∧
        ∀ rest, phasePath .draw (phasesOf ev ++ rest) = phasePath .draw rest) := by
  induction n generalizing s a with
  | zero =>
    exact ⟨s, [], 0, rfl, SameRegisters.refl s, rfl, ⟨rfl, rfl, rfl, rfl, rfl⟩, by simp, rfl, rfl, rfl, rfl, rfl, rfl,
      fun _ => rfl, fun h => absurd h (by omega), rfl, hk, rfl, fun _ => ⟨rfl, fun _ => rfl⟩⟩
  | succ n ih =>
    obtain ⟨f1, f2, f3, f4, f5, f6, f7, f8⟩ := nextDraw_frame c k1 k2 s
    obtain ⟨p1, p2, p3, -, -⟩ := drawRecord_projections c k1 k2 s
    obtain ⟨q, q1, q2, q3, q4⟩ := nextDraw_cursor c k1 k2 s
    have hk' : Keyed k1 k2 ((nextDraw c k1 k2 s).2.writeDst a (nextDraw c k1 k2 s).1) := nextDraw_keyed c k1 k2 s hk
    have same : SameRegisters (nextDraw c k1 k2 s).2 ((nextDraw c k1 k2 s).2.writeDst a (nextDraw c k1 k2 s).1) :=
      ⟨rfl, rfl, rfl, rfl, rfl, rfl, rfl, rfl⟩
    obtain ⟨t, ev, r, h1, h2, h3, h4, h5, h6, h7, h8, h9, h10, h12, h13, h14, h15, h16, h17, h18⟩ := ih (a + 1) _ hk'
    obtain ⟨c1, c2⟩ := draws_congr c k1 k2 n same
    simp only [State.writeDst_phase, State.writeDst_trace, State.writeDst_dst, State.writeDst_idx, State.writeDst_init,
      State.writeDst_seed, f1, f4, f5, f7, f8] at h3 h5 h6 h12 h15 h17 h18
    refine ⟨t, drawRecord c k1 k2 s ++ ([.dst a (nextDraw c k1 k2 s).1] ++ ev), q + r, ?_, c2.trans h2, h3, ?_, ?_, ?_, ?_, ?_,
      ?_, ?_, ?_, ?_, ?_, h15, h16, h17, ?_⟩
    · rw [drawTo_keyed_succ c k1 k2 a n s hk, h1]
    · obtain ⟨g1, g2, g3, g4, g5⟩ := f6
      obtain ⟨k1, k2, k3, k4, k5⟩ := h4
      exact ⟨k1.trans g1, k2.trans g2, k3.trans g3, k4.trans g4, k5.trans g5⟩
    · rw [h5]; simp
    · rw [h6]; simp only [beatsOf_append, p2, List.nil_append]; rfl
    · simp only [responsesOf_append, p1, h7]; rfl
    · simp only [beatsOf_append, p2, h8, c1]; rfl
    · simp only [drawnBytes_append, p3, h9, c1]; rfl
    · simp only [digestsOf_append, q2, h10]
      have : digestsOf [Event.dst a (nextDraw c k1 k2 s).1] = 0 := rfl
      omega
    · omega
    · intro h; omega
    · intro _
      rcases Nat.eq_zero_or_pos n with e | e
      · have := h13 e; omega
      · exact h14 e
    · intro e
      obtain ⟨x1, x2⟩ := h18 e
      obtain ⟨y1, y2⟩ := q4 e
      have : phasesOf [Event.dst a (nextDraw c k1 k2 s).1] = [] := rfl
      refine ⟨by simp only [phasesOf_append, List.count_append, this, x1, y1]; simp, fun rest => ?_⟩
      simp only [phasesOf_append, this, List.nil_append, List.append_assoc]
      rw [y2, x2]

end Sys2Proof.Machine
end

