-- ==== Sys2Proof/Laws/Command.lean ====
section
/-! SUPPORT. What each host command can do, once (41_init.md, 43_stream.md, 60_exceptions.md R116). -/

namespace Sys2Proof.Machine

/-- A raised error only answers (R116). -/
theorem raiseError_answered (st : Status) (s : State) : (s.setPhase .check).raiseError st = answered st s := by
  simp [State.raiseError, State.finish, State.setPhase, State.log, answered]

/-- A no-op only answers (R97). -/
theorem finish_answered (st : Status) (s : State) : (s.setPhase .check).finish st none = answered st s :=
  raiseError_answered st s

theorem answered_same (st : Status) (s : State) : SameRegisters s (answered st s) := ⟨rfl, rfl, rfl, rfl, rfl, rfl, rfl, rfl⟩

theorem answered_ports (st : Status) (s : State) : SamePorts s (answered st s) := ⟨rfl, rfl, rfl, rfl, rfl⟩

/-! ### INIT -/

/-- INIT's checks fail: it only answers (R76, R82). -/
theorem initWith_error (c : Config) (secret seed : Option Bytes) (s : State)
    (h : initStatus c s.init secret seed ≠ .ok) :
    initWith c secret seed s = .ok (answered (initStatus c s.init secret seed) s) := by
  rw [initWith, ← raiseError_answered]
  split
  · rename_i e; exact absurd e h
  · rfl

/-- INIT's checks pass: it commits (R75). -/
theorem initWith_ok (c : Config) (secret seed : Option Bytes) (s : State) (h : initStatus c s.init secret seed = .ok) :
    initWith c secret seed s = initCommit c secret seed (s.setPhase .check) := by
  rw [initWith, h]

/-- The key `MAC_INIT` leaves in force: the half of a supplied secret, else the old one (R78). -/
def keyInForce (h : Chain) (secret : Option Bytes) (old : Option Bytes) : Option Bytes :=
  match secret with
  | none => old
  | some x => some (halfFor h x)

/-- The record of the key load (R78, R84). -/
def keyLoadRecord (secret : Option Bytes) : List Event :=
  match secret with
  | none => []
  | some x => [.phase .keyload, .mac .md5 (.init (halfFor .md5 x)) .accepted, .mac .sha1 (.init (halfFor .sha1 x)) .accepted]

/-- The key load of accepted halves (R78). -/
theorem keyLoad_some (c : Config) (x : Bytes) (s : State) (h : secretOk c x = true) :
    keyLoad c (some x) s =
      { s with
        md5 := { key := some (halfFor .md5 x), pend := [] }
        sha1 := { key := some (halfFor .sha1 x), pend := [] }
        phase := .keyload
        trace := s.trace ++ keyLoadRecord (some x) } := by
  simp only [secretOk, Bool.and_eq_true] at h
  simp [keyLoad, macInit, h.1, h.2, State.setAdapter, State.log, State.setPhase, keyLoadRecord]

/-- The record of INIT's commit behind the key load (R84, R93). -/
def commitRecord (c : Config) (k1 k2 seed : Bytes) : List Event :=
  [.phase .a1Md5] ++ (macCalls c .md5 k1 [seed] ++ ([.phase .a1Sha1] ++ (macCalls c .sha1 k2 [seed] ++
    (refillRecord c k1 k2 seed (c.hmac .md5 k1 seed) (c.hmac .sha1 k2 seed) ++
      [.phase .respond, .response (responseWord .ok none true), .phase .idle]))))

/-- INIT's state after the commit, from the state `s` behind key load and seed store. -/
def committed (c : Config) (k1 k2 : Bytes) (s : State) : State :=
  { s with
    init := true
    aMd5 := advanced c .md5 k1 (c.hmac .md5 k1 s.seed) 5
    aSha1 := advanced c .sha1 k2 (c.hmac .sha1 k2 s.seed) 4
    buf := refillBuf c k1 k2 s.seed (c.hmac .md5 k1 s.seed) (c.hmac .sha1 k2 s.seed) s.buf
    idx := 0
    phase := .idle
    trace := s.trace ++ commitRecord c k1 k2 s.seed }

/-- The first chain value on an idle keyed adapter (R80). -/
theorem firstChainValue_idle (c : Config) (h : Chain) (s : State) (k : Bytes)
    (hk : s.adapter h = { key := some k, pend := [] }) :
    firstChainValue c h s =
      .ok (({ s with trace := s.trace ++ macCalls c h k [s.seed] } : State).setChainValue h (c.hmac h k s.seed)) := by
  rw [firstChainValue, mac_idle c h _ s k hk]
  simp

/-- INIT's commit, where both adapters are keyed behind the key load (R75, R80). -/
theorem initCommit_keyed (c : Config) (secret seed : Option Bytes) (s : State) (k1 k2 : Bytes)
    (hk : Keyed k1 k2 (storeSeed seed (keyLoad c secret s))) :
    initCommit c secret seed s = .ok (committed c k1 k2 (storeSeed seed (keyLoad c secret s))) := by
  rw [initCommit]
  generalize storeSeed seed (keyLoad c secret s) = u at hk ⊢
  obtain ⟨h1, h2⟩ := hk
  rw [firstChainValue_idle c .md5 _ k1 (by simpa using h1)]
  simp only
  rw [firstChainValue_idle c .sha1 _ k2 (by simpa [State.setChainValue, State.setPhase, State.adapter] using h2)]
  simp only
  rw [refill_keyed c k1 k2 _ (by
    exact ⟨by simpa [State.setChainValue, State.setPhase] using h1, by simpa [State.setChainValue, State.setPhase] using h2⟩)]
  simp [committed, commitRecord, refilled, State.finish, State.setPhase, State.setChainValue, State.setInit, State.log]

/-- After the commit the stream stands at its first byte (R83, R91, R92). -/
theorem committed_streamAt (c : Config) (k1 k2 : Bytes) (s : State) (hk : Keyed k1 k2 s) :
    StreamAt c k1 k2 0 (committed c k1 k2 s) := by
  have e1 : (c.hmac .md5 k1 s.seed).toList = chainA c .md5 k1 s.seed (0 + 1) := rfl
  have e2 : (c.hmac .sha1 k2 s.seed).toList = chainA c .sha1 k2 s.seed (0 + 1) := rfl
  refine ⟨rfl, hk, 1, Nat.le_refl 1, by simp [committed], (chainA_succ c .md5 k1 s.seed 5).symm,
    (chainA_succ c .sha1 k2 s.seed 4).symm, fun j => ?_⟩
  simp only [committed, Fin.getElem_fin, refillBuf_get, streamByte]
  rw [passByte_prf c .md5 k1 s.seed _ 0 _ e1, passByte_prf c .sha1 k2 s.seed _ 0 _ e2]
  simp

/-- INIT's status OK, read back (R76, R115). -/
theorem initStatus_ok (c : Config) (ready : Bool) (secret seed : Option Bytes) :
    initStatus c ready secret seed = .ok ↔
      tooLong c secret seed = false ∧ (∀ x, secret = some x → secretOk c x = true) ∧
        (secret = none → ready = true) ∧ (seed = none → ready = true) := by
  unfold initStatus
  cases secret <;> cases seed <;> cases ready <;> cases tooLong c _ _ <;> simp
  split <;> simp

/-- INIT's success as one equation: what is in force is the new where supplied, the old where not (R81). -/
theorem initWith_success (c : Config) (secret seed : Option Bytes) (s : State) (k1 k2 : Bytes)
    (hst : initStatus c s.init secret seed = .ok)
    (hk : ∀ x, secret = some x → k1 = firstHalf x ∧ k2 = lastHalf x) (hold : secret = none → Keyed k1 k2 s) :
    initWith c secret seed s = .ok (committed c k1 k2 (storeSeed seed (keyLoad c secret (s.setPhase .check)))) ∧
      Keyed k1 k2 (storeSeed seed (keyLoad c secret (s.setPhase .check))) := by
  rw [initWith_ok c secret seed s hst]
  have key : Keyed k1 k2 (storeSeed seed (keyLoad c secret (s.setPhase .check))) := by
    cases secret with
    | none => cases seed <;> exact hold rfl
    | some x =>
      obtain ⟨rfl, rfl⟩ := hk x rfl
      rw [keyLoad_some c x _ (((initStatus_ok c _ _ _).mp hst).2.1 x rfl)]
      cases seed <;> exact ⟨rfl, rfl⟩
  exact ⟨initCommit_keyed c secret seed _ k1 k2 key, key⟩

/-- What stands behind key load and seed store, field by field (R78, R79). -/
theorem loaded_fields (c : Config) (secret seed : Option Bytes) (s : State)
    (h : ∀ x, secret = some x → secretOk c x = true) :
    (storeSeed seed (keyLoad c secret (s.setPhase .check))).seed = seed.getD s.seed ∧
      (storeSeed seed (keyLoad c secret (s.setPhase .check))).dst = s.dst ∧
      SamePorts s (storeSeed seed (keyLoad c secret (s.setPhase .check))) ∧
      (storeSeed seed (keyLoad c secret (s.setPhase .check))).trace = s.trace ++ ([.phase .check] ++ keyLoadRecord secret) := by
  cases secret with
  | none => cases seed <;> simp [storeSeed, keyLoad, keyLoadRecord, SamePorts]
  | some x =>
    rw [keyLoad_some c x _ (h x rfl)]
    cases seed <;> simp [storeSeed, SamePorts, State.setSeed, State.setPhase]

/-! ### Draw commands -/

/-- NEXT_BYTE in Uninitialized (R106). -/
theorem nextByteWith_uninit (c : Config) (s : State) (h : s.init = false) :
    nextByteWith c s = .ok (answered .illegalState s) := by
  simp [nextByteWith, nextByteStatus, h, raiseError_answered]

/-- NEXT_BYTE in Ready on keyed adapters (R95). -/
theorem nextByteWith_ready (c : Config) (k1 k2 : Bytes) (s : State) (h : s.init = true) (hk : Keyed k1 k2 s) :
    nextByteWith c s =
      .ok ((nextDraw c k1 k2 ((s.setPhase .check).setPhase .draw)).2.finish .ok
        (some (nextDraw c k1 k2 ((s.setPhase .check).setPhase .draw)).1)) := by
  rw [nextByteWith, h]
  simp only [nextByteStatus, if_true]
  rw [drawByte_keyed c k1 k2 _ (by exact hk)]

/-- NEXT_BYTES whose checks fail only answers (R96, R116). -/
theorem nextBytesWith_error (c : Config) (dest : Option Nat) (offset length : Int) (s : State)
    (h : nextBytesStatus s.init dest offset length ≠ .ok) :
    nextBytesWith c dest offset length s = .ok (answered (nextBytesStatus s.init dest offset length) s) := by
  rw [nextBytesWith, ← raiseError_answered]
  split
  · rename_i e; exact absurd e h
  · rfl

/-- NEXT_BYTES's status OK, read back (R96). -/
theorem nextBytesStatus_ok (ready : Bool) (dest : Option Nat) (offset length : Int) :
    nextBytesStatus ready dest offset length = .ok ↔
      ready = true ∧ ∃ cap, dest = some cap ∧ 0 ≤ offset ∧ 0 ≤ length ∧ offset + length ≤ cap := by
  unfold nextBytesStatus windowBad
  cases ready <;> cases dest <;> simp
  omega

end Sys2Proof.Machine
end

