-- ==== Sys2Proof/Laws/Inversion.lean ====
section
/-! SUPPORT. Inversion: if an operation answers a next state, this is everything it did, from any state at all. -/

namespace Sys2Proof.Machine

/-- What MAC work inside a command leaves alone: everything but the adapters' pending bytes, the chain values, the buffer,
the cursor, the phase and the record. -/
def MacFrame (s t : State) : Prop :=
  t.init = s.init ∧ t.md5.key = s.md5.key ∧ t.sha1.key = s.sha1.key ∧ t.seed = s.seed ∧ SamePorts s t ∧ t.dst = s.dst ∧
    (s.md5.pend = [] → t.md5.pend = []) ∧ (s.sha1.pend = [] → t.sha1.pend = [])

theorem MacFrame.refl (s : State) : MacFrame s s := ⟨rfl, rfl, rfl, rfl, ⟨rfl, rfl, rfl, rfl, rfl⟩, rfl, id, id⟩

theorem SamePorts.trans {s t u : State} (h : SamePorts s t) (g : SamePorts t u) : SamePorts s u := by
  obtain ⟨h1, h2, h3, h4, h5⟩ := h
  obtain ⟨g1, g2, g3, g4, g5⟩ := g
  exact ⟨g1.trans h1, g2.trans h2, g3.trans h3, g4.trans h4, g5.trans h5⟩

theorem MacFrame.trans {s t u : State} (h : MacFrame s t) (g : MacFrame t u) : MacFrame s u := by
  obtain ⟨h1, h2, h3, h4, h5, h6, h7, h8⟩ := h
  obtain ⟨g1, g2, g3, g4, g5, g6, g7, g8⟩ := g
  exact ⟨g1.trans h1, g2.trans h2, g3.trans h3, g4.trans h4, h5.trans g5, g6.trans h6, g7 ∘ h7, g8 ∘ h8⟩

theorem MacFrame.setPhase (p : Phase) (s : State) : MacFrame s (s.setPhase p) :=
  ⟨rfl, rfl, rfl, rfl, ⟨rfl, rfl, rfl, rfl, rfl⟩, rfl, id, id⟩

theorem MacFrame.setBuf (v : Vector Byte 80) (s : State) : MacFrame s (s.setBuf v) :=
  ⟨rfl, rfl, rfl, rfl, ⟨rfl, rfl, rfl, rfl, rfl⟩, rfl, id, id⟩

theorem MacFrame.setIdx (i : Fin 81) (s : State) : MacFrame s (s.setIdx i) :=
  ⟨rfl, rfl, rfl, rfl, ⟨rfl, rfl, rfl, rfl, rfl⟩, rfl, id, id⟩

theorem MacFrame.setChainValue (h : Chain) (d : Digest h) (s : State) : MacFrame s (s.setChainValue h d) := by
  cases h <;> exact ⟨rfl, rfl, rfl, rfl, ⟨rfl, rfl, rfl, rfl, rfl⟩, rfl, id, id⟩

/-- What a composite did: the adapter is keyed, and only its pending bytes and the record have changed (R72). -/
theorem mac_inv {c : Config} {h : Chain} {parts : List Bytes} {s t : State} {d : Digest h}
    (e : mac c h parts s = .ok (d, t)) :
    ∃ k ev, (s.adapter h).key = some k ∧ d = c.hmac h k ((s.adapter h).pend ++ parts.flatten) ∧ MacFrame s t ∧
      t.adapter h = { key := some k, pend := [] } ∧ (∀ g, g ≠ h → t.adapter g = s.adapter g) ∧
      t.aMd5 = s.aMd5 ∧ t.aSha1 = s.aSha1 ∧ t.buf = s.buf ∧ t.idx = s.idx ∧ t.phase = s.phase ∧
      t.trace = s.trace ++ ev ∧ OnlyMac ev ∧ digestsOf ev = 1 := by
  cases hk : (s.adapter h).key with
  | none => rw [mac_keyless c h parts s hk] at e; exact absurd e (by simp)
  | some k =>
    rw [mac_keyed c h parts s k (s.adapter h).pend (by rw [← hk])] at e
    obtain ⟨rfl, rfl⟩ := Prod.mk.inj (Except.ok.inj e)
    refine ⟨k, _, rfl, rfl, ?_, ?_, ?_, ?_, ?_, ?_, ?_, ?_, rfl, ?_, ?_⟩
    · cases h <;> simp_all [MacFrame, SamePorts, State.setAdapter, State.adapter]
    · cases h <;> rfl
    · intro g n; cases h <;> cases g <;> first | rfl | exact absurd rfl n
    all_goals try (cases h <;> rfl)
    · intro v hv
      simp only [List.mem_append, List.mem_map, List.mem_cons, List.not_mem_nil, or_false] at hv
      rcases hv with ⟨m, _, rfl⟩ | rfl | rfl <;> exact ⟨_, _, _, rfl⟩
    · rw [digestsOf_append]
      have : digestsOf (parts.map fun m => Event.mac h (.update m 0 m.length) .nothing) = 0 := by simp [digestsOf]
      rw [this]; rfl

/-- A record of MAC work: the phases it writes, no response, beat or drawn byte, and `n` MAC_DIGESTs. -/
def MacRecord (ev : List Event) (ps : List Phase) (n : Nat) : Prop :=
  responsesOf ev = [] ∧ beatsOf ev = [] ∧ drawnBytes ev = [] ∧ phasesOf ev = ps ∧ digestsOf ev = n

theorem MacRecord.nil : MacRecord [] [] 0 := ⟨rfl, rfl, rfl, rfl, rfl⟩

theorem MacRecord.phase (p : Phase) : MacRecord [.phase p] [p] 0 := ⟨rfl, rfl, rfl, rfl, rfl⟩

theorem MacRecord.ofMac {ev : List Event} {n : Nat} (m : OnlyMac ev) (d : digestsOf ev = n) : MacRecord ev [] n := by
  obtain ⟨h1, h2, h3, h4, -⟩ := m.projections
  exact ⟨h1, h2, h4, h3, d⟩

theorem MacRecord.append {x y : List Event} {p q : List Phase} {m n : Nat} (h : MacRecord x p m) (g : MacRecord y q n) :
    MacRecord (x ++ y) (p ++ q) (m + n) := by
  obtain ⟨h1, h2, h3, h4, h5⟩ := h
  obtain ⟨g1, g2, g3, g4, g5⟩ := g
  exact ⟨by simp [h1, g1], by simp [h2, g2], by simp [h3, g3], by simp [h4, g4], by simp [h5, g5]⟩

/-- What one block did. -/
theorem fillBlock_inv {c : Config} {h : Chain} {b : Fin h.blocks} {s t : State} (e : fillBlock c h b s = .ok t) :
    MacFrame s t ∧ (t.adapter h).pend = [] ∧ t.idx = s.idx ∧
      ∃ ev, t.trace = s.trace ++ ev ∧ MacRecord ev [outPhase h b, advPhase h b] 2 := by
  rw [fillBlock] at e
  split at e
  · exact absurd e (by simp)
  · rename_i d s1 e1
    simp only at e
    split at e
    · exact absurd e (by simp)
    · rename_i a s2 e2
      obtain rfl := Except.ok.inj e
      obtain ⟨-, ev1, -, -, f1, -, -, -, -, -, i1, -, t1, m1, d1⟩ := mac_inv e1
      obtain ⟨k2, ev2, -, -, f2, p2, -, -, -, -, i2, -, t2, m2, d2⟩ := mac_inv e2
      refine ⟨(MacFrame.setPhase _ _).trans (f1.trans ((MacFrame.setBuf _ _).trans ((MacFrame.setPhase _ _).trans
        (f2.trans (MacFrame.setChainValue _ _ _))))), by simp [p2], by simp [i2, i1],
        [.phase (outPhase h b)] ++ (ev1 ++ ([.phase (advPhase h b)] ++ ev2)), by simp [t2, t1], ?_⟩
      exact (MacRecord.phase _).append ((MacRecord.ofMac m1 d1).append ((MacRecord.phase _).append (MacRecord.ofMac m2 d2)))

/-- What the blocks `bs` of a pass did. -/
theorem fillBlocks_inv {c : Config} {h : Chain} {bs : List (Fin h.blocks)} {s t : State} (e : fillBlocks c h bs s = .ok t) :
    MacFrame s t ∧ t.idx = s.idx ∧
      ∃ ev, t.trace = s.trace ++ ev ∧ MacRecord ev (bs.flatMap fun b => [outPhase h b, advPhase h b]) (2 * bs.length) := by
  induction bs generalizing s with
  | nil => obtain rfl := Except.ok.inj e; exact ⟨MacFrame.refl _, rfl, [], by simp, MacRecord.nil⟩
  | cons b bs ih =>
    rw [fillBlocks] at e
    split at e
    · exact absurd e (by simp)
    · rename_i s1 e1
      obtain ⟨f1, -, i1, ev1, t1, m1⟩ := fillBlock_inv e1
      obtain ⟨f2, i2, ev2, t2, m2⟩ := ih e
      refine ⟨f1.trans f2, i2.trans i1, ev1 ++ ev2, by simp [t2, t1], ?_⟩
      have := m1.append m2
      rw [List.flatMap_cons, List.length_cons, show 2 * (bs.length + 1) = 2 + 2 * bs.length by omega]
      exact this

/-- What a REFILL did, from any state (R85, R89, R93). -/
theorem refill_inv {c : Config} {s t : State} (e : refill c s = .ok t) :
    MacFrame s t ∧ t.idx = 0 ∧ ∃ ev, t.trace = s.trace ++ ev ∧ MacRecord ev refillPhases 18 := by
  rw [refill] at e
  split at e
  · exact absurd e (by simp)
  · rename_i s1 e1
    split at e
    · exact absurd e (by simp)
    · rename_i s2 e2
      obtain rfl := Except.ok.inj e
      obtain ⟨f1, -, ev1, t1, m1⟩ := fillBlocks_inv e1
      obtain ⟨f2, -, ev2, t2, m2⟩ := fillBlocks_inv e2
      refine ⟨f1.trans (f2.trans (MacFrame.setIdx _ _)), rfl, ev1 ++ ev2, by simp [t2, t1], ?_⟩
      exact m1.append m2

theorem refillAndReturn_inv {c : Config} {s t : State} (e : refillAndReturn c s = .ok t) :
    MacFrame s t ∧ t.idx = 0 ∧ t.phase = s.phase ∧
      ∃ ev, t.trace = s.trace ++ ev ∧ MacRecord ev (refillPhases ++ [s.phase]) 18 := by
  rw [refillAndReturn] at e
  split at e
  · exact absurd e (by simp)
  · rename_i s1 e1
    obtain rfl := Except.ok.inj e
    obtain ⟨f1, i1, ev1, t1, m1⟩ := refill_inv e1
    exact ⟨f1.trans (MacFrame.setPhase _ _), i1, rfl, ev1 ++ [.phase s.phase], by simp [t1], m1.append (MacRecord.phase _)⟩

/-- What a draw did: with an unread byte, the buffer's byte and the cursor; else a REFILL first (R95). -/
theorem drawByte_inv {c : Config} {s t : State} {b : Byte} (e : drawByte c s = .ok (b, t)) :
    MacFrame s t ∧ t.phase = s.phase ∧
      (s.idx.val < 80 → t.idx.val = s.idx.val + 1 ∧ t.aMd5 = s.aMd5 ∧ t.aSha1 = s.aSha1 ∧ t.buf = s.buf) ∧
      (¬ s.idx.val < 80 → t.idx.val = 1) ∧
      ∃ ev, t.trace = s.trace ++ ev ∧
        MacRecord ev (if s.idx.val < 80 then [] else refillPhases ++ [s.phase]) (if s.idx.val < 80 then 0 else 18) := by
  rw [drawByte] at e
  split at e
  · rename_i r
    obtain ⟨rfl, rfl⟩ := Prod.mk.inj (Except.ok.inj e)
    exact ⟨MacFrame.setIdx _ _, rfl, fun _ => ⟨rfl, rfl, rfl, rfl⟩, fun n => absurd r n, [], by simp,
      by rw [if_pos r, if_pos r]; exact MacRecord.nil⟩
  · rename_i r
    split at e
    · exact absurd e (by simp)
    · rename_i s1 e1
      obtain ⟨rfl, rfl⟩ := Prod.mk.inj (Except.ok.inj e)
      obtain ⟨f1, -, p1, ev1, t1, m1⟩ := refillAndReturn_inv e1
      exact ⟨f1.trans (MacFrame.setIdx _ _), p1, fun h => absurd h r, fun _ => rfl, ev1, t1,
        by rw [if_neg r, if_neg r]; exact m1⟩

/-- What `n` draws to DST did, from any state (R96). -/
theorem drawTo_inv {c : Config} {a n : Nat} {s t : State} (e : drawTo c a n s = .ok t) (hp : s.phase = .draw) :
    t.init = s.init ∧ t.md5.key = s.md5.key ∧ t.sha1.key = s.sha1.key ∧ t.seed = s.seed ∧ SamePorts s t ∧
      (s.md5.pend = [] → t.md5.pend = []) ∧ (s.sha1.pend = [] → t.sha1.pend = []) ∧ t.phase = .draw ∧
      (s.idx.val + n ≤ 80 → t.aMd5 = s.aMd5 ∧ t.aSha1 = s.aSha1 ∧ t.buf = s.buf) ∧
      ∃ ev, t.trace = s.trace ++ ev ∧ t.dst = replayBeats (beatsOf ev) s.dst ∧ responsesOf ev = [] ∧
        (beatsOf ev).map Prod.fst = List.range' a n ∧
        ∀ rest, phasePath .draw (phasesOf ev ++ rest) = phasePath .draw rest := by
  induction n generalizing a s with
  | zero =>
    obtain rfl := Except.ok.inj e
    exact ⟨rfl, rfl, rfl, rfl, ⟨rfl, rfl, rfl, rfl, rfl⟩, id, id, hp, fun _ => ⟨rfl, rfl, rfl⟩, [], by simp, rfl, rfl, rfl,
      fun _ => rfl⟩
  | succ n ih =>
    rw [drawTo] at e
    split at e
    · exact absurd e (by simp)
    · rename_i b s1 e1
      obtain ⟨⟨f1, f2, f3, f4, f5, f6, f7, f8⟩, q1, q2, q3, ev1, t1, ⟨m1, m2, m3, m4, m5⟩⟩ := drawByte_inv e1
      obtain ⟨g1, g2, g3, g4, g5, g7, g8, g9, g10, ev2, t2, u1, u2, u3, u4⟩ := ih e (q1.trans hp)
      refine ⟨g1.trans f1, g2.trans f2, g3.trans f3, g4.trans f4, f5.trans g5, g7 ∘ f7, g8 ∘ f8, g9, fun hle => ?_,
        ev1 ++ ([.dst a b] ++ ev2), ?_, ?_, ?_, ?_, fun rest => ?_⟩
      · obtain ⟨x1, x2, x3, x4⟩ := q2 (by omega)
        obtain ⟨y1, y2, y3⟩ := g10 (by simp only [State.writeDst_idx]; omega)
        exact ⟨y1.trans x2, y2.trans x3, y3.trans x4⟩
      · rw [t2, State.writeDst_trace, t1]; simp
      · rw [u1, State.writeDst_dst, f6]; simp only [beatsOf_append, m2, List.nil_append]; rfl
      · simp only [responsesOf_append, m1, u2]; rfl
      · simp only [beatsOf_append, m2, List.nil_append, List.map_append, u3]
        rfl
      · have : phasesOf [Event.dst a b] = [] := rfl
        simp only [phasesOf_append, m4, this, List.nil_append, List.append_assoc]
        by_cases r : s.idx.val < 80
        · rw [if_pos r, List.nil_append, u4]
        · rw [if_neg r, hp, List.append_assoc]
          exact (show phasePath .draw (refillPhases ++ ([.draw] ++ (phasesOf ev2 ++ rest))) =
            phasePath .draw (phasesOf ev2 ++ rest) from rfl).trans (u4 rest)

/-- What INIT's commit did, from any state (R75). -/
theorem initCommit_inv {c : Config} {secret seed : Option Bytes} {s t : State} (e : initCommit c secret seed s = .ok t) :
    ∃ u ev, u = storeSeed seed (keyLoad c secret s) ∧ t.init = true ∧ t.md5.key = u.md5.key ∧ t.sha1.key = u.sha1.key ∧
      t.seed = u.seed ∧ SamePorts u t ∧ t.dst = u.dst ∧ t.phase = .idle ∧ t.idx = 0 ∧
      (u.md5.pend = [] → t.md5.pend = []) ∧ (u.sha1.pend = [] → t.sha1.pend = []) ∧
      t.trace = u.trace ++ ev ++ [.phase .respond, .response (responseWord .ok none true), .phase .idle] ∧
      MacRecord ev (.a1Md5 :: .a1Sha1 :: refillPhases) 20 := by
  rw [initCommit] at e
  generalize hu : storeSeed seed (keyLoad c secret s) = u at e
  split at e
  · exact absurd e (by simp)
  · rename_i s1 e1
    split at e
    · exact absurd e (by simp)
    · rename_i s2 e2
      split at e
      · exact absurd e (by simp)
      · rename_i s3 e3
        obtain rfl := Except.ok.inj e
        rw [firstChainValue] at e1 e2
        split at e1
        · exact absurd e1 (by simp)
        · rename_i d1 v1 m1
          split at e2
          · exact absurd e2 (by simp)
          · rename_i d2 v2 m2
            obtain rfl := Except.ok.inj e1
            obtain rfl := Except.ok.inj e2
            obtain ⟨-, ev1, -, -, f1, -, -, -, -, -, -, -, t1, o1, n1⟩ := mac_inv m1
            obtain ⟨-, ev2, -, -, f2, -, -, -, -, -, -, -, t2, o2, n2⟩ := mac_inv m2
            obtain ⟨f3, i3, ev3, t3, r3⟩ := refill_inv e3
            have f : MacFrame u s3 := (MacFrame.setPhase _ _).trans (f1.trans ((MacFrame.setChainValue _ _ _).trans
              ((MacFrame.setPhase _ _).trans (f2.trans ((MacFrame.setChainValue _ _ _).trans f3)))))
            obtain ⟨g1, g2, g3, g4, g5, g6, g7, g8⟩ := f
            refine ⟨u, [.phase .a1Md5] ++ (ev1 ++ ([.phase .a1Sha1] ++ (ev2 ++ ev3))), rfl, rfl, g2, g3, g4, g5, g6, rfl, i3,
              g7, g8, ?_, ?_⟩
            · simp [t3, t2, t1, State.finish, State.log, State.setPhase, State.setInit]
            · exact (MacRecord.phase _).append ((MacRecord.ofMac o1 n1).append ((MacRecord.phase _).append
                ((MacRecord.ofMac o2 n2).append r3)))

end Sys2Proof.Machine
end

