-- ==== Sys2Proof/Laws/Exec.lean ====
section
/-! SUPPORT. Everything a host command can do, in one lemma, from any state. -/

namespace Sys2Proof.Machine

/-- The status a command answers: a function of the command and the lifecycle flag alone (R115). -/
def commandStatus (c : Config) (i : Instr) (ready : Bool) : Status :=
  match i with
  | .init secret seed => initStatus c ready secret seed
  | .nextByte => nextByteStatus ready
  | .nextBytes dest offset length => nextBytesStatus ready dest offset length
  | .illegal _ => .illegalCmd
  | .addRandomByte _ => .ok
  | .addRandomBytes _ => .ok
  | .macInit _ _ => .ok
  | .macUpdate _ _ _ _ => .ok
  | .macDigest _ => .ok
  | .macReset _ => .ok
  | .macSize _ => .ok
  | .refill => .ok

/-- What stands in the adapters behind key load and seed store (R78). -/
theorem loaded_adapters (c : Config) (secret seed : Option Bytes) (s : State)
    (ok : ∀ x, secret = some x → secretOk c x = true) :
    (storeSeed seed (keyLoad c secret (s.setPhase .check))).md5.key = keyInForce .md5 secret s.md5.key ∧
      (storeSeed seed (keyLoad c secret (s.setPhase .check))).sha1.key = keyInForce .sha1 secret s.sha1.key ∧
      (s.md5.pend = [] → (storeSeed seed (keyLoad c secret (s.setPhase .check))).md5.pend = []) ∧
      (s.sha1.pend = [] → (storeSeed seed (keyLoad c secret (s.setPhase .check))).sha1.pend = []) := by
  cases secret with
  | none => cases seed <;> exact ⟨rfl, rfl, id, id⟩
  | some x => rw [keyLoad_some c x _ (ok x rfl)]; cases seed <;> exact ⟨rfl, rfl, fun _ => rfl, fun _ => rfl⟩

/-- A result that runs on is a next state. -/
theorem outcomeOf_next {r : Except Fault State} {t : State} (e : outcomeOf r = .next t) : r = .ok t := by
  cases r with
  | error f => exact absurd e (by simp [outcomeOf])
  | ok u => simp only [outcomeOf] at e; rw [Host.Outcome.next.inj e]

/-- The lifecycle flag behind a command that answers OK (R16). -/
def initAfter : Instr → Bool → Bool
  | .init _ _, _ => true
  | _, b => b

/-- The key of chain `h` behind a command that answers OK (R11). -/
def keyAfter (h : Chain) : Instr → Option Bytes → Option Bytes
  | .init secret _, old => keyInForce h secret old
  | _, old => old

/-- The seed behind a command that answers OK (R12). -/
def seedAfter : Instr → Bytes → Bytes
  | .init _ seed, old => seed.getD old
  | _, old => old

/-- The addresses a command that answers OK writes, in order (R42). -/
def beatAddresses : Instr → List Nat
  | .nextBytes _ offset length => List.range' offset.toNat length.toNat
  | _ => []

/-- What a command that answers OK did: `ev` is its record between CHECK and RESPOND, `data` its drawn byte. -/
structure OkEffect (i : Instr) (s t : State) (ev : List Event) (data : Option Byte) : Prop where
  trace : t.trace = s.trace ++
    ([.phase .check] ++ ev ++ [.phase .respond, .response (responseWord .ok data t.init), .phase .idle])
  noResponse : responsesOf ev = []
  phase : t.phase = .idle
  ports : SamePorts s t
  path : phasePath .check (phasesOf ev ++ [.respond, .idle]) = true
  hasData : data.isSome = true ↔ i = .nextByte
  dst : t.dst = replayBeats (beatsOf ev) s.dst
  beats : (beatsOf ev).map Prod.fst = beatAddresses i
  init : t.init = initAfter i s.init
  md5Key : t.md5.key = keyAfter .md5 i s.md5.key
  sha1Key : t.sha1.key = keyAfter .sha1 i s.sha1.key
  seed : t.seed = seedAfter i s.seed
  md5Idle : s.md5.pend = [] → t.md5.pend = []
  sha1Idle : s.sha1.pend = [] → t.sha1.pend = []

/-- A host command that answers a next state: either it only answered its error, or it answered OK with its effect. -/
theorem host_inv {i : Instr} {s t : State} (hi : isHostCommand i = true) (e : exec i s = .next t) :
    (commandStatus config i s.init ≠ .ok ∧ t = answered (commandStatus config i s.init) s) ∨
      (commandStatus config i s.init = .ok ∧ ∃ ev data, OkEffect i s t ev data) := by
  by_cases hst : commandStatus config i s.init = .ok
  · refine .inr ⟨hst, ?_⟩
    cases i with
    | init secret seed =>
      have e := outcomeOf_next e
      rw [initWith_ok config secret seed s hst] at e
      obtain ⟨u, ev, hu, h1, h2, h3, h4, h5, h6, h7, h8, h9, h10, h11, m1, m2, m3, m4, m5⟩ := initCommit_inv e
      have ok := ((initStatus_ok config _ _ _).mp hst).2.1
      obtain ⟨l1, l2, l3, l4⟩ := loaded_fields config secret seed s ok
      rw [← hu] at l1 l2 l3 l4
      have lk : u.md5.key = keyInForce .md5 secret s.md5.key ∧ u.sha1.key = keyInForce .sha1 secret s.sha1.key ∧
          (s.md5.pend = [] → u.md5.pend = []) ∧ (s.sha1.pend = [] → u.sha1.pend = []) := by
        subst hu
        exact loaded_adapters config secret seed s ok
      obtain ⟨lk1, lk2, lk3, lk4⟩ := lk
      have lr : responsesOf (keyLoadRecord secret) = [] ∧ beatsOf (keyLoadRecord secret) = [] ∧
          phasePath .check (phasesOf (keyLoadRecord secret) ++ (.a1Md5 :: .a1Sha1 :: refillPhases ++ [.respond, .idle])) = true := by
        cases secret <;> exact ⟨rfl, rfl, rfl⟩
      obtain ⟨lr1, lr2, lr3⟩ := lr
      refine ⟨keyLoadRecord secret ++ ev, none, ?_, ?_, h7, l3.trans h5, ?_, by simp, ?_, ?_, h1, ?_, ?_, ?_, ?_, ?_⟩
      · rw [h11, l4, h1]; simp
      · rw [responsesOf_append, lr1, m1]; rfl
      · rw [phasesOf_append, m4, List.append_assoc]; exact lr3
      · rw [h6, l2, beatsOf_append, lr2, m2]; rfl
      · rw [beatsOf_append, lr2, m2]; rfl
      · exact h2.trans lk1
      · exact h3.trans lk2
      · exact h4.trans l1
      · exact h9 ∘ lk3
      · exact h10 ∘ lk4
    | nextByte =>
      have e := outcomeOf_next e
      have hst' : nextByteStatus s.init = .ok := hst
      rw [nextByteWith, hst'] at e
      simp only at e
      split at e
      · exact absurd e (by simp)
      · rename_i b s1 e1
        obtain rfl := Except.ok.inj e
        obtain ⟨⟨f1, f2, f3, f4, f5, f6, f7, f8⟩, q1, -, -, ev, t1, m1, m2, m3, m4, m5⟩ := drawByte_inv e1
        refine ⟨[.phase .draw] ++ ev, some b, ?_, ?_, rfl, f5, ?_, by simp, ?_, ?_, f1, f2, f3, f4, f7, f8⟩
        · rw [State.finish_trace, t1]; simp
        · rw [responsesOf_append, m1]; rfl
        · rw [phasesOf_append, m4]
          split <;> rfl
        · rw [State.finish_dst, f6, beatsOf_append, m2]; rfl
        · rw [beatsOf_append, m2]; rfl
    | nextBytes dest offset length =>
      have e := outcomeOf_next e
      have hst' : nextBytesStatus s.init dest offset length = .ok := hst
      rw [nextBytesWith, hst'] at e
      simp only at e
      split at e
      · exact absurd e (by simp)
      · rename_i s1 e1
        obtain rfl := Except.ok.inj e
        obtain ⟨f1, f2, f3, f4, f5, f7, f8, -, -, ev, t1, u1, u2, u3, u4⟩ := drawTo_inv e1 rfl
        refine ⟨[.phase .draw] ++ ev, none, ?_, ?_, rfl, f5, ?_, by simp, ?_, ?_, f1, f2, f3, f4, f7, f8⟩
        · rw [State.finish_trace, t1]; simp
        · rw [responsesOf_append, u2]; rfl
        · rw [phasesOf_append, List.append_assoc]
          exact (show phasePath .check ([.draw] ++ (phasesOf ev ++ [.respond, .idle])) = phasePath .draw (phasesOf ev ++ [.respond, .idle])
            from by simp [phasePath, phaseRow]).trans (u4 _)
        · rw [State.finish_dst, u1, beatsOf_append]; rfl
        · rw [beatsOf_append, List.map_append, u3]; rfl
    | addRandomByte b =>
      obtain rfl := Host.Outcome.next.inj e
      exact ⟨[], none, by simp [State.finish, State.setPhase, State.log], rfl, rfl, ⟨rfl, rfl, rfl, rfl, rfl⟩, rfl, by simp, rfl,
        rfl, rfl, rfl, rfl, rfl, id, id⟩
    | addRandomBytes bs =>
      obtain rfl := Host.Outcome.next.inj e
      exact ⟨[], none, by simp [State.finish, State.setPhase, State.log], rfl, rfl, ⟨rfl, rfl, rfl, rfl, rfl⟩, rfl, by simp, rfl,
        rfl, rfl, rfl, rfl, rfl, id, id⟩
    | illegal opc => exact absurd hst (by simp [commandStatus])
    | _ => exact absurd hi (by simp [isHostCommand])
  · refine .inl ⟨hst, ?_⟩
    cases i with
    | init secret seed => exact Except.ok.inj ((outcomeOf_next e).symm.trans (initWith_error config secret seed s hst))
    | nextByte =>
      have : s.init = false := by
        cases h : s.init
        · rfl
        · exact absurd (by simp [commandStatus, nextByteStatus, h]) hst
      rw [show commandStatus config .nextByte s.init = .illegalState by simp [commandStatus, nextByteStatus, this]]
      exact Except.ok.inj ((outcomeOf_next e).symm.trans (nextByteWith_uninit config s this))
    | nextBytes dest offset length =>
      exact Except.ok.inj ((outcomeOf_next e).symm.trans (nextBytesWith_error config dest offset length s hst))
    | illegal opc => exact (Host.Outcome.next.inj e).symm.trans (raiseError_answered .illegalCmd s)
    | addRandomByte b => exact absurd rfl hst
    | addRandomBytes bs => exact absurd rfl hst
    | _ => exact absurd hi (by simp [isHostCommand])

end Sys2Proof.Machine
end

