-- ==== Sys2Proof/Laws/Congruence.lean ====
section
/-! SUPPORT. No meaning reads the record, the reset count or the DST memory: two states alike but for those run alike. -/

namespace Sys2Proof.Machine

/-- Two states that differ at most in the record, the reset count and the DST memory: nothing an operation reads. -/
def Sim (s s' : State) : Prop := ∃ T r m, s' = { s with trace := T, resets := r, dst := m }

/-- An operation with a result looks at nothing but what `Sim` keeps, and appends the same events. -/
def LiftOut {α : Type} (f : State → Except Fault (α × State)) : Prop :=
  ∀ s s' a t, Sim s s' → f s = .ok (a, t) →
    ∃ t' ev, f s' = .ok (a, t') ∧ Sim t t' ∧ t.trace = s.trace ++ ev ∧ t'.trace = s'.trace ++ ev

/-- The same of an operation without a result. -/
def LiftStep (f : State → Except Fault State) : Prop :=
  ∀ s s' t, Sim s s' → f s = .ok t →
    ∃ t' ev, f s' = .ok t' ∧ Sim t t' ∧ t.trace = s.trace ++ ev ∧ t'.trace = s'.trace ++ ev

/-- The same of an operation that cannot stop. -/
def LiftPure (f : State → State) : Prop :=
  ∀ s s', Sim s s' → ∃ ev, Sim (f s) (f s') ∧ (f s).trace = s.trace ++ ev ∧ (f s').trace = s'.trace ++ ev

theorem mac_lift (c : Config) (h : Chain) (parts : List Bytes) : LiftOut (mac c h parts) := by
  rintro s s' d t ⟨T, r, m, rfl⟩ e
  cases hk : (s.adapter h).key with
  | none => rw [mac_keyless c h parts s hk] at e; exact absurd e (by simp)
  | some k =>
    rw [mac_keyed c h parts s k (s.adapter h).pend (by rw [← hk])] at e
    rw [mac_keyed c h parts _ k (s.adapter h).pend (by rw [← hk]; cases h <;> rfl)]
    obtain ⟨rfl, rfl⟩ := Prod.mk.inj (Except.ok.inj e)
    cases h <;> exact ⟨_, _, rfl, ⟨_, r, m, rfl⟩, rfl, rfl⟩

theorem LiftStep.comp {f g : State → Except Fault State} (hf : LiftStep f) (hg : LiftStep g) :
    LiftStep (fun s => match f s with | .error e => .error e | .ok t => g t) := by
  intro s s' t h e
  simp only at e
  split at e
  · exact absurd e (by simp)
  · rename_i u hu
    obtain ⟨u', ev1, h1, h2, h3, h4⟩ := hf s s' u h hu
    obtain ⟨t', ev2, k1, k2, k3, k4⟩ := hg u u' t h2 e
    exact ⟨t', ev1 ++ ev2, by simp [h1, k1], k2, by rw [k3, h3, List.append_assoc], by rw [k4, h4, List.append_assoc]⟩

theorem lift_ok : LiftStep (fun s => .ok s) := by
  intro s s' t h e
  obtain rfl := Except.ok.inj e
  exact ⟨s', [], rfl, h, by simp, by simp⟩

theorem lift_pure {f : State → State} (hf : LiftPure f) : LiftStep (fun s => .ok (f s)) := by
  intro s s' t h e
  obtain rfl := Except.ok.inj e
  obtain ⟨ev, h1, h2, h3⟩ := hf s s' h
  exact ⟨_, ev, rfl, h1, h2, h3⟩

theorem lift_phase (p : Phase) : LiftPure (State.setPhase p) := by
  rintro s s' ⟨T, r, m, rfl⟩
  exact ⟨[.phase p], ⟨_, r, m, rfl⟩, rfl, rfl⟩
theorem lift_idx (i : Fin 81) : LiftPure (State.setIdx i) := by
  rintro s s' ⟨T, r, m, rfl⟩
  exact ⟨[], ⟨T, r, m, rfl⟩, by simp, by simp⟩

theorem fillBlock_lift (c : Config) (h : Chain) (k : Fin h.blocks) : LiftStep (fillBlock c h k) := by
  intro s s' t hs e
  rw [fillBlock] at e
  split at e
  · exact absurd e (by simp)
  · rename_i d s1 e1
    simp only at e
    split at e
    · exact absurd e (by simp)
    · rename_i a s2 e2
      obtain rfl := Except.ok.inj e
      have q1 : (s'.chainValue h) = s.chainValue h := by obtain ⟨T, r, m, rfl⟩ := hs; cases h <;> rfl
      have q2 : s'.seed = s.seed := by obtain ⟨T, r, m, rfl⟩ := hs; rfl
      obtain ⟨ev0, p1, p2, p3⟩ := lift_phase (outPhase h k) s s' hs
      obtain ⟨s1', ev1, m1, m2, m3, m4⟩ := mac_lift _ _ _ _ _ _ _ p1 e1
      have b : Sim ((s1.setBuf (putBlock h k d s1.buf)).setPhase (advPhase h k))
          ((s1'.setBuf (putBlock h k d s1'.buf)).setPhase (advPhase h k)) := by
        obtain ⟨T, r, m, rfl⟩ := m2; exact ⟨_, r, m, rfl⟩
      obtain ⟨s2', ev2, n1, n2, n3, n4⟩ := mac_lift _ _ _ _ _ _ _ b e2
      have q3 : ((s1'.setBuf (putBlock h k d s1'.buf)).setPhase (advPhase h k)).chainValue h =
          ((s1.setBuf (putBlock h k d s1.buf)).setPhase (advPhase h k)).chainValue h := by
        obtain ⟨T, r, m, rfl⟩ := m2; cases h <;> rfl
      refine ⟨s2'.setChainValue h a, ev0 ++ ev1 ++ [.phase (advPhase h k)] ++ ev2, ?_, ?_, ?_, ?_⟩
      · rw [fillBlock, q1, q2, m1]; simp only; rw [q3, n1]
      · obtain ⟨T, r, m, rfl⟩ := n2; exact ⟨T, r, m, by cases h <;> rfl⟩
      · have : (s2.setChainValue h a).trace = s2.trace := by cases h <;> rfl
        have x : ∀ (u : State) v p, ((u.setBuf v).setPhase p).trace = u.trace ++ [.phase p] := fun _ _ _ => rfl
        rw [this, n3, x, m3, p2]; simp only [List.append_assoc]
      · have : (s2'.setChainValue h a).trace = s2'.trace := by cases h <;> rfl
        have x : ∀ (u : State) v p, ((u.setBuf v).setPhase p).trace = u.trace ++ [.phase p] := fun _ _ _ => rfl
        rw [this, n4, x, m4, p3]; simp only [List.append_assoc]

theorem fillBlocks_lift (c : Config) (h : Chain) (ks : List (Fin h.blocks)) : LiftStep (fillBlocks c h ks) := by
  induction ks with
  | nil => exact lift_ok
  | cons k ks ih => exact LiftStep.comp (fillBlock_lift c h k) ih

theorem refill_lift (c : Config) : LiftStep (refill c) :=
  LiftStep.comp (fillBlocks_lift c .md5 _) (LiftStep.comp (fillBlocks_lift c .sha1 _) (lift_pure (lift_idx 0)))

theorem refillAndReturn_lift (c : Config) : LiftStep (refillAndReturn c) := by
  intro s s' t hs e
  have : s'.phase = s.phase := by obtain ⟨T, r, m, rfl⟩ := hs; rfl
  have := LiftStep.comp (refill_lift c) (lift_pure (lift_phase s.phase)) s s' t hs e
  rw [refillAndReturn, ‹s'.phase = s.phase›]; exact this

theorem drawByte_lift (c : Config) : LiftOut (drawByte c) := by
  intro s s' b t hs e
  have q : s'.idx = s.idx := by obtain ⟨T, r, m, rfl⟩ := hs; rfl
  rw [drawByte] at e
  split at e
  · rename_i r
    obtain ⟨rfl, rfl⟩ := Prod.mk.inj (Except.ok.inj e)
    obtain ⟨T, r', m, rfl⟩ := hs
    exact ⟨_, [], by rw [drawByte, dif_pos r]; rfl, ⟨T, r', m, rfl⟩, by simp, by simp⟩
  · rename_i r
    split at e
    · exact absurd e (by simp)
    · rename_i s1 e1
      obtain ⟨rfl, rfl⟩ := Prod.mk.inj (Except.ok.inj e)
      obtain ⟨s1', ev, m1, m2, m3, m4⟩ := refillAndReturn_lift c s s' s1 hs e1
      have r' : ¬ s'.idx.val < 80 := by rw [q]; exact r
      have : (deliver 0 s1').1 = (deliver 0 s1).1 := by obtain ⟨T, r, m, rfl⟩ := m2; rfl
      refine ⟨(deliver 0 s1').2, ev, ?_, ?_, m3, m4⟩
      · rw [drawByte, dif_neg r', m1]; exact congrArg (fun b => Except.ok (b, (deliver 0 s1').2)) this
      · obtain ⟨T, r, m, rfl⟩ := m2; exact ⟨T, r, m, rfl⟩

theorem drawTo_lift (c : Config) (a n : Nat) : LiftStep (drawTo c a n) := by
  induction n generalizing a with
  | zero => exact lift_ok
  | succ n ih =>
    intro s s' t hs e
    rw [drawTo] at e
    split at e
    · exact absurd e (by simp)
    · rename_i b s1 e1
      obtain ⟨s1', ev, m1, m2, m3, m4⟩ := drawByte_lift c s s' b s1 hs e1
      have w : Sim (s1.writeDst a b) (s1'.writeDst a b) := by obtain ⟨T, r, m, rfl⟩ := m2; exact ⟨_, r, _, rfl⟩
      obtain ⟨t', ev2, n1, n2, n3, n4⟩ := ih (a + 1) _ _ t w e
      exact ⟨t', ev ++ [.dst a b] ++ ev2, by rw [drawTo, m1]; exact n1, n2, by rw [n3]; simp [m3], by rw [n4]; simp [m4]⟩

theorem lift_finish (st : Status) (d : Option Byte) : LiftPure (State.finish st d) := by
  rintro s s' ⟨T, r, m, rfl⟩
  exact ⟨[.phase .respond, .response (responseWord st d s.init), .phase .idle], ⟨_, r, m, rfl⟩, by simp, by simp⟩

theorem firstChainValue_lift (c : Config) (h : Chain) : LiftStep (firstChainValue c h) := by
  intro s s' t hs e
  have q2 : s'.seed = s.seed := by obtain ⟨T, r, m, rfl⟩ := hs; rfl
  rw [firstChainValue] at e
  split at e
  · exact absurd e (by simp)
  · rename_i a s1 e1
    obtain rfl := Except.ok.inj e
    obtain ⟨s1', ev, m1, m2, m3, m4⟩ := mac_lift _ _ _ _ _ _ _ hs e1
    refine ⟨s1'.setChainValue h a, ev, by rw [firstChainValue, q2, m1], ?_, ?_, ?_⟩
    · obtain ⟨T, r, m, rfl⟩ := m2; exact ⟨T, r, m, by cases h <;> rfl⟩
    · rw [← m3]; cases h <;> rfl
    · rw [← m4]; cases h <;> rfl

theorem macInit_lift (c : Config) (h : Chain) (k : Bytes) : LiftPure (macInit c h k) := by
  rintro s s' ⟨T, r, m, rfl⟩
  unfold macInit
  split
  · exact ⟨[.mac h (.init k) .accepted],
      ⟨T ++ [.mac h (.init k) .accepted], r, m, by cases h <;> rfl⟩, by cases h <;> rfl, by cases h <;> rfl⟩
  · exact ⟨_, ⟨_, r, m, rfl⟩, rfl, rfl⟩

theorem LiftPure.comp {f g : State → State} (hf : LiftPure f) (hg : LiftPure g) : LiftPure (fun s => g (f s)) := by
  intro s s' h
  obtain ⟨e1, a1, a2, a3⟩ := hf s s' h
  obtain ⟨e2, b1, b2, b3⟩ := hg _ _ a1
  exact ⟨e1 ++ e2, b1, by rw [b2, a2, List.append_assoc], by rw [b3, a3, List.append_assoc]⟩

theorem LiftStep.pre {f : State → State} {g : State → Except Fault State} (hf : LiftPure f) (hg : LiftStep g) : LiftStep (fun s => g (f s)) := by
  intro s s' t h e
  obtain ⟨e1, a1, a2, a3⟩ := hf s s' h
  obtain ⟨t', e2, b0, b1, b2, b3⟩ := hg _ _ t a1 e
  exact ⟨t', e1 ++ e2, b0, b1, by rw [b2, a2, List.append_assoc], by rw [b3, a3, List.append_assoc]⟩

theorem keyLoad_lift (c : Config) (x : Option Bytes) : LiftPure (keyLoad c x) := by
  cases x with
  | none => intro s s' h; exact ⟨[], h, by simp [keyLoad], by simp [keyLoad]⟩
  | some x =>
    have := LiftPure.comp (LiftPure.comp (lift_phase .keyload) (macInit_lift c .md5 (halfFor .md5 x)))
      (macInit_lift c .sha1 (halfFor .sha1 x))
    exact this

theorem storeSeed_lift (x : Option Bytes) : LiftPure (storeSeed x) := by
  cases x with
  | none => intro s s' h; exact ⟨[], h, by simp [storeSeed], by simp [storeSeed]⟩
  | some x =>
    rintro s s' ⟨T, r, m, rfl⟩
    exact ⟨[], ⟨T, r, m, rfl⟩, by simp [storeSeed, State.setSeed], by simp [storeSeed, State.setSeed]⟩

theorem lift_setInit (b : Bool) : LiftPure (State.setInit b) := by
  rintro s s' ⟨T, r, m, rfl⟩
  exact ⟨[], ⟨T, r, m, rfl⟩, by simp, by simp⟩

theorem initCommit_lift (c : Config) (x d : Option Bytes) : LiftStep (initCommit c x d) := 
  LiftStep.comp (LiftStep.pre (LiftPure.comp (LiftPure.comp (keyLoad_lift c x) (storeSeed_lift d)) (lift_phase .a1Md5))
      (firstChainValue_lift c .md5))
   (LiftStep.comp (LiftStep.pre (lift_phase .a1Sha1) (firstChainValue_lift c .sha1))
    (LiftStep.comp (refill_lift c) (lift_pure (LiftPure.comp (lift_setInit true) (lift_finish .ok none)))))

theorem initWith_lift (c : Config) (x d : Option Bytes) : LiftStep (initWith c x d) := by
  intro s s' t hs e
  have q : s'.init = s.init := by obtain ⟨T, r, m, rfl⟩ := hs; rfl
  rw [initWith] at e
  rw [initWith, q]
  split at e
  · exact LiftStep.pre (lift_phase .check) (initCommit_lift c x d) s s' t hs e
  · exact lift_pure (LiftPure.comp (lift_phase .check) (lift_finish _ none)) s s' t hs e

theorem nextByteWith_lift (c : Config) : LiftStep (nextByteWith c) := by
  intro s s' t hs e
  have q : s'.init = s.init := by obtain ⟨T, r, m, rfl⟩ := hs; rfl
  rw [nextByteWith] at e
  rw [nextByteWith, q]
  split at e
  · split at e
    · exact absurd e (by simp)
    · rename_i b s1 e1
      obtain ⟨ev0, p1, p2, p3⟩ := LiftPure.comp (lift_phase .check) (lift_phase .draw) s s' hs
      obtain ⟨s1', ev, m1, m2, m3, m4⟩ := drawByte_lift c _ _ b s1 p1 e1
      obtain ⟨t', ev2, n1, n2, n3, n4⟩ := lift_pure (lift_finish .ok (some b)) s1 s1' t m2 e
      simp only [m1]
      exact ⟨t', ev0 ++ ev ++ ev2, n1, n2, by rw [n3, m3, p2]; simp, by rw [n4, m4, p3]; simp⟩
  · exact lift_pure (LiftPure.comp (lift_phase .check) (lift_finish _ none)) s s' t hs e

theorem nextBytesWith_lift (c : Config) (x : Option Nat) (o l : Int) : LiftStep (nextBytesWith c x o l) := by
  intro s s' t hs e
  have q : s'.init = s.init := by obtain ⟨T, r, m, rfl⟩ := hs; rfl
  rw [nextBytesWith] at e
  rw [nextBytesWith, q]
  split at e
  · exact LiftStep.comp (LiftStep.pre (LiftPure.comp (lift_phase .check) (lift_phase .draw)) (drawTo_lift c o.toNat l.toNat))
      (lift_pure (lift_finish .ok none)) s s' t hs e
  · exact lift_pure (LiftPure.comp (lift_phase .check) (lift_finish _ none)) s s' t hs e

theorem lift_needKey {h : Chain} {f : State → State} (hf : LiftPure f) :
    LiftStep (fun s => (needKey h s).map fun _ => f s) := by
  intro s s' t hs e
  obtain ⟨k, hk, rfl⟩ := needKey_map_inv e
  have q : (s'.adapter h).key = some k := by obtain ⟨T, r, m, rfl⟩ := hs; cases h <;> exact hk
  obtain ⟨ev, h1, h2, h3⟩ := hf s s' hs
  exact ⟨f s', ev, by simp only; rw [needKey_keyed q]; rfl, h1, h2, h3⟩

theorem appendRange_lift (h : Chain) (b : Bytes) (o l : Int) : LiftPure (appendRange h b o l) := by
  rintro s s' ⟨T, r, m, rfl⟩
  unfold appendRange
  split
  · exact ⟨_, ⟨_, r, m, rfl⟩, rfl, rfl⟩
  · exact ⟨[.mac h (.update b o l) .nothing],
      ⟨T ++ [.mac h (.update b o l) .nothing], r, m, by cases h <;> rfl⟩, by cases h <;> rfl, by cases h <;> rfl⟩

/-- The meaning of `i` looks at nothing but what `Sim` keeps, and appends the same events. -/
def ExecLift (i : Instr) : Prop :=
  ∀ s s' t, Sim s s' → exec i s = .next t →
    ∃ t' ev, exec i s' = .next t' ∧ Sim t t' ∧ t.trace = s.trace ++ ev ∧ t'.trace = s'.trace ++ ev

theorem ExecLift.ofLiftStep {i : Instr} {f : State → Except Fault State} (h : LiftStep f) (e : ∀ s, exec i s = outcomeOf (f s)) : ExecLift i := by
  intro s s' t hs ht
  rw [e] at ht
  obtain ⟨t', ev, a, b⟩ := h s s' t hs (outcomeOf_next ht)
  exact ⟨t', ev, by rw [e, a]; rfl, b⟩

/-- Every meaning looks at nothing but what `Sim` keeps. -/
theorem exec_lift (i : Instr) : ExecLift i := by
  cases i with
  | init a b => exact ExecLift.ofLiftStep (initWith_lift config a b) (fun _ => rfl)
  | nextByte => exact ExecLift.ofLiftStep (nextByteWith_lift config) (fun _ => rfl)
  | nextBytes a b c => exact ExecLift.ofLiftStep (nextBytesWith_lift config a b c) (fun _ => rfl)
  | addRandomByte b => exact ExecLift.ofLiftStep (lift_pure (LiftPure.comp (lift_phase .check) (lift_finish .ok none))) (fun _ => rfl)
  | addRandomBytes b => exact ExecLift.ofLiftStep (lift_pure (LiftPure.comp (lift_phase .check) (lift_finish .ok none))) (fun _ => rfl)
  | illegal b => exact ExecLift.ofLiftStep (lift_pure (LiftPure.comp (lift_phase .check) (lift_finish .illegalCmd none))) (fun _ => rfl)
  | macInit h k => exact ExecLift.ofLiftStep (lift_pure (macInit_lift config h k)) (fun _ => rfl)
  | macUpdate h b o l => exact ExecLift.ofLiftStep (lift_needKey (appendRange_lift h b o l)) (fun _ => rfl)
  | macReset h => 
    refine ExecLift.ofLiftStep (lift_needKey (f := clearPending h) ?_) (fun _ => rfl)
    rintro s s' ⟨T, r, m, rfl⟩
    exact ⟨[.mac h .reset .nothing],
      ⟨T ++ [.mac h .reset .nothing], r, m, by cases h <;> rfl⟩, by cases h <;> rfl, by cases h <;> rfl⟩
  | macSize h =>
    refine ExecLift.ofLiftStep (lift_pure (f := macSize h) ?_) (fun _ => rfl)
    rintro s s' ⟨T, r, m, rfl⟩
    exact ⟨_, ⟨_, r, m, rfl⟩, rfl, rfl⟩
  | refill => exact ExecLift.ofLiftStep (refillAndReturn_lift config) (fun _ => rfl)
  | macDigest h =>
    intro s s' t hs e
    obtain ⟨k, hk, rfl⟩ := macDigest_inv (outcomeOf_next e)
    obtain ⟨T, r, m, rfl⟩ := hs
    have q : ({ s with trace := T, resets := r, dst := m } : State).adapter h = s.adapter h := by cases h <;> rfl
    simp only [exec, execMacDigest]
    rw [macDigest_keyed (k := k) (by rw [q, hk]), q]
    exact ⟨_, _, rfl, ⟨_, r, m, rfl⟩, rfl, rfl⟩

end Sys2Proof.Machine
end

