-- ==== Sys2Proof/Laws/Decode.lean ====
section
/-! SUPPORT. The fields of the words the encoder writes, and the shape of its packets. -/

namespace Sys2Proof

theorem fieldOpc_header (opc : Byte) (hs hd dp : Bool) : fieldOpc (header opc hs hd dp) = opc := by
  revert opc hs hd dp; decide +kernel

theorem fieldHS_header (opc : Byte) (hs hd dp : Bool) : fieldHS (header opc hs hd dp) = hs := by
  revert opc hs hd dp; decide +kernel

theorem fieldHD_header (opc : Byte) (hs hd dp : Bool) : fieldHD (header opc hs hd dp) = hd := by
  revert opc hs hd dp; decide +kernel

theorem fieldDP_header (opc : Byte) (hs hd dp : Bool) : fieldDP (header opc hs hd dp) = dp := by
  revert opc hs hd dp; decide +kernel

/-- An unsigned word carries its number (R53). -/
theorem uint_ofNat (n : Nat) (h : n < 2 ^ 32) : uint (BitVec.ofNat 32 n) = n := by
  simp only [uint, BitVec.toNat_ofNat]; omega

/-- `sint` is the two's complement value. -/
theorem sint_eq_toInt (w : Word) : sint w = w.toInt := by
  rw [sint, BitVec.toInt_eq_msb_cond]
  have : w.msb = w.getLsbD 31 := by simp [BitVec.msb_eq_getLsbD_last]
  rw [this]
  rfl

/-- A signed word carries its number (R53). -/
theorem sint_ofInt (x : Int) (h : fitsSignedWord x = true) : sint (BitVec.ofInt 32 x) = x := by
  simp only [fitsSignedWord, Bool.and_eq_true, decide_eq_true_eq] at h
  rw [sint_eq_toInt, BitVec.toInt_ofInt]
  simp only [Int.bmod]
  omega

/-- A byte in the low bits of a word (R51). -/
theorem low_byte_setWidth (b : Byte) : (b.setWidth 32).extractLsb' 0 8 = b := by
  revert b; decide +kernel

/-- A word's bytes, put together again (R34 (f)). -/
theorem bytesToWord_wordToBytes (w : Word) :
    bytesToWord (w.extractLsb' 0 8) (w.extractLsb' 8 8) (w.extractLsb' 16 8) (w.extractLsb' 24 8) = w := by
  apply BitVec.eq_of_getLsbD_eq
  intro i hi
  simp only [bytesToWord]
  repeat rw [BitVec.getLsbD_append]
  simp only [BitVec.getLsbD_extractLsb']
  grind

/-- Words taken off a byte stream that begins with them. -/
theorem takeWords_flatMap (ws : List Word) (bs : Bytes) :
    takeWords ws.length (ws.flatMap wordToBytes ++ bs) = some (ws, bs) := by
  induction ws with
  | nil => rfl
  | cons w ws ih =>
    simp only [List.length_cons, List.flatMap_cons, wordToBytes, List.cons_append, List.nil_append, takeWords] at *
    rw [ih, bytesToWord_wordToBytes]
    rfl

/-- A fetch off a stream that begins with a whole packet (R45, R57). -/
theorem fetch_whole (w0 : Word) (ops ws : List Word) (p bs : Bytes) (h1 : ops.length = operandWords (fieldOpc w0))
    (h2 : p.length = payloadLength w0 ops) :
    fetch (w0 :: (ops ++ ws)) (p ++ bs) = .command (decodeCommand w0 ops p) ws bs := by
  simp only [fetch, List.length_append]
  rw [← h1, if_neg (by omega), List.take_left' rfl, ← h2, if_neg (by omega), List.take_left' rfl, List.drop_left' rfl,
    List.drop_left' rfl]

end Sys2Proof
end

