-- ==== Sys2Proof/Laws/PerInstr.lean ====
section
/-! SUPPORT. Facts of every instruction as syntax, one lemma per constructor. Family WireSize: a well-formed
instruction's packet is a header, as many operand words and as many payload bytes as R57 reads from them. -/

namespace Sys2Proof.Laws.WireSize

/-- The packet has R57's lengths. -/
def Statement (i : Instr) : Prop :=
  i.wellFormed = true → ∀ p, encodePacket i = some p →
    ∃ w0 ops, p.words = w0 :: ops ∧ ops.length = operandWords (fieldOpc w0) ∧ p.payload.length = payloadLength w0 ops

theorem init (secret seed : Option Bytes) : Statement (.init secret seed) := by
  intro wf p hp
  simp only [Instr.wellFormed, Bool.and_eq_true] at wf
  obtain rfl := Option.some.inj hp
  refine ⟨_, _, rfl, by simp [fieldOpc_header, operandWords], ?_⟩
  cases secret <;> cases seed <;> simp_all [payloadLength, fieldOpc_header, secretBytes, seedBytes, fieldHS_header,
    fieldHD_header, fitsLengthWord, uint_ofNat]

theorem nextByte : Statement .nextByte := by
  intro _ p hp
  obtain rfl := Option.some.inj hp
  exact ⟨_, _, rfl, rfl, rfl⟩

theorem nextBytes (dest : Option Nat) (offset length : Int) : Statement (.nextBytes dest offset length) := by
  intro _ p hp
  obtain rfl := Option.some.inj hp
  refine ⟨_, _, rfl, ?_, ?_⟩ <;> simp [fieldOpc_header, operandWords, payloadLength]

theorem addRandomByte (b : Byte) : Statement (.addRandomByte b) := by
  intro _ p hp
  obtain rfl := Option.some.inj hp
  exact ⟨_, _, rfl, rfl, rfl⟩

theorem addRandomBytes (bs : Bytes) : Statement (.addRandomBytes bs) := by
  intro wf p hp
  simp only [Instr.wellFormed, decide_eq_true_eq] at wf
  obtain rfl := Option.some.inj hp
  refine ⟨_, _, rfl, by rw [fieldOpc_header]; rfl, ?_⟩
  simp [payloadLength, fieldOpc_header, uint_ofNat _ wf]

theorem macInit (h : Chain) (key : Bytes) : Statement (.macInit h key) := fun _ _ hp => nomatch hp

theorem macUpdate (h : Chain) (bytes : Bytes) (offset length : Int) : Statement (.macUpdate h bytes offset length) :=
  fun _ _ hp => nomatch hp

theorem macDigest (h : Chain) : Statement (.macDigest h) := fun _ _ hp => nomatch hp

theorem macReset (h : Chain) : Statement (.macReset h) := fun _ _ hp => nomatch hp

theorem macSize (h : Chain) : Statement (.macSize h) := fun _ _ hp => nomatch hp

theorem refill : Statement .refill := fun _ _ hp => nomatch hp

theorem illegal (opc : Byte) : Statement (.illegal opc) := by
  intro wf p hp
  obtain rfl := Option.some.inj hp
  refine ⟨_, _, rfl, ?_⟩
  revert opc
  decide +kernel

end Sys2Proof.Laws.WireSize
end

