-- ==== Sys2Proof/Laws/Step.lean ====
section
/-! SUPPORT. What a step can do, once; what a fetch and a MAC port can give it. -/

namespace Sys2Proof.Machine

/-- An operation of a MAC port touches nothing but the adapters and the record (R65). -/
theorem macOp_frame {i : Instr} {s t : State} (hi : isHostCommand i = false) (hr : i ≠ .refill) (e : exec i s = .next t) :
    t.dst = s.dst ∧ ∃ ev, t.trace = s.trace ++ ev ∧ beatsOf ev = [] ∧ responsesOf ev = [] ∧ t.init = s.init ∧
      t.seed = s.seed ∧ t.aMd5 = s.aMd5 ∧ t.aSha1 = s.aSha1 ∧ t.buf = s.buf ∧ t.idx = s.idx ∧ t.phase = s.phase ∧
      SamePorts s t := by
  cases i with
  | macInit h key =>
    obtain rfl := Host.Outcome.next.inj e
    unfold macInit
    split
    · exact ⟨by cases h <;> rfl, [.mac h (.init key) .accepted], by cases h <;> rfl, rfl, rfl, by
        cases h <;> exact ⟨rfl, rfl, rfl, rfl, rfl, rfl, rfl, rfl, rfl, rfl, rfl, rfl⟩⟩
    · exact ⟨rfl, _, rfl, rfl, rfl, rfl, rfl, rfl, rfl, rfl, rfl, rfl, ⟨rfl, rfl, rfl, rfl, rfl⟩⟩
  | macUpdate h b o l =>
    obtain ⟨k, -, rfl⟩ := needKey_map_inv (outcomeOf_next e)
    unfold appendRange
    split
    · exact ⟨rfl, _, rfl, rfl, rfl, rfl, rfl, rfl, rfl, rfl, rfl, rfl, ⟨rfl, rfl, rfl, rfl, rfl⟩⟩
    · exact ⟨by cases h <;> rfl, [.mac h (.update b o l) .nothing], by cases h <;> rfl, rfl, rfl, by
        cases h <;> exact ⟨rfl, rfl, rfl, rfl, rfl, rfl, rfl, rfl, rfl, rfl, rfl, rfl⟩⟩
  | macDigest h =>
    obtain ⟨k, -, rfl⟩ := macDigest_inv (outcomeOf_next e)
    exact ⟨rfl, _, rfl, rfl, rfl, rfl, rfl, rfl, rfl, rfl, rfl, rfl, ⟨rfl, rfl, rfl, rfl, rfl⟩⟩
  | macReset h =>
    obtain ⟨k, -, rfl⟩ := needKey_map_inv (outcomeOf_next e)
    exact ⟨by cases h <;> rfl, [.mac h .reset .nothing], by cases h <;> rfl, rfl, rfl, by
      cases h <;> exact ⟨rfl, rfl, rfl, rfl, rfl, rfl, rfl, rfl, rfl, rfl, rfl, rfl⟩⟩
  | macSize h =>
    obtain rfl := Host.Outcome.next.inj e
    exact ⟨rfl, _, rfl, rfl, rfl, rfl, rfl, rfl, rfl, rfl, rfl, rfl, ⟨rfl, rfl, rfl, rfl, rfl⟩⟩
  | refill => exact absurd rfl hr
  | _ => exact absurd hi (by simp [isHostCommand])

/-- What a step did: it took the reset, or one operation of a MAC port, or it waited, or it ran one packet (R38, R45). -/
theorem step_cases {s t : State} (e : step s = .next t) :
    (s.resetIn = true ∧ t = s.takeReset config) ∨
      (s.resetIn = false ∧ ∃ op rest i, s.macIn = op :: rest ∧ decodePort op = .ok i ∧
        exec i { s with macIn := rest } = .next t) ∨
      (s.resetIn = false ∧ s.macIn = [] ∧ s.phase = .idle ∧
        ((t = s ∧ fetch s.cmdIn s.payIn = .waiting) ∨
          ∃ i ws bs, fetch s.cmdIn s.payIn = .command i ws bs ∧
            exec i { s with cmdIn := ws, payIn := bs } = .next t)) := by
  rw [step] at e
  split at e
  · rename_i h; exact .inl ⟨h, (Host.Outcome.next.inj e).symm⟩
  · rename_i h
    have h : s.resetIn = false := by simpa using h
    right
    split at e
    · rename_i op rest hm
      split at e
      · rename_i i hd
        exact .inl ⟨h, op, rest, i, hm, hd, e⟩
      · exact absurd e (by simp)
    · rename_i hm
      split at e
      · rename_i hp
        split at e
        · rename_i hw
          exact .inr ⟨h, hm, hp, .inl ⟨(Host.Outcome.next.inj e).symm, hw⟩⟩
        · rename_i i ws bs hf
          exact .inr ⟨h, hm, hp, .inr ⟨i, ws, bs, hf, e⟩⟩
      · exact absurd e (by simp)

/-- What a fetch gives is a host command that its encoding can carry (R53, R55). -/
theorem fetch_wellFormed {ws ws' : List Word} {bs bs' : Bytes} {i : Instr} (h : fetch ws bs = .command i ws' bs') :
    isHostCommand i = true ∧ i.wellFormed = true := by
  unfold fetch at h
  split at h
  · exact absurd h (by simp)
  · simp only at h
    split at h
    · exact absurd h (by simp)
    · split at h
      · exact absurd h (by simp)
      · rename_i w0 rest h1 h2
        simp only [Fetch.command.injEq] at h
        obtain ⟨rfl, -, -⟩ := h
        have ub : ∀ w : Word, uint w < 2 ^ 32 := fun w => w.isLt
        have sb : ∀ w : Word, fitsSignedWord (sint w) = true := by
          intro w; rw [sint_eq_toInt]; simp only [fitsSignedWord]
          have := BitVec.toInt_lt (x := w); have := BitVec.le_toInt (x := w)
          simp at *; constructor <;> omega
        unfold decodeCommand
        split
        · refine ⟨rfl, ?_⟩
          simp only [Instr.wellFormed, Bool.and_eq_true]
          constructor
          · by_cases q : fieldHS w0 = true
            · simp only [q, if_true, fitsLengthWord, secretBytes]
              have := ub ((rest.take (operandWords (fieldOpc w0))).getD 0 0)
              simp only [decide_eq_true_eq]
              exact lt_of_le_of_lt (List.length_take_le _ _) this
            · simp [q, fitsLengthWord]
          · by_cases q : fieldHD w0 = true
            · simp only [q, if_true, fitsLengthWord, seedBytes]
              have := ub ((rest.take (operandWords (fieldOpc w0))).getD 1 0)
              simp only [decide_eq_true_eq]
              refine lt_of_le_of_lt (List.length_take_le _ _) this
            · simp [q, fitsLengthWord]
        · exact ⟨rfl, rfl⟩
        · refine ⟨rfl, ?_⟩
          simp only [Instr.wellFormed, Bool.and_eq_true]
          refine ⟨⟨?_, sb _⟩, sb _⟩
          by_cases q : fieldDP w0 = true
          · simp only [q, if_true, fitsCapWord]; simpa using ub _
          · simp [q, fitsCapWord]
        · exact ⟨rfl, rfl⟩
        · refine ⟨rfl, ?_⟩
          simp only [Instr.wellFormed, decide_eq_true_eq]
          exact lt_of_le_of_lt (List.length_take_le _ _) (ub _)
        · refine ⟨rfl, ?_⟩
          rename_i a b c d e
          have a : ¬ (fieldOpc w0).toNat = 1 := a
          have b : ¬ (fieldOpc w0).toNat = 2 := ‹(fieldOpc w0).toNat = 2 → False›
          have c : ¬ (fieldOpc w0).toNat = 3 := c
          have d : ¬ (fieldOpc w0).toNat = 4 := d
          have e : ¬ (fieldOpc w0).toNat = 5 := e
          simp only [Instr.wellFormed, isCommandOpcode, Bool.not_eq_true', Bool.and_eq_false_iff, decide_eq_false_iff_not]
          omega

/-- What a MAC port carries is one of its five operations (R58). -/
theorem decodePort_isMacOp {op : PortOp} {i : Instr} (h : decodePort op = .ok i) :
    isHostCommand i = false ∧ i ≠ .refill := by
  unfold decodePort at h
  split at h <;> 
    first | (obtain rfl := Except.ok.inj h; exact ⟨rfl, by simp⟩) | exact absurd h (by simp)

end Sys2Proof.Machine
end

