-- ==== Sys2Proof/Tests/Slice0.lean ====
section
/-! SUPPORT. The model's own tests. Expected values come from the spec: 30_encoding.md section 8 and the vectors V1 to V10
and programs P1 to P4 of 95_test_vectors.md, whose toy MAC stands in for the two HMACs. At the end, for every obligation
with hypotheses, a theorem `witness_<name>` that shows values meeting them, clause by clause. -/

namespace Sys2Proof.Tests

open Sys2Proof Sys2Proof.Machine

-- One test after another: many kernel evaluations at once ask for more threads than a memory limit may allow.
set_option Elab.async false

/-! ### Helpers -/

/-- One round of 95_test_vectors.md's toy MAC over the bytes of key and message. -/
def toyAbsorb (x : Nat) (b : Byte) : Nat := (31 * x + b.toNat + 1) % 65521

/-- The toy MAC's state after `j` output rounds. -/
def toySqueeze (x : Nat) : Nat → Nat
  | 0 => x
  | j + 1 => (31 * toySqueeze x j + j + 1) % 65521

/-- `TOY_n` of 95_test_vectors.md. -/
def toyMac (n : Nat) (key msg : Bytes) : Vector Byte n :=
  let x := (key ++ msg).foldl toyAbsorb (key.length + 1)
  Vector.ofFn fun j => BitVec.ofNat 8 (toySqueeze x (j.val + 1))

/-- The toy configuration: at most 16 bytes of secret and of seed; a core refuses a key that begins with 0xee. -/
def toy : Config where
  hmacMd5 := toyMac 16
  hmacSha1 := toyMac 20
  keyOkMd5 := fun k => k.head? != some 0xee
  keyOkSha1 := fun k => k.head? != some 0xee
  secretRoom := 15
  seedRoom := 15
  unspecSeed := fun _ => [0x77]
  unspecAMd5 := fun _ => Vector.ofFn fun _ => 0x77
  unspecASha1 := fun _ => Vector.ofFn fun _ => 0x77
  unspecBuf := fun _ => Vector.ofFn fun _ => 0x77
  unspecIdx := fun _ => 7

/-- The `n` bytes of a number, the most significant first: the spec's hex strings. -/
def hexBytes (n w : Nat) : Vector Byte n := Vector.ofFn fun i => BitVec.ofNat 8 (w >>> (8 * (n - 1 - i.val)))

/-- V2's buffer. -/
def firstFill : Vector Byte 80 := hexBytes 80 0x0b4f8b6b9d7498cbb4a85b844163f2714d7ad0699a37f299a3e50cf079c8925ed73400c345046e13a95ceeaa913eddfa653d843a670f2649ec0429efa26bbce9baae21d785328a801d3c1dcd6446fee6

/-- The toy engine right after reset. -/
def fresh : State := State.afterReset toy 0

/-- V2's end state with the cursor at `i`. -/
def ready (i : Fin 81) : State :=
  { fresh with
    init := true
    md5 := { key := some [1, 2, 3], pend := [] }
    sha1 := { key := some [3, 4, 5], pend := [] }
    seed := [0xaa, 0xbb]
    aMd5 := hexBytes 16 0x2b90af9d07dfcaba61051e34a4bc1ddd
    aSha1 := hexBytes 20 0xcf211fb5f0347f0eba8f88cfd2d6e965b4de993f
    buf := firstFill
    idx := i }

/-- The result runs on, and its state passes `p`. -/
def okAnd (r : Except Fault State) (p : State → Bool) : Bool :=
  match r with
  | .ok s => p s
  | .error _ => false

/-- The answer to the one command of a record. -/
def answers (s : State) (w : Word) : Bool := decide (responsesOf s.trace = [w])

/-! ### WellFormed: for each check a term it refuses -/

theorem test_wf_refuses_long_secret (n : Nat) (h : 2 ^ 32 ≤ n) :
    Instr.wellFormed (.init (some (List.replicate n 0)) none) = false := by
  simp [Instr.wellFormed, fitsLengthWord]; omega
theorem test_wf_refuses_long_seed (n : Nat) (h : 2 ^ 32 ≤ n) :
    Instr.wellFormed (.init none (some (List.replicate n 0))) = false := by
  simp [Instr.wellFormed, fitsLengthWord]; omega
theorem test_wf_refuses_large_capacity : Instr.wellFormed (.nextBytes (some (2 ^ 32)) 0 0) = false := by decide
theorem test_wf_refuses_large_offset : Instr.wellFormed (.nextBytes none (2 ^ 31) 0) = false := by decide
theorem test_wf_refuses_small_offset : Instr.wellFormed (.nextBytes none (-2 ^ 31 - 1) 0) = false := by decide
theorem test_wf_refuses_large_length : Instr.wellFormed (.nextBytes none 0 (2 ^ 31)) = false := by decide
theorem test_wf_refuses_small_length : Instr.wellFormed (.nextBytes none 0 (-2 ^ 31 - 1)) = false := by decide
theorem test_wf_refuses_many_entropy_bytes (n : Nat) (h : 2 ^ 32 ≤ n) :
    Instr.wellFormed (.addRandomBytes (List.replicate n 0)) = false := by
  simp [Instr.wellFormed]; omega
theorem test_wf_refuses_inner_range : Instr.wellFormed (.macUpdate .md5 [1, 2] 1 1) = false := by decide
theorem test_wf_refuses_short_range : Instr.wellFormed (.macUpdate .md5 [1, 2] 0 1) = false := by decide
theorem test_wf_refuses_refill : Instr.wellFormed .refill = false := by decide
theorem test_wf_refuses_command_as_illegal : Instr.wellFormed (.illegal 0x05) = false := by decide
theorem test_wf_accepts_boundaries :
    Instr.wellFormed (.nextBytes (some (2 ^ 32 - 1)) (-2 ^ 31) (2 ^ 31 - 1)) = true ∧ Instr.wellFormed (.illegal 0) = true ∧
      Instr.wellFormed (.illegal 6) = true := by decide

/-! ### Decoding: words written out from the tables of 30_encoding.md -/

/-- R46, R48: OPC = 0x01, HS = bit 8, HD = bit 9. -/
theorem test_decode_init :
    fetch [0b0000_0000_0000_0000_0000_0011_0000_0001, 5, 2] [1, 2, 3, 4, 5, 0xaa, 0xbb] =
      .command (.init (some [1, 2, 3, 4, 5]) (some [0xaa, 0xbb])) [] [] := by decide
/-- V9: a supplied empty secret; and P3 line 5: neither. -/
theorem test_decode_init_optional :
    fetch [0x00000101, 0, 9] [] = .command (.init (some []) none) [] [] ∧
      fetch [0x00000001, 7, 9] [] = .command (.init none none) [] [] := by decide
/-- V9: reserved and foreign bits are ignored. -/
theorem test_decode_nextByte : fetch [0xFFFFF902] [] = .command .nextByte [] [] := by decide
/-- R50, V5: signed OFFSET and LENGTH, unsigned DST_CAP. -/
theorem test_decode_nextBytes :
    fetch [0b0000_0000_0000_0000_0000_0100_0000_0011, 0xFFFFFFFD, 0x7FFFFFFF, 0x80000000] [] =
      .command (.nextBytes (some 4294967293) 2147483647 (-2147483648)) [] [] := by decide
/-- R51, V9: one operand word, its upper bits ignored. -/
theorem test_decode_addRandomByte : fetch [0x00000104, 0xFFFFFF5A] [] = .command (.addRandomByte 0x5a) [] [] := by decide
/-- R52, P3 line 14; what stands behind the packet stays. -/
theorem test_decode_addRandomBytes :
    fetch [0x00000005, 2, 0x2] [1, 2, 3] = .command (.addRandomBytes [1, 2]) [0x2] [3] := by decide
/-- R55, V9. -/
theorem test_decode_illegal :
    fetch [0x00000000, 1] [] = .command (.illegal 0) [1] [] ∧ fetch [0x000000FF] [] = .command (.illegal 0xff) [] [] ∧
      fetch [0x00000006] [] = .command (.illegal 6) [] [] := by decide
/-- R58: MOP 1 to 5. -/
theorem test_decode_macPort :
    decodePort { chain := .sha1, mop := 0b001, data := [9] } = .ok (.macInit .sha1 [9]) ∧
      decodePort { chain := .md5, mop := 0b010, data := [1, 2] } = .ok (.macUpdate .md5 [1, 2] 0 2) ∧
      decodePort { chain := .md5, mop := 0b011, data := [] } = .ok (.macDigest .md5) ∧
      decodePort { chain := .md5, mop := 0b100, data := [] } = .ok (.macReset .md5) ∧
      decodePort { chain := .sha1, mop := 0b101, data := [] } = .ok (.macSize .sha1) := by decide
/-- R34 (f): the header 0x00000403 goes out as 03 04 00 00. -/
theorem test_decode_bytes :
    decodeBytes [0x03, 0x04, 0, 0, 8, 0, 0, 0, 0xff, 0xff, 0xff, 0xff, 2, 0, 0, 0, 0x99] =
      .ok (.nextBytes (some 8) (-1) 2, [0x99]) := by decide
/-- The table's numbering: later words count on above the header. -/
theorem test_decode_table_words :
    decodeTableWord 32 0x2 = some .nextByte ∧ decodeTableWord 96 0x00000000_00000000_00000001 = some (.init none none) ∧
      decodeTableWord 128 0x00000060_00000004_00000064_00000403 = some (.nextBytes (some 100) 4 96) ∧
      decodeTableWord 64 0x0000005A_00000004 = some (.addRandomByte 0x5a) ∧
      decodeTableWord 80 0x0201_00000002_00000005 = some (.addRandomBytes [1, 2]) ∧
      decodeTableWord 3 3 = some (.macDigest .md5) ∧ decodeTableWord 3 7 = none := by decide
/-- The opcode alone: a packet whose other header bits and operand words are zero. -/
theorem test_decode_opcode_alone :
    decodeTableWord 8 1 = some (.init none none) ∧ decodeTableWord 8 2 = some .nextByte ∧
      decodeTableWord 8 3 = some (.nextBytes none 0 0) ∧ decodeTableWord 8 4 = some (.addRandomByte 0) ∧
      decodeTableWord 8 5 = some (.addRandomBytes []) ∧ decodeTableWord 8 0 = some (.illegal 0) := by decide

/-! ### The meanings -/

/-- The toy MAC itself, by the spec's hand calculation. -/
theorem test_toy_mac :
    toyMac 16 [1, 2, 3] [0xaa, 0xbb] = hexBytes 16 0x84a2911a1b4b1c208ef0de0cf9bb2c9f ∧
      toyMac 20 [] [] = hexBytes 20 0x20e261950f9923801f70aadeb2c8af7c51852e96 := by decide +kernel
/-- V1. -/
theorem test_split :
    firstHalf [1, 2, 3, 4, 5] = [1, 2, 3] ∧ lastHalf [1, 2, 3, 4, 5] = [3, 4, 5] ∧ firstHalf [1, 2] = [1] ∧
      lastHalf [1, 2] = [2] ∧ firstHalf [1] = [1] ∧ lastHalf [1] = [1] ∧ lastHalf [] = [] := by decide
/-- V2, P1 line 1. -/
theorem test_init_first_fill :
    okAnd (initWith toy (some [1, 2, 3, 4, 5]) (some [0xaa, 0xbb]) fresh) (fun s =>
      s.init && decide (s.md5 = (ready 0).md5) && decide (s.sha1 = (ready 0).sha1) && decide (s.aMd5[15] = 0xdd) &&
        decide (s.aSha1[19] = 0x3f) && decide (s.buf[0] = 0x0b) && decide (s.buf[16] = 0x4d) && decide (s.buf[20] = 0x9a) &&
        decide (s.buf[79] = 0xe6) && decide (s.idx = 0) && answers s 0x00020000) = true := by decide +kernel
/-- P4: RESEED keeps the keys. -/
theorem test_init_reseed :
    okAnd (initWith toy none (some [0xcc]) (ready 4)) (fun s =>
      decide (s.buf[0] = 0x57) && decide (s.buf[79] = 0x78) && decide (s.aMd5[0] = 0x9a) && decide (s.aSha1[0] = 0x82) &&
        decide (s.md5 = (ready 0).md5)) = true := by decide +kernel
/-- V4: the last byte, no refill. -/
theorem test_nextByte_buffered :
    okAnd (nextByteWith toy (ready 79)) (fun s => answers s 0x0003E600 && decide (s.idx = 80)) = true := by decide +kernel
/-- V4, P2: at `idx = 80` a refill comes first. -/
theorem test_nextByte_refills :
    okAnd (nextByteWith toy (ready 80)) (fun s => answers s 0x0003C700 && decide (s.idx = 1)) = true := by decide +kernel
/-- V5, P1 line 5. -/
theorem test_nextBytes_window :
    okAnd (nextBytesWith toy (some 8) 2 4 (ready 3)) (fun s => answers s 0x00020000 && decide (s.idx = 7) &&
      decide (s.dst = [(2, 0x6b), (3, 0x9d), (4, 0x74), (5, 0x98)])) = true := by decide +kernel
/-- V5: the sum 4294967294 does not wrap. -/
theorem test_nextBytes_no_wrap :
    okAnd (nextBytesWith toy (some 0xFFFFFFFD) 0x7FFFFFFF 0x7FFFFFFF (ready 0)) (fun s => answers s 0x00020006 &&
      decide (s.idx = 0) && decide (s.dst = [])) = true := by decide +kernel
/-- V7, P3 line 6. -/
theorem test_addRandomByte : exec (.addRandomByte 0x5a) fresh = .next (answered .ok fresh) ∧
    responseWord .ok none false = 0x00000000 := ⟨rfl, by decide⟩
/-- V7, P3 line 14. -/
theorem test_addRandomBytes : exec (.addRandomBytes [1, 2]) (ready 4) = .next (answered .ok (ready 4)) ∧
    responseWord .ok none true = 0x00020000 := ⟨rfl, by decide⟩
/-- P3 line 7. -/
theorem test_illegal : exec (.illegal 0x06) fresh = .next (answered .illegalCmd fresh) ∧
    responseWord .illegalCmd none false = 0x00000007 := ⟨rfl, by decide⟩
/-- V8 step 1; and a refused key. -/
theorem test_macInit :
    (macInit toy .md5 [1, 2] fresh).md5 = { key := some [1, 2], pend := [] } ∧
      (macInit toy .sha1 [0xee] (ready 0)).sha1 = (ready 0).sha1 := by decide
/-- V8 step 3. -/
theorem test_macUpdate_range :
    okAnd (macUpdate .md5 [0xff, 0xbb, 0xcc, 0xff] 1 2 { fresh with md5 := { key := some [1, 2], pend := [0xaa] } })
      (fun s => decide (s.md5 = { key := some [1, 2], pend := [0xaa, 0xbb, 0xcc] })) = true := by decide
/-- V8 steps 8 and 9. -/
theorem test_macUpdate_bounds :
    okAnd (macUpdate .md5 [0xaa, 0xbb] 1 2 (ready 0))
        (fun s => decide (s.trace = [.mac .md5 (.update [0xaa, 0xbb] 1 2) .boundsError])) = true ∧
      okAnd (macUpdate .md5 [0xaa, 0xbb] (-1) 1 (ready 0))
        (fun s => decide (s.trace = [.mac .md5 (.update [0xaa, 0xbb] (-1) 1) .boundsError])) = true := by decide
/-- V8 steps 4 and 5: the digest changes nothing. -/
theorem test_macDigest :
    okAnd ((macDigest toy .md5 { fresh with md5 := { key := some [1, 2], pend := [0xaa, 0xbb, 0xcc] } }).map Prod.snd)
      (fun s => decide (s.trace = [.mac .md5 .digest (.digest (hexBytes 16 0xe9a1a0eaa5b579db063b2f538252b032).toList)]) &&
        decide (s.md5.pend = [0xaa, 0xbb, 0xcc])) = true := by decide +kernel
/-- R68, U4: no key, no meaning, the range being in or out of bounds. -/
theorem test_macPort_keyless :
    exec (.macDigest .sha1) fresh = .fault .macWithoutKey ∧ exec (.macReset .md5) fresh = .fault .macWithoutKey ∧
      exec (.macUpdate .md5 [1] 0 1) fresh = .fault .macWithoutKey ∧
      exec (.macUpdate .md5 [1] 0 2) fresh = .fault .macWithoutKey := ⟨rfl, rfl, rfl, rfl⟩
/-- V8 step 6. -/
theorem test_macReset :
    okAnd (macReset .md5 { fresh with md5 := { key := some [1, 2], pend := [0xaa] } })
      (fun s => decide (s.md5 = { key := some [1, 2], pend := [] })) = true := by decide
/-- R28: no more of an unspecified seed than the register holds. -/
theorem test_reset_seed_fits :
    (State.afterReset { toy with seedRoom := 1, unspecSeed := fun _ => [1, 2, 3] } 0).seed = [1, 2] := by decide
/-- V8 step 10. -/
theorem test_macSize :
    (macSize .md5 fresh).trace = [.mac .md5 .size (.size 16)] ∧ (macSize .sha1 fresh).trace = [.mac .sha1 .size (.size 20)] := by
  decide
/-- V3. -/
theorem test_refill_second_fill :
    okAnd (refillAndReturn toy (ready 80)) (fun s => decide (s.buf[1] = 0x7c) && decide (s.buf[79] = 0x67) &&
      decide (s.idx = 0) && decide (s.aMd5[0] = 0x99) && decide (s.aSha1[19] = 0xe6)) = true := by decide +kernel
/-- P3 lines 1, 9 and 12, and the example `-> OK data=d3` of 30_encoding.md section 8. -/
theorem test_response_words :
    responseWord .illegalState none false = 0x00000001 ∧ responseWord .nullDest none true = 0x00020005 ∧
      responseWord .bounds none true = 0x00020006 ∧ responseWord .ok (some 0xd3) true = 0x0003D300 := by decide

/-! ### The step -/

/-- A table word is the first instruction after reset. -/
theorem test_first_step_runs_the_word :
    step (State.reset.withFetchWord 64 0x0000005A_00000004) = exec (.addRandomByte 0x5a) State.reset ∧
      step (State.reset.withFetchWord 32 0x2) = exec .nextByte State.reset ∧
      step (State.reset.withFetchWord 3 4) = exec (.macReset .md5) State.reset := ⟨rfl, rfl, rfl⟩
/-- Each opcode alone runs as the first instruction after reset: P3 lines 1, 2, 5, 6 and 7 and V7 have these
answers. -/
theorem test_first_step_runs_each_opcode :
    step (State.reset.withFetchWord 8 1) = .next (answered .noSecret State.reset) ∧
      step (State.reset.withFetchWord 8 2) = .next (answered .illegalState State.reset) ∧
      step (State.reset.withFetchWord 8 3) = .next (answered .illegalState State.reset) ∧
      step (State.reset.withFetchWord 8 4) = .next (answered .ok State.reset) ∧
      step (State.reset.withFetchWord 8 5) = .next (answered .ok State.reset) ∧
      step (State.reset.withFetchWord 8 6) = .next (answered .illegalCmd State.reset) := ⟨rfl, rfl, rfl, rfl, rfl, rfl⟩
/-- R45: half a packet waits. -/
theorem test_step_waits : step { fresh with cmdIn := [0x00000403, 8, 0] } = .next { fresh with cmdIn := [0x00000403, 8, 0] } :=
  rfl

/-! ### Witnesses: values that meet the hypotheses of each obligation -/

/-- Both adapters keyed and idle. -/
def keyed : State :=
  { State.reset with md5 := { key := some [1, 2, 3], pend := [] }, sha1 := { key := some [3, 4, 5], pend := [] } }

theorem keyed_keyed : Keyed [1, 2, 3] [3, 4, 5] keyed := ⟨rfl, rfl⟩

/-- Ready at stream position 0, in the block's own configuration. -/
def streaming : State := committed config [1, 2, 3] [3, 4, 5] keyed

theorem streaming_streamAt : StreamAt config [1, 2, 3] [3, 4, 5] 0 streaming := committed_streamAt config _ _ _ keyed_keyed

theorem streaming_keyed : Keyed [1, 2, 3] [3, 4, 5] streaming := keyed_keyed

/-- An Uninitialized engine answers a NEXT_BYTE with its error (R106). -/
theorem nextByte_uninit (s : State) (h : s.init = false) : exec .nextByte s = .next (answered .illegalState s) :=
  congrArg outcomeOf (nextByteWith_uninit config s h)

theorem nextByte_ready (s : State) (h : s.init = true) (hk : Keyed [1, 2, 3] [3, 4, 5] s) : ∃ t, exec .nextByte s = .next t :=
  ⟨_, congrArg outcomeOf (nextByteWith_ready config _ _ s h hk)⟩

theorem witness_DecodeOfEncodeIsIdentity :
    (Instr.init (some [1]) none).wellFormed = true ∧ Instr.nextByte.wellFormed = true ∧
      (Instr.nextBytes (some (2 ^ 32 - 1)) (-2 ^ 31) (2 ^ 31 - 1)).wellFormed = true ∧ (Instr.addRandomByte 0).wellFormed = true ∧
      (Instr.addRandomBytes []).wellFormed = true ∧ (Instr.illegal 0xff).wellFormed = true ∧
      (Instr.macInit .md5 []).wellFormed = true ∧ (Instr.macUpdate .sha1 [1, 2] 0 2).wellFormed = true ∧
      (Instr.macDigest .md5).wellFormed = true ∧ (Instr.macReset .md5).wellFormed = true ∧
      (Instr.macSize .sha1).wellFormed = true := by decide

theorem witness_PacketIsSelfDelimiting :
    (Instr.init (some [1]) (some [])).wellFormed = true ∧
      encodePacket (.init (some [1]) (some [])) = some { words := [0x301, 1, 0], payload := [1] } := by decide

theorem witness_ByteSerialPacketDecodes :
    (Instr.addRandomBytes [7, 8]).wellFormed = true ∧
      encodePacket (.addRandomBytes [7, 8]) = some { words := [0x5, 2], payload := [7, 8] } := by decide

/-- One pair of packets for each opcode clause, and the state that takes the first. -/
theorem witness_ReservedBitsAreIgnored :
    SameUsedBits 0x00000101 0xFFFFFD01 [1, 0] [1, 9] ∧ SameUsedBits 0x00000201 0x00000601 [0, 1] [9, 1] ∧
      SameUsedBits 0x00000002 0xFFFFFF02 [] [] ∧ SameUsedBits 0x00000403 0x00000703 [8, 1, 2] [8, 1, 2] ∧
      SameUsedBits 0x00000003 0x00000303 [0, 1, 2] [9, 1, 2] ∧ SameUsedBits 0x00000004 0x00000104 [0x5A] [0xFFFFFF5A] ∧
      SameUsedBits 0x00000005 0x00000705 [2] [2] ∧ SameUsedBits 0x00000006 0x00000706 [] [] ∧
      State.reset.resetIn = false ∧ State.reset.macIn = [] ∧ State.reset.phase = .idle ∧
      fetch [0x00000004, 0x5A] [] ≠ .waiting := by
  refine ⟨?_, ?_, ?_, ?_, ?_, ?_, ?_, ?_, rfl, rfl, rfl, by decide⟩ <;> unfold SameUsedBits <;> decide

theorem witness_PartialPacketChangesNothing :
    State.reset.resetIn = false ∧ State.reset.macIn = [] ∧ State.reset.phase = .idle ∧ State.reset.cmdIn = [] ∧
      ([8, 0] : List Word).length < operandWords (fieldOpc 0x00000403) ∧
      ([0xaa] : Bytes).length < payloadLength 0x00000201 (([0, 2, 5] : List Word).take (operandWords (fieldOpc 0x00000201))) :=
  ⟨rfl, rfl, rfl, rfl, by decide, by decide⟩

theorem witness_IllegalOpcodeAnswersIllegalCommand :
    isCommandOpcode (fieldOpc 0x00000000) = false ∧ isCommandOpcode (fieldOpc 0x00000006) = false ∧
      isCommandOpcode (fieldOpc 0xFFFFFFFF) = false := by decide

theorem witness_MacPortCodesDecode : (6 : BitVec 3) = 0 ∨ (6 : BitVec 3) = 6 ∨ (6 : BitVec 3) = 7 := by decide

theorem witness_StepRunsTheDecodedCommand :
    let s := { State.reset with cmdIn := [0x5, 1, 0x2], payIn := [7, 8] }
    (Instr.addRandomBytes [7]).wellFormed = true ∧ encodePacket (.addRandomBytes [7]) = some { words := [0x5, 1], payload := [7] } ∧
      s.resetIn = false ∧ s.macIn = [] ∧ s.phase = .idle ∧ s.cmdIn = [0x5, 1] ++ [0x2] ∧ s.payIn = [7] ++ [8] :=
  ⟨by decide, by decide, rfl, rfl, rfl, rfl, rfl⟩

theorem witness_StepRunsThePortOperation :
    let op : PortOp := { chain := .md5, mop := 4, data := [] }
    (Instr.macReset .md5).wellFormed = true ∧ encodePort (.macReset .md5) = some op ∧
      ({ State.reset with macIn := [op] } : State).resetIn = false ∧ ({ State.reset with macIn := [op] } : State).macIn = [op] :=
  ⟨by decide, by decide, rfl, rfl⟩

theorem witness_ResetInputResetsTheBlock : ({ streaming with resetIn := true, phase := .draw } : State).resetIn = true := rfl

theorem witness_EveryCommandIsAnsweredOnce :
    isHostCommand .nextByte = true ∧ exec .nextByte State.reset = .next (answered .illegalState State.reset) ∧
      isHostCommand (.nextBytes (some 8) 8 0) = true ∧ ∃ t, exec (.nextBytes (some 8) 8 0) streaming = .next t := by
  refine ⟨rfl, nextByte_uninit _ rfl, rfl, ?_⟩
  have ok : nextBytesStatus streaming.init (some 8) 8 0 = .ok := rfl
  exact ⟨_, by simp only [exec, execNextBytes, nextBytesWith, ok]; rfl⟩

theorem witness_FailingCommandChangesNothing :
    isHostCommand .nextByte = true ∧ exec .nextByte State.reset = .next (answered .illegalState State.reset) ∧
      (answered .illegalState State.reset).trace = State.reset.trace ++
        [.phase .check, .phase .respond, .response (responseWord .illegalState none false), .phase .idle] ∧
      responseWord .illegalState none false ∈ responsesOf
        [.phase .check, .phase .respond, .response (responseWord .illegalState none false), .phase .idle] ∧ respStatus (responseWord .illegalState none false) ≠ 0 :=
  ⟨rfl, nextByte_uninit _ rfl, rfl, by decide, by decide⟩

/-- An error of each kind that no OPEN parameter decides, and an OK. -/
theorem witness_ErrorsHaveTheirCause :
    exec .nextByte State.reset = .next (answered .illegalState State.reset) ∧
      respStatus (responseWord .illegalState none false) = 0x01 ∧
      exec (.nextBytes none 0 1) streaming = .next (answered .nullDest streaming) ∧
      respStatus (responseWord .nullDest none true) = 0x05 ∧
      exec (.nextBytes (some 8) 5 4) streaming = .next (answered .bounds streaming) ∧
      respStatus (responseWord .bounds none true) = 0x06 ∧
      exec (.illegal 6) State.reset = .next (answered .illegalCmd State.reset) ∧
      respStatus (responseWord .illegalCmd none false) = 0x07 ∧
      exec (.init none none) State.reset = .next (answered .noSecret State.reset) ∧
      respStatus (responseWord .noSecret none false) = 0x02 ∧
      exec (.addRandomByte 1) State.reset = .next (answered .ok State.reset) :=
  ⟨nextByte_uninit _ rfl, by decide, congrArg outcomeOf (nextBytesWith_error config none 0 1 streaming (by decide)), by decide,
    congrArg outcomeOf (nextBytesWith_error config (some 8) 5 4 streaming (by decide)), by decide,
    congrArg Host.Outcome.next (raiseError_answered .illegalCmd _), by decide,
    congrArg outcomeOf (initWith_error config none none State.reset (by decide)), by decide, congrArg Host.Outcome.next (finish_answered .ok _)⟩

/-- Each error of INIT in the toy engine: no secret; a secret without a seed; a refused half, in either lifecycle state;
an over-long secret, and an over-long seed. -/
theorem witness_ErrorsHaveTheirCause_init :
    initWith toy none (some [1]) fresh = .ok (answered .noSecret fresh) ∧
      initWith toy (some [1, 2]) none fresh = .ok (answered .noSeed fresh) ∧
      initWith toy (some [0xee, 1]) none fresh = .ok (answered .invalidKey fresh) ∧
      initWith toy (some [1, 0xee]) (some []) (ready 0) = .ok (answered .invalidKey (ready 0)) ∧
      initWith toy (some (List.replicate 17 0)) none fresh = .ok (answered .length fresh) ∧
      initWith toy none (some (List.replicate 17 0)) (ready 0) = .ok (answered .length (ready 0)) ∧
      respStatus (responseWord .noSecret none false) = 0x02 ∧ respStatus (responseWord .noSeed none false) = 0x03 ∧
      respStatus (responseWord .invalidKey none true) = 0x04 ∧ respStatus (responseWord .length none true) = 0x08 :=
  ⟨initWith_error toy _ _ _ (by decide), initWith_error toy _ _ _ (by decide), initWith_error toy _ _ _ (by decide),
    initWith_error toy _ _ _ (by decide), initWith_error toy _ _ _ (by decide), initWith_error toy _ _ _ (by decide),
    by decide, by decide, by decide, by decide⟩

theorem witness_DrawsAreRejectedBeforeInit : State.reset.init = false := rfl

/-- Each way a window can be bad, at its boundary. -/
theorem witness_InvalidWindowIsRejected :
    streaming.init = true ∧ (-1 : Int) < 0 ∧ (5 : Int) + 4 > (8 : Nat) ∧ (9 : Int) + 0 > (8 : Nat) := ⟨rfl, by decide⟩

/-- The toy configuration takes at most 16 bytes and refuses a key that begins with 0xee: one case for each error. -/
theorem witness_InitReportsTheFirstError :
    (List.replicate 17 (0 : Byte)).length > toy.maxSecretLen ∧ (List.replicate 17 (0 : Byte)).length > toy.maxSeedLen ∧
      ([0xee, 1] : Bytes).length ≤ toy.maxSecretLen ∧
      (toy.keyOk .md5 (firstHalf [0xee, 1]) && toy.keyOk .sha1 (lastHalf [0xee, 1])) = false ∧
      (toy.keyOk .md5 (firstHalf [1, 0xee]) && toy.keyOk .sha1 (lastHalf [1, 0xee])) = false ∧
      (toy.keyOk .md5 (firstHalf [1, 2]) && toy.keyOk .sha1 (lastHalf [1, 2])) = true ∧ fresh.init = false := by decide

theorem witness_StatusRevealsOnlyTheLifecycle :
    let s' := { State.reset with seed := [9] }
    isHostCommand .nextByte = true ∧ s'.init = State.reset.init ∧
      exec .nextByte State.reset = .next (answered .illegalState State.reset) ∧
      exec .nextByte s' = .next (answered .illegalState s') ∧
      isHostCommand (.addRandomByte 1) = true ∧ exec (.addRandomByte 1) s' = .next (answered .ok s') :=
  ⟨rfl, rfl, nextByte_uninit _ rfl, nextByte_uninit _ rfl, rfl,
    congrArg Host.Outcome.next (finish_answered .ok _)⟩

theorem witness_PhasesFollowTheStateMachine :
    isHostCommand (.illegal 0) = true ∧ exec (.illegal 0) State.reset = .next (answered .illegalCmd State.reset) :=
  ⟨rfl, congrArg Host.Outcome.next (raiseError_answered .illegalCmd _)⟩

theorem witness_MacInitLoadsOrRefusesTheKey : toy.keyOk .md5 [] = true ∧ toy.keyOk .sha1 [0xee] = false := by decide

/-- A keyed and a keyless adapter; every way a range can be bad, at its boundary, and one that just fits. -/
theorem witness_MacUpdateAppendsTheRange :
    (keyed.adapter .md5).key = some [1, 2, 3] ∧ (State.reset.adapter .sha1).key = none ∧
      ((-1 : Int) < 0 ∨ (1 : Int) < 0 ∨ (-1 : Int) + 1 > (2 : Nat)) ∧ ((0 : Int) < 0 ∨ (-1 : Int) < 0 ∨ (0 : Int) + -1 > (2 : Nat)) ∧
      ((1 : Int) < 0 ∨ (2 : Int) < 0 ∨ (1 : Int) + 2 > (2 : Nat)) ∧
      ¬((1 : Int) < 0 ∨ (1 : Int) < 0 ∨ (1 : Int) + 1 > (2 : Nat)) := ⟨rfl, rfl, by decide⟩

theorem witness_MacResetClearsPending :
    (keyed.adapter .sha1).key = some [3, 4, 5] ∧ (State.reset.adapter .md5).key = none := ⟨rfl, rfl⟩

theorem witness_MacDigestAnswersTheMac :
    (keyed.adapter .md5).key = some [1, 2, 3] ∧ (State.reset.adapter .sha1).key = none := ⟨rfl, rfl⟩

theorem witness_MacPortsShareNoState :
    Chain.md5 ≠ Chain.sha1 ∧ exec (.macInit .sha1 [1]) keyed = .next (macInit config .sha1 [1] keyed) ∧
      exec (.macUpdate .sha1 [1] 0 1) keyed = .next (appendRange .sha1 [1] 0 1 keyed) ∧
      (∃ t, exec (.macDigest .sha1) keyed = .next t) ∧ exec (.macReset .sha1) keyed = .next (clearPending .sha1 keyed) ∧
      exec (.macSize .sha1) keyed = .next (macSize .sha1 keyed) := ⟨by decide, rfl, rfl, ⟨_, rfl⟩, rfl, rfl⟩

theorem witness_CompositeMacIsHmacOfTheParts :
    keyed.adapter .md5 = { key := some [1, 2, 3], pend := [] } ∧ keyed.adapter .sha1 = { key := some [3, 4, 5], pend := [] } :=
  ⟨rfl, rfl⟩

theorem witness_RefillFillsTheBuffer : Keyed [1, 2, 3] [3, 4, 5] keyed := keyed_keyed

theorem witness_RefillIssuesTheTraceOfR90 :
    ∃ t ev, Keyed [1, 2, 3] [3, 4, 5] keyed ∧ exec .refill keyed = .next t ∧ t.trace = keyed.trace ++ ev :=
  ⟨_, _, keyed_keyed, congrArg outcomeOf (refillAndReturn_keyed config _ _ keyed keyed_keyed), List.append_assoc _ _ _⟩

theorem witness_SecretSplitsIntoHalves :
    ([] : Bytes).length = 2 * 0 ∧ ([1, 2] : Bytes).length = 2 * 1 ∧ ([1] : Bytes).length = 2 * 0 + 1 ∧
      ([1, 2, 3] : Bytes).length = 2 * 1 + 1 := by decide

/-- A first INIT of 16 bytes each in the toy configuration; and a RESTART in the block's own. -/
theorem witness_InitStartsTheStream :
    (List.replicate 16 (1 : Byte)).length ≤ toy.maxSecretLen ∧ toy.keyOk .md5 (firstHalf (List.replicate 16 1)) = true ∧
      toy.keyOk .sha1 (lastHalf (List.replicate 16 1)) = true ∧ (List.replicate 16 (1 : Byte)).length ≤ toy.maxSeedLen ∧
      streaming.init = true ∧ Keyed [1, 2, 3] [3, 4, 5] streaming :=
  ⟨by decide, by decide, by decide, by decide, rfl, streaming_keyed⟩

theorem witness_InitIssuesTheTraceOfR84 :
    initStatus toy fresh.init (some [1, 2]) (some []) = .ok ∧ firstHalf [1, 2] = [1] ∧ lastHalf [1, 2] = [2] ∧
      (∃ t, initWith toy (some [1, 2]) (some []) fresh = .ok t) ∧ initStatus config streaming.init none none = .ok ∧
      Keyed [1, 2, 3] [3, 4, 5] streaming ∧ ∃ t, initWith config none none streaming = .ok t := by
  refine ⟨by decide, by decide, by decide, ?_, rfl, streaming_keyed, ?_⟩
  · exact ⟨_, (initWith_success toy (some [1, 2]) (some []) fresh [1] [2] (by decide)
      (fun x h => by obtain rfl := Option.some.inj h; exact ⟨rfl, rfl⟩) (fun h => absurd h (by simp))).1⟩
  · exact ⟨_, (initWith_success config none none streaming [1, 2, 3] [3, 4, 5] rfl (fun x h => absurd h (by simp))
      (fun _ => streaming_keyed)).1⟩

/-- A REKEY and a RESEED of the toy engine. -/
theorem witness_ReinitEqualsFreshInit :
    (ready 4).init = true ∧ Keyed (firstHalf [1, 2, 3, 4, 5]) (lastHalf [1, 2, 3, 4, 5]) (ready 4) ∧
      toy.keyOk .md5 (firstHalf [1, 2, 3, 4, 5]) = true ∧ toy.keyOk .sha1 (lastHalf [1, 2, 3, 4, 5]) = true ∧
      ([1, 2, 3, 4, 5] : Bytes).length ≤ toy.maxSecretLen ∧ ((some [0xcc]).getD (ready 4).seed).length ≤ toy.maxSeedLen ∧
      ((none : Option Bytes).getD (ready 4).seed).length ≤ toy.maxSeedLen :=
  ⟨rfl, ⟨rfl, rfl⟩, by decide, by decide, by decide, by decide, by decide⟩

theorem witness_NextByteReadsTheBuffer :
    streaming.init = true ∧ streaming.idx.val < 80 ∧ ({ streaming with idx := 79 } : State).idx.val < 80 :=
  ⟨rfl, by decide, by decide⟩

/-- Ready with an exhausted buffer. -/
def exhausted : State := { streaming with idx := 80 }

theorem witness_NextByteRefillsFirst :
    exhausted.init = true ∧ Keyed [1, 2, 3] [3, 4, 5] exhausted ∧ exhausted.idx = 80 := ⟨rfl, streaming_keyed, rfl⟩

/-- A window that just fits, and an empty one at its end. -/
theorem witness_NextBytesDeliversTheStream :
    StreamAt config [1, 2, 3] [3, 4, 5] 0 streaming ∧ Memory.wf streaming.dst ∧
      ((0 : Int) ≤ 4 ∧ (4 : Int) + 4 ≤ (8 : Nat)) ∧ (0 : Int) ≤ 0 ∧ (8 : Int) + 0 ≤ (8 : Nat) :=
  ⟨streaming_streamAt, List.Pairwise.nil, by decide⟩

theorem witness_BeatsStayInsideTheWindow :
    (Instr.nextBytes (some 8) 8 0).wellFormed = true ∧ (∃ t, exec (.nextBytes (some 8) 8 0) streaming = .next t) ∧
      (Instr.addRandomByte 1).wellFormed = true ∧ exec (.addRandomByte 1) streaming = .next (answered .ok streaming) ∧
      ∀ dest offset length, Instr.addRandomByte 1 ≠ .nextBytes dest offset length :=
  ⟨by decide, witness_EveryCommandIsAnsweredOnce.2.2.2, rfl, congrArg Host.Outcome.next (finish_answered .ok _),
    fun _ _ _ => by simp⟩

theorem witness_ZeroLengthDrawChangesNothing :
    exhausted.init = true ∧ (0 : Int) ≤ 8 ∧ (8 : Int) ≤ (8 : Nat) ∧ State.reset.init = false ∧
      ((-1 : Int) < 0 ∨ (-1 : Int) > (8 : Nat)) ∧ ((9 : Int) < 0 ∨ (9 : Int) > (8 : Nat)) :=
  ⟨rfl, by decide, by decide, rfl, by decide⟩

theorem witness_BatchingIsEquivalent :
    exhausted.init = true ∧ Keyed [1, 2, 3] [3, 4, 5] exhausted ∧ (0 : Int) ≤ 2 ∧ (0 : Int) ≤ 81 ∧ (2 : Int) + 81 ≤ (83 : Nat) :=
  ⟨rfl, streaming_keyed, by decide⟩

/-- Both forms of a draw, of no byte and of one. -/
theorem witness_RefillCountOfADraw :
    exhausted.init = true ∧ Keyed [1, 2, 3] [3, 4, 5] exhausted ∧ (0 : Int) ≤ 0 ∧ (0 : Int) + (1 : Nat) ≤ (1 : Nat) ∧
      (∃ t, exec (.nextBytes (some 8) 8 0) streaming = .next t) ∧ execAll (List.replicate 0 .nextByte) exhausted = .next exhausted ∧
      ∃ t, execAll (List.replicate 1 .nextByte) exhausted = .next t :=
  ⟨rfl, streaming_keyed, by decide, by decide, witness_EveryCommandIsAnsweredOnce.2.2.2, rfl,
    (nextByte_ready exhausted rfl streaming_keyed).imp fun t h => by simp only [List.replicate, execAll, h]⟩

theorem witness_SplitDrawIsContinuous :
    streaming.init = true ∧ Keyed [1, 2, 3] [3, 4, 5] streaming ∧ (0 : Int) ≤ 2 ∧ (2 : Int) + ((80 + 1 : Nat) : Int) ≤ (83 : Nat) :=
  ⟨rfl, streaming_keyed, by decide⟩

theorem witness_AnyDrawsDeliverThePrf :
    StreamAt config [1, 2, 3] [3, 4, 5] 0 streaming ∧
      ∀ i ∈ [Instr.nextByte, .nextBytes (some 100) 0 100, .nextBytes (some 0) 0 0], validDraw i ≠ none :=
  ⟨streaming_streamAt, by decide⟩

theorem witness_DrawsTouchOnlyTheStream :
    (∃ t, exec .nextByte exhausted = .next t) ∧ Memory.wf exhausted.dst ∧ AdaptersIdle exhausted ∧
      validDraw .nextByte = some 1 ∧ streaming.idx.val + 1 ≤ 80 ∧ ∃ t, exec (.nextBytes (some 8) 8 0) streaming = .next t :=
  ⟨nextByte_ready exhausted rfl streaming_keyed, List.Pairwise.nil,
    ⟨rfl, rfl⟩, rfl, by decide, witness_EveryCommandIsAnsweredOnce.2.2.2⟩

/-- A step in Ready, and one in Uninitialized whose packet is no INIT. -/
theorem witness_OnlyInitMakesReady :
    (∃ t, step streaming = .next t) ∧ streaming.resetIn = false ∧ streaming.init = true ∧
      (∃ t, step { State.reset with cmdIn := [0x4, 1] } = .next t) ∧ State.reset.init = false ∧
      ∀ x d ws bs, fetch [0x4, 1] [] ≠ .command (.init (some x) (some d)) ws bs := by
  refine ⟨⟨_, rfl⟩, rfl, rfl, ⟨_, rfl⟩, rfl, fun x d ws bs => ?_⟩
  have : fetch [0x4, 1] [] = .command (.addRandomByte 1) [] [] := by decide
  rw [this]; simp

theorem witness_OnlyInitWritesKeysAndSeed :
    isHostCommand (.init none none) = true ∧ ∃ t, exec (.init none none) streaming = .next t :=
  ⟨rfl, witness_InitIssuesTheTraceOfR84.2.2.2.2.2.2.imp fun t h =>
    show outcomeOf (initWith config none none streaming) = .next t by rw [h]; rfl⟩

theorem witness_StepKeepsTheEngineInvariant :
    EngineInv config streaming ∧ step streaming = .next streaming ∧ EngineInv config State.reset ∧
      ∃ t, step { State.reset with cmdIn := [0x4, 1] } = .next t :=
  ⟨⟨rfl, rfl, ⟨rfl, rfl⟩, fun _ => ⟨[1, 2, 3], [3, 4, 5], 0, rfl, streaming_streamAt⟩⟩, rfl,
    ⟨rfl, rfl, ⟨rfl, rfl⟩, fun h => absurd (show false = true from h) (by decide)⟩, _, rfl⟩

theorem witness_StepKeepsTheDstInvariant :
    DstInv { State.reset with dst := [(4, 0x0b)], trace := [.dst 4 0x0b] } ∧
      ∃ t, step { State.reset with dst := [(4, 0x0b)], trace := [.dst 4 0x0b] } = .next t := by
  refine ⟨⟨?_, ?_, ?_⟩, _, rfl⟩ <;> decide

theorem reset_registersFit : RegistersFit config State.reset :=
  ⟨rfl, rfl, fun _ h => absurd h (by simp [State.reset, State.afterReset]), List.length_take_le _ _⟩

/-- A step that runs a command, and one that takes the reset. -/
theorem witness_StepKeepsTheRegisterWidths :
    RegistersFit config { State.reset with cmdIn := [0x4, 1] } ∧ (∃ t, step { State.reset with cmdIn := [0x4, 1] } = .next t) ∧
      RegistersFit config { State.reset with resetIn := true } ∧ ∃ t, step { State.reset with resetIn := true } = .next t :=
  ⟨reset_registersFit, ⟨_, rfl⟩, reset_registersFit, _, rfl⟩

theorem witness_EveryRunGoesOn : EngineInv config State.reset := witness_StepKeepsTheEngineInvariant.2.2.1

/-- Two engines after reset whose unspecified registers differ, and a step that runs. -/
theorem witness_ResetLeftoversNeverShow :
    Alike { State.reset with cmdIn := [0x4, 1] } { State.reset with cmdIn := [0x4, 1], seed := [1], idx := 3 } ∧
      ∃ t, step { State.reset with cmdIn := [0x4, 1] } = .next t :=
  ⟨⟨rfl, rfl, rfl, rfl, rfl, rfl, rfl, rfl, fun h => absurd (show false = true from h) (by decide)⟩, _, rfl⟩

end Sys2Proof.Tests
end

section
/-! PROOFS. What every command answers and what every step keeps: the lifecycle flag, keys and seed, the invariants of R22 and
R23, the register widths, and that the leftovers of a reset never show (10_state.md). -/

namespace Sys2Proof.Machine

/-! ### The response word and the step, read forwards -/

/-- STATUS is the low byte of a response word (R56). -/
@[simp] theorem respStatus_responseWord (st : Status) (data : Option Byte) (rdy : Bool) :
    respStatus (responseWord st data rdy) = st.code :=
  BitVec.extractLsb'_append_eq_right

/-- Where the reset input is asserted, the step takes it (R125). -/
theorem step_of_reset {s : State} (h : s.resetIn = true) : step s = .next (s.takeReset config) := by
  simp [step, h]

/-- Where an operation stands first at the MAC ports, the step is that operation. -/
theorem step_of_port {s : State} {op : PortOp} {rest : List PortOp} {i : Instr} (h : s.resetIn = false)
    (hm : s.macIn = op :: rest) (hd : decodePort op = .ok i) : step s = exec i { s with macIn := rest } := by
  simp [step, h, hm, hd]

/-- In IDLE with no whole packet at the ports, the block waits (R45, R123). -/
theorem step_of_waiting {s : State} (h : s.resetIn = false) (hm : s.macIn = []) (hp : s.phase = .idle)
    (hf : fetch s.cmdIn s.payIn = .waiting) : step s = .next s := by
  simp [step, h, hm, hp, hf]

/-- In IDLE with a whole packet at the ports, the step is its command (R38, R45). -/
theorem step_of_command {s : State} {i : Instr} {ws : List Word} {bs : Bytes} (h : s.resetIn = false)
    (hm : s.macIn = []) (hp : s.phase = .idle) (hf : fetch s.cmdIn s.payIn = .command i ws bs) :
    step s = exec i { s with cmdIn := ws, payIn := bs } := by
  simp [step, h, hm, hp, hf]

/-- With nothing at the MAC ports a step takes the reset, waits, or runs a host command (R38, R45, R125). -/
theorem step_cases_noPort {s t : State} (hm : s.macIn = []) (e : step s = .next t) :
    t = s.takeReset config ∨ t = s ∨
      ∃ i ws bs, isHostCommand i = true ∧ exec i { s with cmdIn := ws, payIn := bs } = .next t := by
  rcases step_cases e with ⟨-, h⟩ | ⟨-, op, rest, -, hop, -⟩ | ⟨-, -, -, ⟨h, -⟩ | ⟨i, ws, bs, hf, e'⟩⟩
  · exact .inl h
  · exact absurd (hm.symm.trans hop) (by simp)
  · exact .inr (.inl h)
  · exact .inr (.inr ⟨i, ws, bs, (fetch_wellFormed hf).1, e'⟩)

/-! ### Host commands, read forwards -/

/-- A host command whose checks fail only answers its error (R116). -/
theorem exec_error {i : Instr} {s : State} (hi : isHostCommand i = true) (hst : commandStatus config i s.init ≠ .ok) :
    exec i s = .next (answered (commandStatus config i s.init) s) := by
  cases i with
  | init secret seed => exact congrArg outcomeOf (initWith_error config secret seed s hst)
  | nextByte =>
    cases hr : s.init with
    | false => exact congrArg outcomeOf (nextByteWith_uninit config s hr)
    | true => exact absurd (by simp [commandStatus, nextByteStatus, hr]) hst
  | nextBytes dest offset length => exact congrArg outcomeOf (nextBytesWith_error config dest offset length s hst)
  | addRandomByte b => exact absurd rfl hst
  | addRandomBytes bs => exact absurd rfl hst
  | illegal opc => exact congrArg Host.Outcome.next (raiseError_answered .illegalCmd s)
  | _ => exact absurd hi (by simp [isHostCommand])

/-- An entropy hook only answers OK, whatever byte it carries (R97). -/
theorem exec_addRandomByte (b : Byte) (s : State) : exec (.addRandomByte b) s = .next (answered .ok s) :=
  congrArg Host.Outcome.next (finish_answered .ok s)

/-- The same of any number of bytes (R98). -/
theorem exec_addRandomBytes (bs : Bytes) (s : State) : exec (.addRandomBytes bs) s = .next (answered .ok s) :=
  congrArg Host.Outcome.next (finish_answered .ok s)

/-! ### What a host command answers -/

/-- The lifecycle flag behind a host command: its status and the old flag alone decide it (R16). -/
theorem host_init {i : Instr} {s t : State} (hi : isHostCommand i = true) (e : exec i s = .next t) :
    t.init = if commandStatus config i s.init = .ok then initAfter i s.init else s.init := by
  rcases host_inv hi e with ⟨hst, rfl⟩ | ⟨hst, ev, data, eff⟩
  · rw [if_neg hst]; rfl
  · rw [if_pos hst]; exact eff.init

/-- An INIT that passes its checks in Uninitialized has both operands, and both cores accept their half (R76, R115). -/
theorem firstInit_operands {c : Config} {secret seed : Option Bytes} (hst : initStatus c false secret seed = .ok) :
    ∃ x d, secret = some x ∧ seed = some d ∧ secretOk c x = true := by
  obtain ⟨-, ok, hsecret, hseed⟩ := (initStatus_ok c _ _ _).mp hst
  cases secret with
  | none => exact absurd (hsecret rfl) Bool.false_ne_true
  | some x =>
    cases seed with
    | none => exact absurd (hseed rfl) Bool.false_ne_true
    | some d => exact ⟨x, d, rfl, rfl, ok x rfl⟩

/-- No host command takes the block out of Ready (R16). -/
theorem host_keepsReady {i : Instr} {s t : State} (hi : isHostCommand i = true) (e : exec i s = .next t)
    (hr : s.init = true) : t.init = true := by
  rw [host_init hi e, hr]
  split
  · cases i <;> rfl
  · rfl

/-- Of the host commands only an INIT with both operands takes the block out of Uninitialized (R16, R120). -/
theorem host_staysUninitialized {i : Instr} {s t : State} (hi : isHostCommand i = true) (e : exec i s = .next t)
    (hu : s.init = false) (hn : ∀ x d, i ≠ .init (some x) (some d)) : t.init = false := by
  rw [host_init hi e, hu]
  split
  · rename_i hst
    cases i with
    | init secret seed =>
      obtain ⟨x, d, rfl, rfl, -⟩ := firstInit_operands hst
      exact absurd rfl (hn x d)
    | _ => rfl
  · rfl

/-- The record of a host command holds one response, and its beats go where the command says (R42, R56). -/
theorem host_record {i : Instr} {s t : State} {ev : List Event} (hi : isHostCommand i = true) (e : exec i s = .next t)
    (tr : t.trace = s.trace ++ ev) :
    (∃ data : Option Byte, responsesOf ev = [responseWord (commandStatus config i s.init) data t.init] ∧
      (i ≠ .nextByte → data = none)) ∧
    (beatsOf ev).map Prod.fst = if commandStatus config i s.init = .ok then beatAddresses i else [] := by
  rcases host_inv hi e with ⟨hst, rfl⟩ | ⟨hst, ev', data, eff⟩
  · obtain rfl := List.append_cancel_left tr
    rw [if_neg hst]
    exact ⟨⟨none, rfl, fun _ => rfl⟩, rfl⟩
  · obtain rfl := List.append_cancel_left (eff.trace.symm.trans tr)
    rw [if_pos hst, hst]
    refine ⟨⟨data, ?_, fun hn => ?_⟩, ?_⟩
    · simp only [responsesOf_append, eff.noResponse]; rfl
    · cases hd : data with
      | none => rfl
      | some b => exact absurd (eff.hasData.mp (by rw [hd]; rfl)) hn
    · rw [← eff.beats]
      simp [beatsOf]

/-! ### Keys and seed -/

/-- An operand within its limit (R63). -/
theorem overLimit_eq_false {limit : Nat} {operand : Option Bytes} :
    overLimit limit operand = false ↔ ∀ b, operand = some b → b.length ≤ limit := by
  cases operand <;> simp [overLimit]

/-- `ceil(n/2)` (R64 (a)). -/
theorem splitLength_eq (n : Nat) : splitLength n = (n + 1) / 2 := by
  rw [splitLength, Nat.shiftRight_eq_div_pow, Nat.and_one_is_mod]
  omega

/-- The first half of a secret of `n` bytes has `ceil(n/2)` bytes (R77). -/
theorem length_firstHalf (x : Bytes) : (firstHalf x).length = (x.length + 1) / 2 := by
  rw [firstHalf, List.length_take, splitLength_eq]
  omega

/-- And so has the last half. -/
theorem length_lastHalf (x : Bytes) : (lastHalf x).length = (x.length + 1) / 2 := by
  rw [lastHalf, List.length_drop, splitLength_eq]
  omega

/-- A host command leaves both keys alone, or was an INIT whose secret, within its limit, they are the halves of
(R11, R63, R78). -/
theorem host_keys {i : Instr} {s t : State} (hi : isHostCommand i = true) (e : exec i s = .next t) :
    (t.md5.key = s.md5.key ∧ t.sha1.key = s.sha1.key) ∨
      ∃ x seed, i = .init (some x) seed ∧ x.length ≤ config.maxSecretLen ∧ t.md5.key = some (firstHalf x) ∧
        t.sha1.key = some (lastHalf x) := by
  rcases host_inv hi e with ⟨-, rfl⟩ | ⟨hst, ev, data, eff⟩
  · exact .inl ⟨rfl, rfl⟩
  · have h1 := eff.md5Key
    have h2 := eff.sha1Key
    cases i with
    | init secret seed =>
      cases secret with
      | none => exact .inl ⟨h1, h2⟩
      | some x =>
        obtain ⟨hl, -⟩ := (initStatus_ok config _ _ _).mp hst
        obtain ⟨hx, -⟩ := Bool.or_eq_false_iff.mp hl
        exact .inr ⟨x, seed, rfl, overLimit_eq_false.mp hx x rfl, h1, h2⟩
    | _ => exact .inl ⟨h1, h2⟩

/-- A host command leaves the seed alone, or was an INIT whose seed, within its limit, it now is (R12, R63, R79). -/
theorem host_seed {i : Instr} {s t : State} (hi : isHostCommand i = true) (e : exec i s = .next t) :
    t.seed = s.seed ∨ ∃ secret d, i = .init secret (some d) ∧ d.length ≤ config.maxSeedLen ∧ t.seed = d := by
  rcases host_inv hi e with ⟨-, rfl⟩ | ⟨hst, ev, data, eff⟩
  · exact .inl rfl
  · have h := eff.seed
    cases i with
    | init secret seed =>
      cases seed with
      | none => exact .inl h
      | some d =>
        obtain ⟨hl, -⟩ := (initStatus_ok config _ _ _).mp hst
        obtain ⟨-, hd⟩ := Bool.or_eq_false_iff.mp hl
        exact .inr ⟨secret, d, rfl, overLimit_eq_false.mp hd d rfl, h⟩
    | _ => exact .inl h

/-- A host command touches no port (R138). -/
theorem host_ports {i : Instr} {s t : State} (hi : isHostCommand i = true) (e : exec i s = .next t) : SamePorts s t := by
  rcases host_inv hi e with ⟨-, rfl⟩ | ⟨-, ev, data, eff⟩
  · exact answered_ports _ s
  · exact eff.ports

/-! ### The register widths (R10, R28) -/

/-- The widths hold right after every reset. -/
theorem registersFit_afterReset (c : Config) (n : Nat) : RegistersFit c (State.afterReset c n) :=
  ⟨rfl, rfl, fun _ hk => absurd hk (by simp [State.afterReset]), List.length_take_le _ _⟩

/-- Every host command keeps the widths: keys and seed change only to the halves and the seed of an INIT within its limits. -/
theorem host_registersFit {i : Instr} {s t : State} (hi : isHostCommand i = true) (e : exec i s = .next t)
    (fit : RegistersFit config s) : RegistersFit config t := by
  obtain ⟨hm, hlen, hmax, hseed⟩ := fit
  obtain ⟨-, -, -, -, pm⟩ := host_ports hi e
  have seedFits : t.seed.length ≤ config.maxSeedLen := by
    rcases host_seed hi e with h | ⟨-, d, -, hd, h⟩
    · rw [h]; exact hseed
    · rw [h]; exact hd
  rcases host_keys hi e with ⟨h1, h2⟩ | ⟨x, -, -, hx, h1, h2⟩
  · exact ⟨pm.trans hm, by rw [h1, h2]; exact hlen, by rw [h1]; exact hmax, seedFits⟩
  · refine ⟨pm.trans hm, ?_, fun k hk => ?_, seedFits⟩
    · rw [h1, h2, Option.map_some, Option.map_some, length_firstHalf, length_lastHalf]
    · obtain rfl := Option.some.inj (h1.symm.trans hk)
      rw [length_firstHalf]
      omega

/-! ### The stream (R23) -/

/-- Some stream position, reached under two keys of one length. -/
def HasStream (c : Config) (s : State) : Prop :=
  ∃ k1 k2 pos, k1.length = k2.length ∧ StreamAt c k1 k2 pos s

/-- The stream looks at the registers alone. -/
theorem HasStream.same {c : Config} {s t : State} (hs : HasStream c s) (h : SameRegisters s t) : HasStream c t := by
  obtain ⟨k1, k2, pos, hl, st⟩ := hs
  exact ⟨k1, k2, pos, hl, st.same h⟩

/-- The end of a command writes no register but the phase. -/
theorem finish_same (st : Status) (data : Option Byte) (s : State) : SameRegisters s (s.finish st data) :=
  ⟨rfl, rfl, rfl, rfl, rfl, rfl, rfl, rfl⟩

/-- An INIT that passes its checks starts a stream, under the halves of its secret or the keys in force (R75, R81). -/
theorem initWith_hasStream {c : Config} {secret seed : Option Bytes} {s : State}
    (hst : initStatus c s.init secret seed = .ok) (hs : s.init = true → HasStream c s) :
    ∃ t, initWith c secret seed s = .ok t ∧ HasStream c t := by
  cases secret with
  | some x =>
    obtain ⟨e, hk⟩ := initWith_success c (some x) seed s (firstHalf x) (lastHalf x) hst
      (fun y hy => by obtain rfl := Option.some.inj hy; exact ⟨rfl, rfl⟩) (fun h => absurd h (by simp))
    exact ⟨_, e, _, _, 0, by rw [length_firstHalf, length_lastHalf], committed_streamAt c _ _ _ hk⟩
  | none =>
    obtain ⟨-, -, hr, -⟩ := (initStatus_ok c _ _ _).mp hst
    obtain ⟨k1, k2, pos, hl, -, keyed, -⟩ := hs (hr rfl)
    obtain ⟨e, hk⟩ := initWith_success c none seed s k1 k2 hst (fun y hy => absurd hy (by simp)) (fun _ => keyed)
    exact ⟨_, e, _, _, 0, hl, committed_streamAt c _ _ _ hk⟩

/-- A NEXT_BYTE in Ready moves the stream one position on (R95). -/
theorem nextByteWith_streamAt {c : Config} {k1 k2 : Bytes} {pos : Nat} {s : State} (hs : StreamAt c k1 k2 pos s) :
    ∃ t, nextByteWith c s = .ok t ∧ StreamAt c k1 k2 (pos + 1) t := by
  have drawn := (nextDraw_streamAt c k1 k2 pos ((s.setPhase .check).setPhase .draw) hs).2
  obtain ⟨hr, keyed, -⟩ := hs
  exact ⟨_, nextByteWith_ready c k1 k2 s hr keyed, drawn.same (finish_same _ _ _)⟩

/-- A NEXT_BYTES that passes its checks moves the stream by its length (R96). -/
theorem nextBytesWith_streamAt {c : Config} {k1 k2 : Bytes} {pos : Nat} {s : State} {dest : Option Nat}
    {offset length : Int} (hst : nextBytesStatus s.init dest offset length = .ok) (hs : StreamAt c k1 k2 pos s) :
    ∃ t, nextBytesWith c dest offset length s = .ok t ∧ StreamAt c k1 k2 (pos + length.toNat) t := by
  obtain ⟨u, -, -, hu, same, -⟩ :=
    drawTo_keyed c k1 k2 offset.toNat length.toNat ((s.setPhase .check).setPhase .draw) hs.2.1
  have drawn := (draws_streamAt c k1 k2 length.toNat pos ((s.setPhase .check).setPhase .draw) hs).2.1
  refine ⟨u.finish .ok none, ?_, (drawn.same same).same (finish_same _ _ _)⟩
  rw [nextBytesWith, hst]
  simp only [hu]

/-- What a total result satisfies, the next state satisfies. -/
theorem next_satisfies {r : Except Fault State} {P : State → Prop} {t : State} (h : ∃ u, r = .ok u ∧ P u)
    (e : outcomeOf r = .next t) : P t := by
  obtain ⟨u, hu, hP⟩ := h
  obtain rfl := Except.ok.inj (hu.symm.trans (outcomeOf_next e))
  exact hP

/-- A host command that answers OK with the block Ready behind it leaves a stream. -/
theorem host_hasStream {i : Instr} {s t : State} (hi : isHostCommand i = true) (e : exec i s = .next t)
    (hst : commandStatus config i s.init = .ok) (hs : s.init = true → HasStream config s) (hr : t.init = true) :
    HasStream config t := by
  have flag : true = initAfter i s.init := by
    rw [← hr, host_init hi e, if_pos hst]
  cases i with
  | init secret seed => exact next_satisfies (initWith_hasStream hst hs) e
  | nextByte =>
    obtain ⟨k1, k2, pos, hl, st⟩ := hs flag.symm
    exact ⟨k1, k2, pos + 1, hl, next_satisfies (nextByteWith_streamAt st) e⟩
  | nextBytes dest offset length =>
    obtain ⟨k1, k2, pos, hl, st⟩ := hs flag.symm
    exact ⟨k1, k2, pos + length.toNat, hl, next_satisfies (nextBytesWith_streamAt hst st) e⟩
  | addRandomByte b =>
    obtain rfl := Host.Outcome.next.inj ((exec_addRandomByte b s).symm.trans e)
    exact (hs hr).same (answered_same _ s)
  | addRandomBytes bs =>
    obtain rfl := Host.Outcome.next.inj ((exec_addRandomBytes bs s).symm.trans e)
    exact (hs hr).same (answered_same _ s)
  | illegal opc => exact absurd hst (by simp [commandStatus])
  | _ => exact absurd hi (by simp [isHostCommand])

/-! ### The engine invariant (R22, R23) -/

/-- Right after every reset the engine invariant holds, for the block is Uninitialized. -/
theorem engineInv_afterReset (c : Config) (n : Nat) : EngineInv c (State.afterReset c n) :=
  ⟨rfl, rfl, ⟨rfl, rfl⟩, fun h => absurd h Bool.false_ne_true⟩

/-- Every host command keeps the engine invariant. -/
theorem host_engineInv {i : Instr} {s t : State} (hi : isHostCommand i = true) (e : exec i s = .next t)
    (inv : EngineInv config s) : EngineInv config t := by
  obtain ⟨-, hm, ⟨i1, i2⟩, hs⟩ := inv
  rcases host_inv hi e with ⟨-, rfl⟩ | ⟨hst, ev, data, eff⟩
  · exact ⟨rfl, hm, ⟨i1, i2⟩, fun hr => HasStream.same (hs hr) (answered_same _ s)⟩
  · obtain ⟨-, -, -, -, pm⟩ := eff.ports
    exact ⟨eff.phase, pm.trans hm, ⟨eff.md5Idle i1, eff.sha1Idle i2⟩, host_hasStream hi e hst hs⟩

/-! ### What a reset leaves behind (R24, R104) -/

/-- The run that answers `r`, from the engine `s'`, looks like the run from `s` to `t`: the same events, and engines alike. -/
def RunsAlike (r : Host.Outcome State Fault Refusal) (s s' t : State) : Prop :=
  ∃ t' ev, r = .next t' ∧ Alike t t' ∧ t.trace = s.trace ++ ev ∧ t'.trace = s'.trace ++ ev

/-- Engines that differ in nothing an operation reads are alike. -/
theorem Sim.alike {s s' : State} (h : Sim s s') : Alike s s' := by
  obtain ⟨T, r, m, rfl⟩ := h
  exact ⟨rfl, rfl, rfl, rfl, rfl, rfl, rfl, rfl, fun _ => ⟨rfl, rfl, rfl, rfl, rfl⟩⟩

/-- In Ready, engines alike differ in nothing an operation reads. -/
theorem Alike.sim {s s' : State} (al : Alike s s') (hr : s.init = true) : Sim s s' := by
  obtain ⟨h1, h2, h3, h4, h5, h6, h7, h8, h9⟩ := al
  obtain ⟨g1, g2, g3, g4, g5⟩ := h9 hr
  refine ⟨s'.trace, s'.resets, s'.dst, ?_⟩
  cases s
  cases s'
  simp_all

/-- Engines alike have the same adapters. -/
theorem Alike.adapter {s s' : State} (al : Alike s s') (h : Chain) : s'.adapter h = s.adapter h := by
  obtain ⟨-, h1, h2, -⟩ := al
  cases h
  · exact h1
  · exact h2

/-- Writing the same value to an adapter keeps engines alike. -/
theorem Alike.setAdapter {s s' : State} (al : Alike s s') (h : Chain) (a : Adapter) :
    Alike (s.setAdapter h a) (s'.setAdapter h a) := by
  obtain ⟨h1, h2, h3, h4, h5, h6, h7, h8, h9⟩ := al
  cases h
  · exact ⟨h1, rfl, h3, h4, h5, h6, h7, h8, h9⟩
  · exact ⟨h1, h2, rfl, h4, h5, h6, h7, h8, h9⟩

/-- A MAC-port operation that only appends its event. -/
theorem Alike.logs {s s' : State} (al : Alike s s') (e : Event) :
    RunsAlike (.next (s'.log e)) s s' (s.log e) :=
  ⟨_, [e], rfl, al, rfl, rfl⟩

/-- A MAC-port operation that writes its adapter and appends its event. -/
theorem Alike.writesAdapter {s s' : State} (al : Alike s s') (h : Chain) (a : Adapter) (e : Event) :
    RunsAlike (.next ((s'.setAdapter h a).log e)) s s' ((s.setAdapter h a).log e) :=
  ⟨_, [e], rfl, al.setAdapter h a, by simp, by simp⟩

/-- The five operations of a MAC port read the adapters alone (R65 to R70). -/
theorem macOp_runsAlike {i : Instr} {s s' t : State} (hi : isHostCommand i = false) (hr : i ≠ .refill)
    (al : Alike s s') (e : exec i s = .next t) : RunsAlike (exec i s') s s' t := by
  have keyed : ∀ {h k}, (s.adapter h).key = some k → (s'.adapter h).key = some k := fun hk => by rw [al.adapter, hk]
  cases i with
  | macInit h key =>
    obtain rfl := Host.Outcome.next.inj e
    simp only [exec, execMacInit, macInit]
    split
    · exact al.writesAdapter h _ _
    · exact al.logs _
  | macUpdate h bytes offset length =>
    obtain ⟨k, hk, rfl⟩ := needKey_map_inv (outcomeOf_next e)
    simp only [exec, execMacUpdate, macUpdate_keyed (keyed hk), outcomeOf, appendRange, al.adapter]
    split
    · exact al.logs _
    · exact al.writesAdapter h _ _
  | macDigest h =>
    obtain ⟨k, hk, rfl⟩ := macDigest_inv (outcomeOf_next e)
    simp only [exec, execMacDigest, macDigest_keyed (keyed hk), al.adapter]
    exact al.logs _
  | macReset h =>
    obtain ⟨k, hk, rfl⟩ := needKey_map_inv (outcomeOf_next e)
    simp only [exec, execMacReset, macReset_keyed (keyed hk), outcomeOf, clearPending, al.adapter]
    exact al.writesAdapter h _ _
  | macSize h =>
    obtain rfl := Host.Outcome.next.inj e
    exact al.logs _
  | refill => exact absurd rfl hr
  | _ => exact absurd hi (by simp [isHostCommand])

/-- A command that only answers shows the lifecycle flag and nothing else. -/
theorem Alike.answers {s s' : State} (al : Alike s s') (st : Status) :
    RunsAlike (.next (answered st s')) s s' (answered st s) := by
  obtain ⟨h1, h2, h3, -, h5, h6, h7, h8, h9⟩ := al
  exact ⟨_, _, rfl, ⟨h1, h2, h3, rfl, h5, h6, h7, h8, h9⟩, rfl, by rw [← h1]; rfl⟩

/-- Where the first INIT commits from: its secret's halves in the adapters, its seed in the register (R78, R79). -/
def firstLoaded (c : Config) (x d : Bytes) (s : State) : State :=
  storeSeed (some d) (keyLoad c (some x) (s.setPhase .check))

/-- The first INIT of an Uninitialized block, as one equation (R75, R81). -/
theorem exec_firstInit {x d : Bytes} {s : State} (hst : commandStatus config (.init (some x) (some d)) s.init = .ok) :
    exec (.init (some x) (some d)) s =
      .next (committed config (firstHalf x) (lastHalf x) (firstLoaded config x d s)) :=
  congrArg outcomeOf (initWith_success config (some x) (some d) s (firstHalf x) (lastHalf x) hst
    (fun y hy => by obtain rfl := Option.some.inj hy; exact ⟨rfl, rfl⟩) (fun h => absurd h (by simp))).1

/-- The first INIT overwrites every register that a reset leaves open, the old buffer having no influence (R79 to R86). -/
theorem firstInit_runsAlike {c : Config} {x d : Bytes} {s s' : State} (k1 k2 : Bytes) (ok : secretOk c x = true)
    (al : Alike s s') :
    RunsAlike (.next (committed c k1 k2 (firstLoaded c x d s'))) s s' (committed c k1 k2 (firstLoaded c x d s)) := by
  obtain ⟨-, -, -, -, h5, h6, h7, h8, -⟩ := al
  simp only [firstLoaded, keyLoad_some c x _ ok]
  exact ⟨_, [.phase .check] ++ keyLoadRecord (some x) ++ commitRecord c k1 k2 d, rfl,
    ⟨rfl, rfl, rfl, rfl, h5, h6, h7, h8, fun _ => ⟨rfl, rfl, rfl, refillBuf_old c k1 k2 d _ _ _ _, rfl⟩⟩,
    by simp [committed, storeSeed, State.setSeed], by simp [committed, storeSeed, State.setSeed]⟩

/-- A host command runs alike on engines alike. -/
theorem host_runsAlike {i : Instr} {s s' t : State} (hi : isHostCommand i = true) (al : Alike s s')
    (e : exec i s = .next t) : RunsAlike (exec i s') s s' t := by
  cases hr : s.init with
  | true =>
    obtain ⟨t', ev, e', sim, tr, tr'⟩ := exec_lift i s s' t (al.sim hr) e
    exact ⟨t', ev, e', sim.alike, tr, tr'⟩
  | false =>
    have ⟨hinit, _⟩ := al
    by_cases hst : commandStatus config i s.init = .ok
    · cases i with
      | init secret seed =>
        obtain ⟨x, d, rfl, rfl, ok⟩ := firstInit_operands (hr ▸ hst)
        obtain rfl := Host.Outcome.next.inj ((exec_firstInit hst).symm.trans e)
        rw [exec_firstInit (by rw [hinit]; exact hst)]
        exact firstInit_runsAlike _ _ ok al
      | nextByte => exact absurd hst (by simp [commandStatus, nextByteStatus, hr])
      | nextBytes dest offset length => exact absurd hst (by simp [commandStatus, nextBytesStatus, hr])
      | addRandomByte b =>
        obtain rfl := Host.Outcome.next.inj ((exec_addRandomByte b s).symm.trans e)
        rw [exec_addRandomByte]
        exact al.answers .ok
      | addRandomBytes bs =>
        obtain rfl := Host.Outcome.next.inj ((exec_addRandomBytes bs s).symm.trans e)
        rw [exec_addRandomBytes]
        exact al.answers .ok
      | illegal opc => exact absurd hst (by simp [commandStatus])
      | _ => exact absurd hi (by simp [isHostCommand])
    · obtain rfl := Host.Outcome.next.inj ((exec_error hi hst).symm.trans e)
      rw [exec_error hi (by rw [hinit]; exact hst), hinit]
      exact al.answers _

/-- The reset input brings any two engines to engines alike, however many resets each has taken. -/
theorem takeReset_runsAlike (c : Config) (s s' : State) :
    RunsAlike (.next (s'.takeReset c)) s s' (s.takeReset c) :=
  ⟨_, [.reset], rfl, ⟨rfl, rfl, rfl, rfl, rfl, rfl, rfl, rfl, fun h => absurd h Bool.false_ne_true⟩, rfl, rfl⟩

/-! ### The obligations -/

/-- Settles O48: a step is a reset, a wait or a host command, and each keeps the engine invariant. -/
theorem stepKeepsTheEngineInvariant : Obligations.StepKeepsTheEngineInvariant := by
  intro s t inv e
  have ⟨_, hm, _⟩ := inv
  rcases step_cases_noPort hm e with rfl | rfl | ⟨i, ws, bs, hi, e'⟩
  · exact engineInv_afterReset config (s.resets + 1)
  · exact inv
  · exact host_engineInv hi e' inv

/-- Settles O51: in Ready nothing differs that a step reads, and before Ready only the first INIT touches the leftovers, to
overwrite them. -/
theorem resetLeftoversNeverShow : Obligations.ResetLeftoversNeverShow := by
  intro s s' t al e
  show RunsAlike (step s') s s' t
  have ⟨h1, h2, h3, h4, h5, h6, h7, h8, h9⟩ := al
  rcases step_cases e with ⟨hr, rfl⟩ | ⟨hr, op, rest, i, hm, hd, e'⟩ | ⟨hr, hm, hp, ⟨rfl, hf⟩ | ⟨i, ws, bs, hf, e'⟩⟩
  · rw [step_of_reset (h5.trans hr)]
    exact takeReset_runsAlike config s s'
  · rw [step_of_port (h5.trans hr) (h8.trans hm) hd]
    obtain ⟨hi, hn⟩ := decodePort_isMacOp hd
    exact macOp_runsAlike (s := { s with macIn := rest }) hi hn ⟨h1, h2, h3, h4, h5, h6, h7, rfl, h9⟩ e'
  · rw [step_of_waiting (h5.trans hr) (h8.trans hm) (h4.trans hp) (by rw [h6, h7, hf])]
    exact ⟨s', [], rfl, al, by simp, by simp⟩
  · rw [step_of_command (h5.trans hr) (h8.trans hm) (h4.trans hp) (by rw [h6, h7, hf])]
    exact host_runsAlike (s := { s with cmdIn := ws, payIn := bs }) (fetch_wellFormed hf).1
      ⟨h1, h2, h3, h4, h5, rfl, rfl, h8, h9⟩ e'

/-- Settles O53: a step is a reset, a wait or a host command, and each keeps the widths. -/
theorem stepKeepsTheRegisterWidths : Obligations.StepKeepsTheRegisterWidths := by
  intro s t fit e
  have ⟨hm, _⟩ := fit
  rcases step_cases_noPort hm e with rfl | rfl | ⟨i, ws, bs, hi, e'⟩
  · exact registersFit_afterReset config (s.resets + 1)
  · exact fit
  · exact host_registersFit hi e' fit

/-- Settles O19: status, beat addresses and the flag behind a command are functions of the command and the flag before it. -/
theorem statusRevealsOnlyTheLifecycle : Obligations.StatusRevealsOnlyTheLifecycle := by
  intro i s s' t t' ev ev' hi hinit e e' tr tr'
  have sameInit : t'.init = t.init := by rw [host_init hi e', host_init hi e, hinit]
  obtain ⟨⟨data, hresp, hdata⟩, hbeats⟩ := host_record hi e tr
  obtain ⟨⟨data', hresp', hdata'⟩, hbeats'⟩ := host_record hi e' tr'
  rw [hinit] at hresp' hbeats'
  refine ⟨?_, fun hn => ?_, ?_, sameInit⟩
  · simp [hresp, hresp']
  · rw [hresp, hresp', hdata hn, hdata' hn, sameInit]
  · rw [hbeats, hbeats']

/-- Settles O45: the flag is written by an INIT that passes its checks alone, and before Ready these ask for both operands. -/
theorem onlyInitMakesReady : Obligations.OnlyInitMakesReady := by
  intro s t e noReset
  rcases step_cases e with ⟨hr, -⟩ | ⟨-, op, rest, i, -, hd, e'⟩ | ⟨-, -, -, ⟨rfl, -⟩ | ⟨i, ws, bs, hf, e'⟩⟩
  · exact absurd (noReset.symm.trans hr) Bool.false_ne_true
  · obtain ⟨hi, hn⟩ := decodePort_isMacOp hd
    obtain ⟨-, ev, -, -, -, hinit, -⟩ := macOp_frame hi hn e'
    exact ⟨hinit.trans, fun h _ => hinit.trans h⟩
  · exact ⟨id, fun h _ => h⟩
  · obtain ⟨hi, -⟩ := fetch_wellFormed hf
    exact ⟨fun hr => host_keepsReady hi e' hr,
      fun hu hn => host_staysUninitialized hi e' hu fun x d hx => hn x d ws bs (hx ▸ hf)⟩

/-- Settles O46, by `host_keys` and `host_seed`, which name the operands' limits as well. -/
theorem onlyInitWritesKeysAndSeed : Obligations.OnlyInitWritesKeysAndSeed := by
  intro i s t hi e
  constructor
  · rcases host_keys hi e with h | ⟨x, seed, hx, -, h1, h2⟩
    · exact .inl h
    · exact .inr ⟨x, seed, hx, h1, h2⟩
  · rcases host_seed hi e with h | ⟨secret, d, hd, -, h⟩
    · exact .inl h
    · exact .inr ⟨secret, d, hd, h⟩

/-- Settles O11: the step is `takeReset`, whose fields are R24's. -/
theorem resetInputResetsTheBlock : Obligations.ResetInputResetsTheBlock := by
  intro s h
  exact ⟨s.takeReset config, step_of_reset h, rfl, rfl, rfl, rfl, rfl, rfl, rfl, rfl, rfl, rfl⟩

/-- Settles O12: the fields of `State.reset`. -/
theorem resetStateIsUninitialized : Obligations.ResetStateIsUninitialized :=
  ⟨rfl, rfl, rfl, rfl, rfl, rfl⟩

/-- Settles O47: `State.reset` is a state after a reset, and its DST and record are empty. -/
theorem engineInvariantHoldsAtReset : Obligations.EngineInvariantHoldsAtReset :=
  ⟨engineInv_afterReset config 0, List.Pairwise.nil, fun _ h => absurd h List.not_mem_nil, rfl⟩

/-- Settles O52: `State.reset` is a state after a reset. -/
theorem registerWidthsHoldAtReset : Obligations.RegisterWidthsHoldAtReset :=
  registersFit_afterReset config 0

end Sys2Proof.Machine
end

section
/-! PROOFS. What passes the ports: packets off the wires and the byte-serial transport (20_memory.md R34, R45), the one response
of every command (R39, R56), the DST beats, where they go and what DST holds behind them (R31, R42, R43, R59). -/

namespace Sys2Proof

/-! ### The packets the encoder writes -/

/-- Every well-formed instruction's packet has R57's lengths: the family WireSize, gathered. -/
theorem wireSize (i : Instr) : Laws.WireSize.Statement i := by
  cases i with
  | init secret seed => exact Laws.WireSize.init secret seed
  | nextByte => exact Laws.WireSize.nextByte
  | nextBytes dest offset length => exact Laws.WireSize.nextBytes dest offset length
  | addRandomByte b => exact Laws.WireSize.addRandomByte b
  | addRandomBytes bs => exact Laws.WireSize.addRandomBytes bs
  | macInit h key => exact Laws.WireSize.macInit h key
  | macUpdate h bytes offset length => exact Laws.WireSize.macUpdate h bytes offset length
  | macDigest h => exact Laws.WireSize.macDigest h
  | macReset h => exact Laws.WireSize.macReset h
  | macSize h => exact Laws.WireSize.macSize h
  | refill => exact Laws.WireSize.refill
  | illegal opc => exact Laws.WireSize.illegal opc

/-- An opcode outside 1 to 5 decodes to the illegal command, whatever stands behind it (R55). -/
theorem decodeCommand_illegal {w0 : Word} (h : isCommandOpcode (fieldOpc w0) = false) (ops : List Word) (p : Bytes) :
    decodeCommand w0 ops p = .illegal (fieldOpc w0) := by
  unfold decodeCommand
  simp only [isCommandOpcode, Bool.and_eq_false_iff, decide_eq_false_iff_not] at h
  split
  case h_6 => rfl
  all_goals omega

/-- The words and the payload of a well-formed command's packet decode to that command (R48 to R53, R55). -/
theorem decodeCommand_encodePacket {i : Instr} {p : Packet} {w0 : Word} {ops : List Word} (wf : i.wellFormed = true)
    (hp : encodePacket i = some p) (hw : p.words = w0 :: ops) : decodeCommand w0 ops p.payload = i := by
  cases i with
  | init secret seed =>
    obtain rfl := Option.some.inj hp
    obtain ⟨rfl, rfl⟩ := List.cons.inj hw
    simp only [Instr.wellFormed, Bool.and_eq_true] at wf
    cases secret <;> cases seed <;>
      simp_all [decodeCommand, fieldOpc_header, fieldHS_header, fieldHD_header, secretBytes, seedBytes, fitsLengthWord,
        uint_ofNat]
  | nextByte =>
    obtain rfl := Option.some.inj hp
    obtain ⟨rfl, rfl⟩ := List.cons.inj hw
    rfl
  | nextBytes dest offset length =>
    obtain rfl := Option.some.inj hp
    obtain ⟨rfl, rfl⟩ := List.cons.inj hw
    simp only [Instr.wellFormed, Bool.and_eq_true] at wf
    obtain ⟨⟨hcap, hoffset⟩, hlength⟩ := wf
    cases dest <;>
      simp_all [decodeCommand, fieldOpc_header, fieldDP_header, fitsCapWord, uint_ofNat, sint_ofInt]
  | addRandomByte b =>
    obtain rfl := Option.some.inj hp
    obtain ⟨rfl, rfl⟩ := List.cons.inj hw
    exact congrArg Instr.addRandomByte (low_byte_setWidth b)
  | addRandomBytes bs =>
    obtain rfl := Option.some.inj hp
    obtain ⟨rfl, rfl⟩ := List.cons.inj hw
    simp only [Instr.wellFormed, decide_eq_true_eq] at wf
    simp [decodeCommand, fieldOpc_header, uint_ofNat _ wf]
  | illegal opc =>
    obtain rfl := Option.some.inj hp
    obtain ⟨rfl, rfl⟩ := List.cons.inj hw
    have h : isCommandOpcode opc = false := by simpa [Instr.wellFormed] using wf
    rw [decodeCommand_illegal (by rw [fieldOpc_header]; exact h), fieldOpc_header]
  | _ => exact nomatch hp

/-- The packet of a well-formed command, taken apart: a header, operand words and a payload of R57's lengths, which decode to
that command. -/
theorem encodePacket_whole {i : Instr} {p : Packet} (wf : i.wellFormed = true) (hp : encodePacket i = some p) :
    ∃ w0 ops, p.words = w0 :: ops ∧ ops.length = operandWords (fieldOpc w0) ∧
      p.payload.length = payloadLength w0 ops ∧ decodeCommand w0 ops p.payload = i := by
  obtain ⟨w0, ops, hw, hops, hpay⟩ := wireSize i wf p hp
  exact ⟨w0, ops, hw, hops, hpay, decodeCommand_encodePacket wf hp hw⟩

/-- The fetch takes a well-formed command's packet off the two ports and leaves what stands behind it (R45, R57). -/
theorem fetch_encodePacket {i : Instr} {p : Packet} (wf : i.wellFormed = true) (hp : encodePacket i = some p)
    (ws : List Word) (bs : Bytes) : fetch (p.words ++ ws) (p.payload ++ bs) = .command i ws bs := by
  obtain ⟨w0, ops, hw, hops, hpay, rfl⟩ := encodePacket_whole wf hp
  rw [hw]
  exact fetch_whole w0 ops ws p.payload bs hops hpay

/-- A whole packet off a byte stream: its words, least significant byte first, then its payload (R34 (f), R45). -/
theorem decodeBytes_whole {w0 : Word} {ops : List Word} {p : Bytes} (hops : ops.length = operandWords (fieldOpc w0))
    (hpay : p.length = payloadLength w0 ops) (bs : Bytes) :
    decodeBytes ((w0 :: ops).flatMap wordToBytes ++ (p ++ bs)) = .ok (decodeCommand w0 ops p, bs) := by
  have hhead := takeWords_flatMap [w0] (ops.flatMap wordToBytes ++ (p ++ bs))
  have hrest := takeWords_flatMap ops (p ++ bs)
  have hfetch := fetch_whole w0 ops [] p bs hops hpay
  simp only [List.length_singleton, List.flatMap_singleton] at hhead
  rw [List.append_nil] at hfetch
  simp only [decodeBytes, List.flatMap_cons, List.append_assoc, hhead, ← hops, hrest, hfetch]

end Sys2Proof

namespace Sys2Proof.Machine

/-! ### The fields of a response word (R56) -/

/-- DATA is the drawn byte, zero where there is none. -/
@[simp] theorem respData_responseWord (st : Status) (data : Option Byte) (rdy : Bool) :
    respData (responseWord st data rdy) = data.getD 0 := by
  apply BitVec.eq_of_getLsbD_eq
  intro j hj
  simp only [respData, responseWord, BitVec.getLsbD_extractLsb', BitVec.getLsbD_append]
  grind

/-- DV says whether there is a drawn byte. -/
@[simp] theorem respDV_responseWord (st : Status) (data : Option Byte) (rdy : Bool) :
    respDV (responseWord st data rdy) = data.isSome := by
  simp only [respDV, responseWord, BitVec.getLsbD_append]
  simp

/-- RDY is the flag the word was made with. -/
@[simp] theorem respRDY_responseWord (st : Status) (data : Option Byte) (rdy : Bool) :
    respRDY (responseWord st data rdy) = rdy := by
  simp only [respRDY, responseWord, BitVec.getLsbD_append]
  simp

/-- The upper 14 bits are zero. -/
@[simp] theorem respZero_responseWord (st : Status) (data : Option Byte) (rdy : Bool) :
    respZero (responseWord st data rdy) = 0 := by
  apply BitVec.eq_of_getLsbD_eq
  intro j hj
  simp only [respZero, responseWord, BitVec.getLsbD_extractLsb', BitVec.getLsbD_append]
  grind

/-- A host command ends its record with one response word, made of its status, its drawn byte and the flag behind it; a drawn
byte is there exactly for a NEXT_BYTE that answers OK (R39, R56). -/
theorem host_response {i : Instr} {s t : State} (hi : isHostCommand i = true) (e : exec i s = .next t) :
    ∃ ev data, t.trace = s.trace ++ ev ++
        [.response (responseWord (commandStatus config i s.init) data t.init), .phase .idle] ∧
      responsesOf ev = [] ∧ (data.isSome = true ↔ i = .nextByte ∧ commandStatus config i s.init = .ok) ∧
      t.phase = .idle := by
  rcases host_inv hi e with ⟨hst, rfl⟩ | ⟨hst, ev, data, eff⟩
  · exact ⟨[.phase .check, .phase .respond], none, by simp [answered], rfl, by simp [hst], rfl⟩
  · refine ⟨[.phase .check] ++ ev ++ [.phase .respond], data, ?_, ?_, ?_, eff.phase⟩
    · rw [eff.trace, hst]; simp
    · simp only [responsesOf_append, eff.noResponse]; rfl
    · rw [eff.hasData]; simp [hst]

/-! ### DST behind a list of beats (R42, R43) -/

/-- A replay lists no cell but those of its beats and those already there. -/
theorem mem_replayBeats {xs : List (Nat × Byte)} {m : Memory} {x : Nat × Byte} (h : x ∈ replayBeats xs m) :
    x ∈ xs ∨ x ∈ m := by
  induction xs generalizing m with
  | nil => exact .inr h
  | cons y xs ih =>
    obtain ⟨a, b⟩ := y
    rcases ih h with h | h
    · exact .inl (List.mem_cons_of_mem _ h)
    · rcases Memory.mem_write m a b x h with rfl | h
      · exact .inl List.mem_cons_self
      · exact .inr h

/-- An address that no beat goes to reads as before. -/
theorem read_replayBeats_of_notMem {xs : List (Nat × Byte)} {m : Memory} {x : Nat} (w : Memory.wf m)
    (h : x ∉ xs.map Prod.fst) : Memory.read (replayBeats xs m) x = Memory.read m x := by
  induction xs generalizing m with
  | nil => rfl
  | cons y xs ih =>
    obtain ⟨a, b⟩ := y
    obtain ⟨hne, hmem⟩ := List.ne_and_not_mem_of_not_mem_cons h
    rw [replayBeats, ih (Memory.wf_write m a b w) hmem, Memory.read_write m a b x w, if_neg hne]

/-- Where the beats go to different addresses, each address reads the byte of its beat. -/
theorem read_replayBeats_of_mem {xs : List (Nat × Byte)} {m : Memory} {x : Nat} {v : Byte} (w : Memory.wf m)
    (once : (xs.map Prod.fst).Nodup) (h : (x, v) ∈ xs) : Memory.read (replayBeats xs m) x = some v := by
  induction xs generalizing m with
  | nil => exact absurd h List.not_mem_nil
  | cons y xs ih =>
    obtain ⟨a, b⟩ := y
    obtain ⟨fresh, once'⟩ := List.nodup_cons.mp once
    rcases List.mem_cons.mp h with h | h
    · obtain ⟨rfl, rfl⟩ := Prod.mk.inj h
      rw [replayBeats, read_replayBeats_of_notMem (Memory.wf_write m x v w) fresh, Memory.read_write m x v x w, if_pos rfl]
    · exact ih (Memory.wf_write m a b w) once' h

/-- Ascending beats of the bytes `f 0, f 1, ...`. -/
theorem beatsAt_map_range (f : Nat → Byte) (a n : Nat) :
    beatsAt a ((List.range n).map f) = (List.range n).map fun j => (a + j, f j) := by
  induction n generalizing a f with
  | zero => rfl
  | succ n ih =>
    rw [List.range_succ_eq_map, List.map_cons, List.map_map, beatsAt, ih]
    simp [Function.comp_def, Nat.add_assoc, Nat.add_comm 1]

/-- The addresses of beats ascending from `a`. -/
theorem map_fst_beatsAt (a : Nat) (bs : Bytes) : (beatsAt a bs).map Prod.fst = List.range' a bs.length := by
  induction bs generalizing a with
  | nil => rfl
  | cons b bs ih => rw [beatsAt, List.map_cons, ih]; rfl

/-! ### The beats of an instruction (R31, R42, R59) -/

/-- No instruction but NEXT_BYTES names an address. -/
theorem beatAddresses_eq_nil {i : Instr} (hn : ∀ dest offset length, i ≠ .nextBytes dest offset length) :
    beatAddresses i = [] := by
  cases i with
  | nextBytes dest offset length => exact absurd rfl (hn dest offset length)
  | _ => rfl

/-- Every instruction, from any state: its record's beats go to the addresses it names, in order, where its checks pass, else
nowhere; and DST is what they make of the old DST. -/
theorem exec_beats {i : Instr} {s t : State} (e : exec i s = .next t) :
    ∃ ev, t.trace = s.trace ++ ev ∧ t.dst = replayBeats (beatsOf ev) s.dst ∧
      (beatsOf ev).map Prod.fst = if commandStatus config i s.init = .ok then beatAddresses i else [] := by
  by_cases hi : isHostCommand i = true
  · rcases host_inv hi e with ⟨hst, rfl⟩ | ⟨hst, ev, data, eff⟩
    · rw [if_neg hst]
      exact ⟨_, rfl, rfl, rfl⟩
    · have beats : beatsOf ([.phase .check] ++ ev ++
          [.phase .respond, .response (responseWord .ok data t.init), .phase .idle]) = beatsOf ev := by simp [beatsOf]
      exact ⟨_, eff.trace, by rw [beats]; exact eff.dst, by rw [beats, if_pos hst]; exact eff.beats⟩
  · have hi : isHostCommand i = false := by simpa using hi
    have notNextBytes : ∀ dest offset length, i ≠ .nextBytes dest offset length := by
      rintro dest offset length rfl
      exact absurd hi (by simp [isHostCommand])
    rw [beatAddresses_eq_nil notNextBytes, ite_self]
    by_cases hr : i = .refill
    · subst hr
      obtain ⟨⟨-, -, -, -, -, hdst, -⟩, -, -, ev, tr, -, hb, -⟩ := refillAndReturn_inv (outcomeOf_next e)
      exact ⟨ev, tr, by rw [hb]; exact hdst, by rw [hb]; rfl⟩
    · obtain ⟨hdst, ev, tr, hb, -⟩ := macOp_frame hi hr e
      exact ⟨ev, tr, by rw [hb]; exact hdst, by rw [hb]; rfl⟩

/-- Where the checks of NEXT_BYTES pass, its addresses lie in the window (R96). -/
theorem window_of_nextBytesStatus_ok {ready : Bool} {dest : Option Nat} {offset length : Int}
    (hst : nextBytesStatus ready dest offset length = .ok) :
    ∃ cap, dest = some cap ∧ 0 ≤ offset ∧ offset + length ≤ cap ∧
      ∀ a ∈ List.range' offset.toNat length.toNat, a < cap := by
  obtain ⟨-, cap, hd, ho, hl, hc⟩ := (nextBytesStatus_ok ready dest offset length).mp hst
  refine ⟨cap, hd, ho, hc, fun a ha => ?_⟩
  have := List.mem_range'_1.mp ha
  omega

/-- The addresses of a well-formed instruction whose checks pass fit the 32-bit write port (R59). -/
theorem beatAddresses_fit {c : Config} {i : Instr} {ready : Bool} (wf : i.wellFormed = true)
    (hst : commandStatus c i ready = .ok) : ∀ a ∈ beatAddresses i, a < 2 ^ 32 := by
  cases i with
  | nextBytes dest offset length =>
    obtain ⟨cap, rfl, -, -, inside⟩ := window_of_nextBytesStatus_ok hst
    simp only [Instr.wellFormed, fitsCapWord, Bool.and_eq_true, decide_eq_true_eq] at wf
    obtain ⟨⟨hcap, -⟩, -⟩ := wf
    exact fun a ha => (inside a ha).trans hcap
  | _ => exact fun a ha => absurd ha List.not_mem_nil

/-- The beats of a well-formed instruction go to addresses of 32 bits. -/
theorem beats_fit {i : Instr} {s : State} {ev : List Event} (wf : i.wellFormed = true)
    (h : (beatsOf ev).map Prod.fst = if commandStatus config i s.init = .ok then beatAddresses i else []) :
    ∀ b ∈ beatsOf ev, b.1 < 2 ^ 32 := by
  intro b hb
  have ha : b.1 ∈ (beatsOf ev).map Prod.fst := List.mem_map_of_mem hb
  rw [h] at ha
  split at ha
  · rename_i hst
    exact beatAddresses_fit wf hst b.1 ha
  · exact absurd ha List.not_mem_nil

/-! ### The DST invariant -/

/-- What stands at a MAC port decodes to a well-formed instruction (R58, R67). -/
theorem decodePort_wellFormed {op : PortOp} {i : Instr} (h : decodePort op = .ok i) : i.wellFormed = true := by
  unfold decodePort at h
  split at h
  case h_6 => exact absurd h (by simp)
  all_goals
    obtain rfl := Except.ok.inj h
    simp [Instr.wellFormed]

/-- Every well-formed instruction keeps the DST invariant. -/
theorem exec_dstInv {i : Instr} {s t : State} (wf : i.wellFormed = true) (inv : DstInv s) (e : exec i s = .next t) :
    DstInv t := by
  obtain ⟨canonical, fits, replayed⟩ := inv
  obtain ⟨ev, tr, hdst, addresses⟩ := exec_beats e
  refine ⟨?_, fun cell hc => ?_, ?_⟩
  · rw [hdst]
    exact replayBeats_wf _ _ canonical
  · rw [hdst] at hc
    rcases mem_replayBeats hc with h | h
    · exact beats_fit wf addresses cell h
    · exact fits cell h
  · rw [hdst, tr, beatsOf_append, replayBeats_append, ← replayed]

/-- Taking the reset keeps it: DST stays and the record grows by no beat (R126). -/
theorem takeReset_dstInv (c : Config) {s : State} (inv : DstInv s) : DstInv (s.takeReset c) := by
  obtain ⟨canonical, fits, replayed⟩ := inv
  refine ⟨canonical, fits, ?_⟩
  have beats : beatsOf (s.takeReset c).trace = beatsOf s.trace := by simp [State.takeReset, beatsOf]
  rw [beats]
  exact replayed

/-! ### A valid NEXT_BYTES (R92, R96) -/

/-- From a stream position, a NEXT_BYTES that passes its checks: one OK, the next bytes of the stream in ascending beats, DST as
the beats make it, and the stream behind them. -/
theorem nextBytesWith_delivers {c : Config} {k1 k2 : Bytes} {pos : Nat} {s : State} {dest : Option Nat}
    {offset length : Int} (hs : StreamAt c k1 k2 pos s) (hst : nextBytesStatus s.init dest offset length = .ok) :
    ∃ t ev, nextBytesWith c dest offset length s = .ok t ∧ StreamAt c k1 k2 (pos + length.toNat) t ∧
      t.trace = s.trace ++ ev ∧ responsesOf ev = [responseWord .ok none true] ∧
      beatsOf ev =
        (List.range length.toNat).map (fun j => (offset.toNat + j, streamByte c k1 k2 s.seed (pos + j))) ∧
      t.dst = replayBeats (beatsOf ev) s.dst ∧ t.seed = s.seed ∧ t.phase = .idle ∧ SamePorts s t := by
  have hready : s.init = true := hs.1
  obtain ⟨u, ev, -, hu, same, -, ports, tr, hdst, noResponse, beats, -, -, -, -, -, uinit, -, useed, -⟩ :=
    drawTo_keyed c k1 k2 offset.toNat length.toNat ((s.setPhase .check).setPhase .draw) hs.2.1
  obtain ⟨bytes, drawn, -⟩ := draws_streamAt c k1 k2 length.toNat pos ((s.setPhase .check).setPhase .draw) hs
  rw [bytes, beatsAt_map_range] at beats
  have beats' : beatsOf ([.phase .check, .phase .draw] ++ ev ++
      [.phase .respond, .response (responseWord .ok none true), .phase .idle]) = beatsOf ev := by simp [beatsOf]
  refine ⟨u.finish .ok none, _, ?_, (drawn.same same).same (finish_same _ _ _), ?_, ?_, beats'.trans beats, ?_, useed, rfl,
    ports⟩
  · rw [nextBytesWith, hst]
    simp only [hu]
  · rw [State.finish_trace, tr, uinit]
    simp [hready]
  · simp only [responsesOf_append, noResponse]
    rfl
  · rw [beats']
    exact hdst

/-! ### The obligations -/

/-- Settles O3: the encoder's packet is whole, so the byte stream gives back its words and `decodeBytes_whole` the command. -/
theorem byteSerialPacketDecodes : Obligations.ByteSerialPacketDecodes := by
  intro i p bs wf hp
  obtain ⟨w0, ops, hw, hops, hpay, rfl⟩ := encodePacket_whole wf hp
  rw [packetBytes, hw, List.append_assoc]
  exact decodeBytes_whole hops hpay bs

/-- Settles O9: the fetch takes the packet off the ports, and the step runs what it gives. -/
theorem stepRunsTheDecodedCommand : Obligations.StepRunsTheDecodedCommand := by
  intro s i p ws bs wf hp hr hm hidle hcmd hpay
  exact step_of_command hr hm hidle (by rw [hcmd, hpay, fetch_encodePacket wf hp])

/-- Settles O13: the response word of `host_response`, read field by field. -/
theorem everyCommandIsAnsweredOnce : Obligations.EveryCommandIsAnsweredOnce := by
  intro i s t hi e
  obtain ⟨ev, data, tr, noResponse, hasData, hidle⟩ := host_response hi e
  refine ⟨ev, _, commandStatus config i s.init, tr, noResponse, by simp, ?_, ?_, by simp, by simp, hidle⟩
  · rw [respDV_responseWord]
    exact hasData
  · cases data <;> simp

/-- Settles O36: `nextBytesWith_delivers` gives the beats, whose addresses all differ, so each reads its own byte and no other
address changes. -/
theorem nextBytesDeliversTheStream : Obligations.NextBytesDeliversTheStream := by
  intro k1 k2 pos cap offset length s hs w ho hl hc
  have hst := (nextBytesStatus_ok s.init (some cap) offset length).mpr ⟨hs.1, cap, rfl, ho, hl, hc⟩
  obtain ⟨t, ev, run, stream, tr, response, beats, hdst, hseed, hidle, ports⟩ := nextBytesWith_delivers hs hst
  have addresses : (beatsOf ev).map Prod.fst = List.range' offset.toNat length.toNat := by
    rw [beats, ← beatsAt_map_range, map_fst_beatsAt, List.length_map, List.length_range]
  refine ⟨t, ev, congrArg outcomeOf run, stream, tr, response, beats, fun j hj => ?_, fun x hx => ?_, hseed, hidle, ports⟩
  · rw [hdst]
    refine read_replayBeats_of_mem w (by rw [addresses]; exact List.nodup_range') ?_
    rw [beats]
    exact List.mem_map.mpr ⟨j, List.mem_range.mpr hj, rfl⟩
  · rw [hdst]
    refine read_replayBeats_of_notMem w ?_
    rw [addresses, List.mem_range'_1]
    omega

/-- Settles O37: the addresses are those of `exec_beats`, none for every instruction but a NEXT_BYTES whose checks pass. -/
theorem beatsStayInsideTheWindow : Obligations.BeatsStayInsideTheWindow := by
  intro i s t ev wf e tr
  obtain ⟨ev', tr', hdst, addresses⟩ := exec_beats e
  obtain rfl := List.append_cancel_left (tr'.symm.trans tr)
  constructor
  · rintro dest offset length rfl
    by_cases hst : commandStatus config (.nextBytes dest offset length) s.init = .ok
    · obtain ⟨cap, hd, ho, hc, inside⟩ := window_of_nextBytesStatus_ok hst
      have fits := beats_fit wf addresses
      have addresses : (beatsOf ev').map Prod.fst = List.range' offset.toNat length.toNat :=
        addresses.trans (if_pos hst)
      exact .inr ⟨cap, hd, ho, hc, addresses,
        fun b hb => ⟨inside b.1 (addresses ▸ List.mem_map_of_mem hb), fits b hb⟩⟩
    · rw [if_neg hst] at addresses
      exact .inl (List.map_eq_nil_iff.mp addresses)
  · intro hn
    rw [beatAddresses_eq_nil hn, ite_self] at addresses
    have noBeat := List.map_eq_nil_iff.mp addresses
    exact ⟨noBeat, by rw [hdst, noBeat]; rfl⟩

/-- Settles O49: a step is a reset, a wait or a well-formed instruction, and each keeps the DST invariant. -/
theorem stepKeepsTheDstInvariant : Obligations.StepKeepsTheDstInvariant := by
  intro s t inv e
  rcases step_cases e with ⟨-, rfl⟩ | ⟨-, op, rest, i, -, hd, e'⟩ | ⟨-, -, -, ⟨rfl, -⟩ | ⟨i, ws, bs, hf, e'⟩⟩
  · exact takeReset_dstInv config inv
  · exact exec_dstInv (s := { s with macIn := rest }) (decodePort_wellFormed hd) inv e'
  · exact inv
  · exact exec_dstInv (s := { s with cmdIn := ws, payIn := bs }) (fetch_wellFormed hf).2 inv e'

end Sys2Proof.Machine
end

section
/-! PROOFS. The encodings of 30_encoding.md: decode and encode agree (R47 to R58), a packet stands on its own at the ports
(R45, R57), ignored bits are ignored (R54), an illegal opcode is one header word (R55); and the order of INIT's errors
(R115). -/

namespace Sys2Proof

/-! ### Both encoders and their decoders (R45 to R52, R58) -/

/-- A command's wires are its packet. -/
theorem encode_of_packet {i : Instr} {p : Packet} (hp : encodePacket i = some p) : encode i = some (.packet p) := by
  rw [encode, hp]

/-- The wires of an instruction without a packet are its operation on a MAC port. -/
theorem encode_of_port {i : Instr} {op : PortOp} (hn : encodePacket i = none) (hop : encodePort i = some op) :
    encode i = some (.port op) := by
  rw [encode, hn, hop]
  rfl

/-- A well-formed instruction has a packet, or it has none and is an operation of a MAC port (R47). -/
theorem encodable_of_wellFormed {i : Instr} (wf : i.wellFormed = true) :
    (∃ p, encodePacket i = some p) ∨ encodePacket i = none ∧ ∃ op, encodePort i = some op := by
  cases i with
  | init _ _ | nextByte | nextBytes _ _ _ | addRandomByte _ | addRandomBytes _ | illegal _ => exact .inl ⟨_, rfl⟩
  | macInit _ _ | macUpdate _ _ _ _ | macDigest _ | macReset _ | macSize _ => exact .inr ⟨rfl, _, rfl⟩
  | refill => exact absurd wf Bool.false_ne_true

/-- A well-formed command's packet, alone on the wires, decodes to that command. -/
theorem decodePacket_encodePacket {i : Instr} {p : Packet} (wf : i.wellFormed = true) (hp : encodePacket i = some p) :
    decodePacket p = .ok i := by
  have hf := fetch_encodePacket wf hp [] []
  rw [List.append_nil, List.append_nil] at hf
  rw [decodePacket, hf]

/-- A well-formed instruction's operation on a MAC port decodes to that instruction; of a MAC_UPDATE the port carries the
whole range (R58, R67). -/
theorem decodePort_encodePort {i : Instr} {op : PortOp} (wf : i.wellFormed = true) (hop : encodePort i = some op) :
    decodePort op = .ok i := by
  cases i with
  | macUpdate h bytes offset length =>
    simp only [Instr.wellFormed, Bool.and_eq_true, decide_eq_true_eq] at wf
    obtain ⟨rfl, rfl⟩ := wf
    rw [encodePort, Machine.selectedBytes_whole] at hop
    obtain rfl := Option.some.inj hop
    rfl
  | macInit _ _ | macDigest _ | macReset _ | macSize _ =>
    obtain rfl := Option.some.inj hop
    rfl
  | _ => exact nomatch hop

/-! ### Fetching, by what stands at the ports (R45, R57) -/

/-- Too few operand words: the packet is not whole (R45). -/
theorem fetch_of_fewWords {w0 : Word} {ws : List Word} (h : ws.length < operandWords (fieldOpc w0)) (bs : Bytes) :
    fetch (w0 :: ws) bs = .waiting :=
  if_pos h

/-- Too few payload bytes: the packet is not whole (R45). -/
theorem fetch_of_fewBytes {w0 : Word} {ws : List Word} {bs : Bytes}
    (h : bs.length < payloadLength w0 (ws.take (operandWords (fieldOpc w0)))) : fetch (w0 :: ws) bs = .waiting := by
  simp only [fetch, if_pos h, ite_self]

/-- A header with all its operand words behind it: the packet waits for its payload alone (R57). -/
theorem fetch_of_operands {w0 : Word} {ops : List Word} (hops : ops.length = operandWords (fieldOpc w0)) (ws : List Word)
    (bs : Bytes) :
    fetch (w0 :: (ops ++ ws)) bs =
      if bs.length < payloadLength w0 ops then .waiting
      else .command (decodeCommand w0 ops (bs.take (payloadLength w0 ops))) ws (bs.drop (payloadLength w0 ops)) := by
  have enough : ¬ (ops ++ ws).length < ops.length := by simp
  simp only [fetch, ← hops, if_neg enough, List.take_left, List.drop_left]

/-! ### Illegal opcodes (R55) -/

/-- An illegal opcode has no operand words. -/
theorem operandWords_illegal {opc : Byte} (h : isCommandOpcode opc = false) : operandWords opc = 0 := by
  simp only [isCommandOpcode, Bool.and_eq_false_iff, decide_eq_false_iff_not] at h
  unfold operandWords
  split
  case h_6 => rfl
  all_goals omega

/-- An illegal opcode has no payload. -/
theorem payloadLength_illegal {w0 : Word} (h : isCommandOpcode (fieldOpc w0) = false) (ops : List Word) :
    payloadLength w0 ops = 0 := by
  simp only [isCommandOpcode, Bool.and_eq_false_iff, decide_eq_false_iff_not] at h
  unfold payloadLength
  split
  case h_3 => rfl
  all_goals omega

/-- A header word with an illegal opcode is fetched alone. -/
theorem fetch_illegal {w0 : Word} (h : isCommandOpcode (fieldOpc w0) = false) (ws : List Word) (bs : Bytes) :
    fetch (w0 :: ws) bs = .command (.illegal (fieldOpc w0)) ws bs := by
  have whole := fetch_whole w0 [] ws [] bs (operandWords_illegal h).symm (payloadLength_illegal h []).symm
  rwa [decodeCommand_illegal h] at whole

/-! ### Ignored bits (R54) -/

/-- The same operand word in both packets. -/
theorem getD_congr {ops ops' : List Word} {k : Nat} (h : ops'[k]? = ops[k]?) : ops'.getD k 0 = ops.getD k 0 := by
  rw [List.getD_eq_getElem?_getD, List.getD_eq_getElem?_getD, h]

/-- The same low byte of an operand word in both packets. -/
theorem getD_lowByte_congr {ops ops' : List Word} {k : Nat}
    (h : ops'[k]?.map (fun w => w.extractLsb' 0 8) = ops[k]?.map (fun w => w.extractLsb' 0 8)) :
    (ops'.getD k 0).extractLsb' 0 8 = (ops.getD k 0).extractLsb' 0 8 := by
  have hd := congrArg (·.getD ((0 : Word).extractLsb' 0 8)) h
  simpa only [Option.getD_map, ← List.getD_eq_getElem?_getD] using hd

/-- SECRET_LEN counts with HS = 1 only. -/
theorem secretBytes_congr {w0 w0' w1 w1' : Word} (hs : fieldHS w0' = fieldHS w0) (h : fieldHS w0 = true → w1' = w1) :
    secretBytes w0' w1' = secretBytes w0 w1 :=
  ite_congr (congrArg (· = true) hs) (fun q => congrArg uint (h q)) fun _ => rfl

/-- SEED_LEN counts with HD = 1 only. -/
theorem seedBytes_congr {w0 w0' w2 w2' : Word} (hd : fieldHD w0' = fieldHD w0) (h : fieldHD w0 = true → w2' = w2) :
    seedBytes w0' w2' = seedBytes w0 w2 :=
  ite_congr (congrArg (· = true) hd) (fun q => congrArg uint (h q)) fun _ => rfl

end Sys2Proof

namespace Sys2Proof.Machine

/-- Where the used bits agree, both INIT packets count the same bytes of secret and of seed (R48, R54). -/
theorem SameUsedBits.initBytes {w0 w0' : Word} {ops ops' : List Word} (h : SameUsedBits w0 w0' ops ops')
    (hopc : (fieldOpc w0).toNat = 1) :
    fieldHS w0' = fieldHS w0 ∧ fieldHD w0' = fieldHD w0 ∧
      secretBytes w0' (ops'.getD 0 0) = secretBytes w0 (ops.getD 0 0) ∧
      seedBytes w0' (ops'.getD 1 0) = seedBytes w0 (ops.getD 1 0) := by
  obtain ⟨-, -, -, hinit, -⟩ := h
  obtain ⟨hs, hd, hsecret, hseed⟩ := hinit (BitVec.eq_of_toNat_eq hopc)
  exact ⟨hs, hd, secretBytes_congr hs fun q => getD_congr (hsecret q), seedBytes_congr hd fun q => getD_congr (hseed q)⟩

/-- Ignored bits do not change how long the payload is (R54, R57). -/
theorem SameUsedBits.payloadLength_eq {w0 w0' : Word} {ops ops' : List Word} (h : SameUsedBits w0 w0' ops ops') :
    payloadLength w0' ops' = payloadLength w0 ops := by
  have ⟨hopc, _, _, _, _, _, hentropy⟩ := h
  unfold payloadLength
  rw [hopc]
  split
  case h_1 q =>
    obtain ⟨-, -, hsecret, hseed⟩ := h.initBytes q
    rw [hsecret, hseed]
  case h_2 q => rw [hentropy (BitVec.eq_of_toNat_eq q)]
  case h_3 => rfl

/-- Ignored bits do not change the command (R54). -/
theorem SameUsedBits.decodeCommand_eq {w0 w0' : Word} {ops ops' : List Word} (h : SameUsedBits w0 w0' ops ops')
    (p : Bytes) : decodeCommand w0' ops' p = decodeCommand w0 ops p := by
  have ⟨hopc, _, _, _, hdraw, hbyte, hentropy⟩ := h
  unfold decodeCommand
  rw [hopc]
  split
  case h_1 q =>
    obtain ⟨hs, hd, hsecret, hseed⟩ := h.initBytes q
    simp only [hs, hd, hsecret, hseed]
  case h_2 => rfl
  case h_3 q =>
    obtain ⟨hdp, hcap, hoffset, hlength⟩ := hdraw (BitVec.eq_of_toNat_eq q)
    rw [hdp, getD_congr hoffset, getD_congr hlength]
    split
    · rename_i dp; rw [getD_congr (hcap dp)]
    · rfl
  case h_4 q => rw [getD_lowByte_congr (hbyte (BitVec.eq_of_toNat_eq q))]
  case h_5 q => rw [hentropy (BitVec.eq_of_toNat_eq q)]
  case h_6 => rfl

/-- Ignored bits do not change what is fetched (R54). -/
theorem SameUsedBits.fetch_eq {w0 w0' : Word} {ops ops' : List Word} (h : SameUsedBits w0 w0' ops ops')
    (ws : List Word) (bs : Bytes) : fetch (w0 :: (ops ++ ws)) bs = fetch (w0' :: (ops' ++ ws)) bs := by
  have ⟨hopc, hops, hops', _⟩ := h
  rw [fetch_of_operands hops, fetch_of_operands (hops'.trans (by rw [hopc])), h.payloadLength_eq, h.decodeCommand_eq]

/-- Whole packets that fetch alike run alike: the step keeps nothing of the packet it took (R38, R45). -/
theorem step_eq_of_fetch_eq {s : State} {cmd cmd' : List Word} {pay pay' : Bytes} (hr : s.resetIn = false)
    (hm : s.macIn = []) (hp : s.phase = .idle) (hf : fetch cmd pay = fetch cmd' pay') (hw : fetch cmd pay ≠ .waiting) :
    step { s with cmdIn := cmd, payIn := pay } = step { s with cmdIn := cmd', payIn := pay' } := by
  cases hc : fetch cmd pay with
  | waiting => exact absurd hc hw
  | command i ws bs =>
    exact (step_of_command (s := { s with cmdIn := cmd, payIn := pay }) hr hm hp hc).trans
      (step_of_command (s := { s with cmdIn := cmd', payIn := pay' }) hr hm hp (hf.symm.trans hc)).symm

/-! ### INIT's checks, in R115's order -/

/-- Both operands within their limits (R63). -/
theorem tooLong_eq_false {c : Config} {secret seed : Option Bytes} :
    tooLong c secret seed = false ↔
      (∀ x, secret = some x → x.length ≤ c.maxSecretLen) ∧ ∀ d, seed = some d → d.length ≤ c.maxSeedLen := by
  rw [tooLong, Bool.or_eq_false_iff, overLimit_eq_false, overLimit_eq_false]

/-- An operand over its limit (R63). -/
theorem tooLong_of_longer {c : Config} {secret seed : Option Bytes}
    (h : (∃ x, secret = some x ∧ x.length > c.maxSecretLen) ∨ ∃ d, seed = some d ∧ d.length > c.maxSeedLen) :
    tooLong c secret seed = true := by
  rw [← Bool.not_eq_false, tooLong_eq_false]
  rintro ⟨hsecret, hseed⟩
  rcases h with ⟨x, hx, longer⟩ | ⟨d, hd, longer⟩
  · exact absurd (hsecret x hx) (Nat.not_le_of_gt longer)
  · exact absurd (hseed d hd) (Nat.not_le_of_gt longer)

/-- The length check comes first (R113, R115). -/
theorem initStatus_of_tooLong {c : Config} {secret seed : Option Bytes} (h : tooLong c secret seed = true) (ready : Bool) :
    initStatus c ready secret seed = .length :=
  if_pos h

/-- A secret that a core refuses (R109, R115). -/
theorem initStatus_of_refused {c : Config} {x : Bytes} {seed : Option Bytes} (hl : tooLong c (some x) seed = false)
    (hx : secretOk c x = false) (ready : Bool) : initStatus c ready (some x) seed = .invalidKey := by
  simp [initStatus, hl, hx]

/-- No secret in Uninitialized (R107). -/
theorem initStatus_of_noSecret {c : Config} {seed : Option Bytes} (hl : tooLong c none seed = false) :
    initStatus c false none seed = .noSecret := by
  simp [initStatus, hl]

/-- An accepted secret without a seed in Uninitialized (R108). -/
theorem initStatus_of_noSeed {c : Config} {x : Bytes} (hl : tooLong c (some x) none = false) (hx : secretOk c x = true) :
    initStatus c false (some x) none = .noSeed := by
  simp [initStatus, hl, hx]

/-- An INIT whose checks end in an error only answers it (R116). -/
theorem initWith_of_status {c : Config} {secret seed : Option Bytes} {s : State} {st : Status}
    (hst : initStatus c s.init secret seed = st) (hne : st ≠ .ok) :
    initWith c secret seed s = .ok (answered st s) := by
  subst hst
  exact initWith_error c secret seed s hne

/-! ### The obligations -/

/-- Settles O1: a well-formed instruction has a packet or a port operation, and each decoder undoes its encoder. -/
theorem decodeOfEncodeIsIdentity : Obligations.DecodeOfEncodeIsIdentity := by
  intro i wf
  rcases encodable_of_wellFormed wf with ⟨p, hp⟩ | ⟨hn, op, hop⟩
  · exact ⟨_, encode_of_packet hp, decodePacket_encodePacket wf hp⟩
  · exact ⟨_, encode_of_port hn hop, decodePort_encodePort wf hop⟩

/-- Settles O2: the encoder's packet has R57's lengths, so the fetch takes just that much. -/
theorem packetIsSelfDelimiting : Obligations.PacketIsSelfDelimiting :=
  fun _ _ ws bs wf hp => fetch_encodePacket wf hp ws bs

/-- Settles O4: payload length and command read the used bits only, so both packets fetch alike, and the step depends on a
packet through its fetch alone. -/
theorem reservedBitsAreIgnored : Obligations.ReservedBitsAreIgnored := by
  intro s w0 w0' ops ops' ws bs h
  exact ⟨h.fetch_eq ws bs, fun hr hm hp hw => step_eq_of_fetch_eq hr hm hp (h.fetch_eq ws bs) hw⟩

/-- Settles O6: the fetch by `fetch_illegal`; ILLEGAL then only answers, as every failing command does. -/
theorem illegalOpcodeAnswersIllegalCommand : Obligations.IllegalOpcodeAnswersIllegalCommand := by
  intro w0 ws bs h
  refine ⟨fetch_illegal h ws bs, fun s => ⟨answered .illegalCmd s, ?_, ?_⟩⟩
  · exact exec_error (i := .illegal (fieldOpc w0)) rfl (by simp [commandStatus])
  · exact ⟨answered_same _ s, answered_ports _ s, rfl, rfl, rfl⟩

/-- Settles O18: the status of each case in R115's order, and an INIT with an error status only answers it. -/
theorem initReportsTheFirstError : Obligations.InitReportsTheFirstError := by
  intro c secret seed s
  refine ⟨fun longer => ?_, fun hsecret hseed => ?_, rfl⟩
  · exact initWith_of_status (initStatus_of_tooLong (tooLong_of_longer longer) s.init) (by decide)
  · have hl : tooLong c secret seed = false := tooLong_eq_false.mpr ⟨hsecret, hseed⟩
    refine ⟨?refused, ?noSecret, ?noSeed⟩
    case refused =>
      rintro x rfl hx
      exact initWith_of_status (initStatus_of_refused hl hx s.init) (by decide)
    case noSecret =>
      rintro rfl hu
      exact initWith_of_status (by rw [hu]; exact initStatus_of_noSecret hl) (by decide)
    case noSeed =>
      rintro x rfl hx rfl hu
      exact initWith_of_status (by rw [hu]; exact initStatus_of_noSeed hl hx) (by decide)

/-- Settles O5: each of the three partial packets fetches nothing, and the step then waits. -/
theorem partialPacketChangesNothing : Obligations.PartialPacketChangesNothing := by
  intro s hr hm hp partly
  refine step_of_waiting hr hm hp ?_
  rcases partly with hcmd | ⟨w0, ws, hcmd, few | few⟩ <;> rw [hcmd]
  · rfl
  · exact fetch_of_fewWords few s.payIn
  · exact fetch_of_fewBytes few

/-- Settles O7: each of the nine packets, fetched. -/
theorem workedEncodingsDecode : Obligations.WorkedEncodingsDecode := by
  unfold Obligations.WorkedEncodingsDecode
  decide

/-- Settles O8: R58's table, row by row. -/
theorem macPortCodesDecode : Obligations.MacPortCodesDecode := by
  intro h d
  refine ⟨rfl, rfl, rfl, rfl, rfl, ?_⟩
  rintro m (rfl | rfl | rfl) <;> rfl

/-- Settles O10: the port's decoder gives the instruction back, and the step runs it. -/
theorem stepRunsThePortOperation : Obligations.StepRunsThePortOperation :=
  fun _ _ _ _ wf hop hr hm => step_of_port hr hm (decodePort_encodePort wf hop)

end Sys2Proof.Machine
end

section
/-! PROOFS. The operations of a MAC port: what each does to its own adapter, with a key and without one (R66 to R70, U4), that it
touches nothing else (R65), and the composite `Mac` (R72). -/

namespace Sys2Proof.Machine

/-! ### MAC_INIT (R66) -/

/-- An accepted key is loaded. -/
theorem macInit_accepted {c : Config} {h : Chain} {key : Bytes} (hk : c.keyOk h key = true) (s : State) :
    macInit c h key s = (s.setAdapter h { key := some key, pend := [] }).log (.mac h (.init key) .accepted) :=
  if_pos hk

/-- A refused key is only answered. -/
theorem macInit_refused {c : Config} {h : Chain} {key : Bytes} (hk : c.keyOk h key = false) (s : State) :
    macInit c h key s = s.log (.mac h (.init key) .invalidKey) :=
  if_neg (by simp [hk])

/-! ### MAC_UPDATE (R67) -/

/-- The range check, in exact integers. -/
theorem rangeBad_iff {offset length : Int} {size : Nat} :
    rangeBad offset length size = true ↔ offset < 0 ∨ length < 0 ∨ offset + length > size := by
  simp only [rangeBad, Bool.or_eq_true, decide_eq_true_eq, or_assoc]

/-- Out of range, the update is only answered. -/
theorem appendRange_outside {bytes : Bytes} {offset length : Int}
    (bad : offset < 0 ∨ length < 0 ∨ offset + length > bytes.length) (h : Chain) (s : State) :
    appendRange h bytes offset length s = s.log (.mac h (.update bytes offset length) .boundsError) :=
  if_pos (rangeBad_iff.mpr bad)

/-- In range, the selected bytes follow the pending ones. -/
theorem appendRange_inside {bytes : Bytes} {offset length : Int}
    (ok : ¬ (offset < 0 ∨ length < 0 ∨ offset + length > bytes.length)) (h : Chain) (s : State) :
    appendRange h bytes offset length s =
      (s.setAdapter h { s.adapter h with pend := (s.adapter h).pend ++ selectedBytes bytes offset length }).log
        (.mac h (.update bytes offset length) .nothing) :=
  if_neg (mt rangeBad_iff.mp ok)

/-! ### As instructions, with a key and without one (R67 to R69, U4) -/

/-- With a key the three operations have their effect, without one each is the fault. -/
theorem exec_macUpdate_keyed {h : Chain} {s : State} {k : Bytes} (hk : (s.adapter h).key = some k) (bytes : Bytes)
    (offset length : Int) : exec (.macUpdate h bytes offset length) s = .next (appendRange h bytes offset length s) :=
  congrArg outcomeOf (macUpdate_keyed hk bytes offset length)

theorem exec_macUpdate_keyless {h : Chain} {s : State} (hk : (s.adapter h).key = none) (bytes : Bytes)
    (offset length : Int) : exec (.macUpdate h bytes offset length) s = .fault .macWithoutKey :=
  congrArg outcomeOf (macUpdate_keyless hk bytes offset length)

theorem exec_macDigest_keyed {h : Chain} {s : State} {k : Bytes} (hk : (s.adapter h).key = some k) :
    exec (.macDigest h) s =
      .next (s.log (.mac h .digest (.digest (config.hmac h k (s.adapter h).pend).toList))) := by
  rw [exec, execMacDigest, macDigest_keyed hk]
  rfl

theorem exec_macDigest_keyless {h : Chain} {s : State} (hk : (s.adapter h).key = none) :
    exec (.macDigest h) s = .fault .macWithoutKey := by
  rw [exec, execMacDigest, macDigest_keyless hk]
  rfl

theorem exec_macReset_keyed {h : Chain} {s : State} {k : Bytes} (hk : (s.adapter h).key = some k) :
    exec (.macReset h) s = .next (clearPending h s) :=
  congrArg outcomeOf (macReset_keyed hk)

theorem exec_macReset_keyless {h : Chain} {s : State} (hk : (s.adapter h).key = none) :
    exec (.macReset h) s = .fault .macWithoutKey :=
  congrArg outcomeOf (macReset_keyless hk)

/-! ### The frame of the five operations (R65) -/

/-- An instruction of MAC port `h`. -/
def OnPort (h : Chain) (i : Instr) : Prop :=
  (∃ key, i = .macInit h key) ∨ (∃ bytes offset length, i = .macUpdate h bytes offset length) ∨ i = .macDigest h ∨
    i = .macReset h ∨ i = .macSize h

/-- From `s` to `t` one event was recorded and at most the adapter of port `h` written. -/
def WritesOnlyAdapter (h : Chain) (s t : State) : Prop := ∃ a e, t = (s.setAdapter h a).log e

/-- An operation that only answers writes its own adapter back. -/
theorem writesOnlyAdapter_log (h : Chain) (s : State) (e : Event) : WritesOnlyAdapter h s (s.log e) :=
  ⟨s.adapter h, e, by rw [State.setAdapter_self]⟩

theorem macInit_writesOnlyAdapter (c : Config) (h : Chain) (key : Bytes) (s : State) :
    WritesOnlyAdapter h s (macInit c h key s) := by
  cases hk : c.keyOk h key with
  | true => exact ⟨_, _, macInit_accepted hk s⟩
  | false => rw [macInit_refused hk]; exact writesOnlyAdapter_log h s _

theorem appendRange_writesOnlyAdapter (h : Chain) (bytes : Bytes) (offset length : Int) (s : State) :
    WritesOnlyAdapter h s (appendRange h bytes offset length s) := by
  by_cases bad : offset < 0 ∨ length < 0 ∨ offset + length > bytes.length
  · rw [appendRange_outside bad]; exact writesOnlyAdapter_log h s _
  · exact ⟨_, _, appendRange_inside bad h s⟩

/-- Each of the five operations of port `h`, from any state, whether its adapter has a key or not. -/
theorem exec_writesOnlyAdapter {h : Chain} {i : Instr} {s t : State} (port : OnPort h i) (e : exec i s = .next t) :
    WritesOnlyAdapter h s t := by
  rcases port with ⟨key, rfl⟩ | ⟨bytes, offset, length, rfl⟩ | rfl | rfl | rfl
  · obtain rfl := Host.Outcome.next.inj e
    exact macInit_writesOnlyAdapter config h key s
  · obtain ⟨_, -, rfl⟩ := needKey_map_inv (outcomeOf_next e)
    exact appendRange_writesOnlyAdapter h bytes offset length s
  · obtain ⟨_, -, rfl⟩ := macDigest_inv (outcomeOf_next e)
    exact writesOnlyAdapter_log h s _
  · obtain ⟨_, -, rfl⟩ := needKey_map_inv (outcomeOf_next e)
    exact ⟨_, _, rfl⟩
  · obtain rfl := Host.Outcome.next.inj e
    exact writesOnlyAdapter_log h s _

/-! ### The obligations -/

/-- Settles O26: each operation writes at most its own adapter, and that write reaches neither the other adapter nor any other
field. -/
theorem macPortsShareNoState : Obligations.MacPortsShareNoState := by
  intro h g i s t other port e
  obtain ⟨a, ev, rfl⟩ := exec_writesOnlyAdapter port e
  simp [State.setAdapter_adapter_ne s h g a other, SamePorts, SameDst]

/-- Settles O27: on an idle keyed adapter the composite changes nothing but the record. -/
theorem compositeMacIsHmacOfTheParts : Obligations.CompositeMacIsHmacOfTheParts := by
  intro c h parts s k hk
  refine ⟨_, mac_idle c h parts s k hk, ?_, SameRegisters.refl s, rfl⟩
  cases h <;> rfl

/-- Settles O21: the two answers of the core, for every configuration. -/
theorem macInitLoadsOrRefusesTheKey : Obligations.MacInitLoadsOrRefusesTheKey := by
  intro c h key s
  refine ⟨fun accepted => ?_, fun refused => ?_, rfl⟩
  · rw [macInit_accepted accepted]
    simp
  · rw [macInit_refused refused]
    simp

/-- Settles O22: with a key the range check decides between the answer and the append; without one, the fault. -/
theorem macUpdateAppendsTheRange : Obligations.MacUpdateAppendsTheRange := by
  intro h bytes offset length s
  refine ⟨fun k hk => ⟨_, exec_macUpdate_keyed hk bytes offset length, ?_⟩,
    fun hk => exec_macUpdate_keyless hk bytes offset length⟩
  split
  case isTrue bad =>
    rw [appendRange_outside bad]
    simp
  case isFalse ok =>
    rw [appendRange_inside ok]
    simp [hk, selectedBytes]

/-- Settles O23: with a key MAC_DIGEST only records its answer; without one, the fault. -/
theorem macDigestAnswersTheMac : Obligations.MacDigestAnswersTheMac := by
  intro h s
  exact ⟨fun k hk => ⟨_, exec_macDigest_keyed hk, State.log_adapter s _ h, rfl⟩, exec_macDigest_keyless⟩

/-- Settles O24: with a key MAC_RESET writes back the adapter with nothing pending; without one, the fault. -/
theorem macResetClearsPending : Obligations.MacResetClearsPending := by
  intro h s
  refine ⟨fun k hk => ⟨_, exec_macReset_keyed hk, ?_⟩, exec_macReset_keyless⟩
  simp [clearPending, hk]

/-- Settles O25: MAC_SIZE records its port's length and does nothing else. -/
theorem macSizeAnswersTheLength : Obligations.MacSizeAnswersTheLength :=
  fun _ => ⟨rfl, rfl⟩

end Sys2Proof.Machine
end

section
/-! PROOFS. INIT (41_init.md): the halves of the secret (R77) and their check (R76), where a successful INIT leaves the
stream (R80, R81, R91), its record and the operations in it (R84), and re-initialisation (R83). -/

namespace Sys2Proof.Machine

/-! ### The halves of a secret (R77) -/

/-- An even secret is cut in the middle. -/
theorem halves_of_even {x : Bytes} {k : Nat} (hx : x.length = 2 * k) :
    firstHalf x = x.take k ∧ lastHalf x = x.drop k := by
  have hl : (2 * k + 1) / 2 = k := by omega
  have hd : 2 * k - k = k := by omega
  rw [firstHalf, lastHalf, splitLength_eq, hx, hl, hd]
  exact ⟨rfl, rfl⟩

/-- Of an odd secret both halves take the middle byte. -/
theorem halves_of_odd {x : Bytes} {k : Nat} (hx : x.length = 2 * k + 1) :
    firstHalf x = x.take (k + 1) ∧ lastHalf x = x.drop k := by
  have hl : (2 * k + 1 + 1) / 2 = k + 1 := by omega
  have hd : 2 * k + 1 - (k + 1) = k := by omega
  rw [firstHalf, lastHalf, splitLength_eq, hx, hl, hd]
  exact ⟨rfl, rfl⟩

/-! ### The key check (R76) -/

/-- Both cores accept their half (R76 (1)). -/
theorem secretOk_iff {c : Config} {x : Bytes} :
    secretOk c x = true ↔ c.keyOk .md5 (firstHalf x) = true ∧ c.keyOk .sha1 (lastHalf x) = true := by
  simp only [secretOk, halfFor, Bool.and_eq_true]

/-! ### What a stream position fixes (R23) -/

/-- The position in the stream, the cursor and the seed fix the registers: the fill count, then both chain values and every
byte of the buffer (R23, R27). -/
theorem StreamAt.sameRegisters {c : Config} {k1 k2 : Bytes} {pos : Nat} {s t : State} (hs : StreamAt c k1 k2 pos s)
    (ht : StreamAt c k1 k2 pos t) (hseed : t.seed = s.seed) (hidx : t.idx = s.idx) : SameRegisters s t := by
  obtain ⟨init, ⟨md5, sha1⟩, f, hf, hpos, aMd5, aSha1, buf⟩ := hs
  obtain ⟨init', ⟨md5', sha1'⟩, f', hf', hpos', aMd5', aSha1', buf'⟩ := ht
  obtain rfl : f' = f := by rw [hidx] at hpos'; omega
  rw [hseed] at aMd5' aSha1' buf'
  refine ⟨init'.trans init.symm, md5'.trans md5.symm, sha1'.trans sha1.symm, hseed,
    Vector.toList_inj.mp (aMd5'.trans aMd5.symm), Vector.toList_inj.mp (aSha1'.trans aSha1.symm), ?_, hidx⟩
  exact Vector.ext fun i hi => (buf' ⟨i, hi⟩).trans (buf ⟨i, hi⟩).symm

/-! ### The record of an INIT (R84) -/

/-- Everything a successful INIT records. -/
def initRecord (c : Config) (secret : Option Bytes) (k1 k2 seed : Bytes) : List Event :=
  [.phase .check] ++ keyLoadRecord secret ++ commitRecord c k1 k2 seed

/-- A successful INIT appends its record, over the keys and the seed now in force. -/
theorem initWith_trace {c : Config} {secret seed : Option Bytes} {s t : State} {k1 k2 : Bytes}
    (hst : initStatus c s.init secret seed = .ok) (halves : ∀ x, secret = some x → k1 = firstHalf x ∧ k2 = lastHalf x)
    (hold : secret = none → Keyed k1 k2 s) (run : initWith c secret seed s = .ok t) :
    t.trace = s.trace ++ initRecord c secret k1 k2 t.seed := by
  obtain rfl := Except.ok.inj ((initWith_success c secret seed s k1 k2 hst halves hold).1.symm.trans run)
  obtain ⟨-, ok, -, -⟩ := (initStatus_ok c _ _ _).mp hst
  obtain ⟨-, -, -, loaded⟩ := loaded_fields c secret seed s ok
  simp only [committed, loaded, initRecord, List.append_assoc]

/-- The commit answers OK, once (R75). -/
theorem responsesOf_commitRecord (c : Config) (k1 k2 seed : Bytes) :
    responsesOf (commitRecord c k1 k2 seed) = [responseWord .ok none true] := by
  obtain ⟨m1, -⟩ := (macCalls_onlyMac c .md5 k1 [seed]).projections
  obtain ⟨m2, -⟩ := (macCalls_onlyMac c .sha1 k2 [seed]).projections
  obtain ⟨r, -⟩ := refillRecord_projections c k1 k2 seed (c.hmac .md5 k1 seed) (c.hmac .sha1 k2 seed)
  simp only [commitRecord, responsesOf_append, m1, m2, r]
  rfl

/-- The commit's operations: `A(1)` on both ports, then the REFILL of R90. -/
theorem macCallsOf_commitRecord (c : Config) (k1 k2 seed : Bytes) :
    macCallsOf (commitRecord c k1 k2 seed) =
      macCalls c .md5 k1 [seed] ++ macCalls c .sha1 k2 [seed] ++
        passCalls c .md5 k1 seed (c.hmac .md5 k1 seed) ++ passCalls c .sha1 k2 seed (c.hmac .sha1 k2 seed) := by
  obtain ⟨-, -, -, -, m1⟩ := (macCalls_onlyMac c .md5 k1 [seed]).projections
  obtain ⟨-, -, -, -, m2⟩ := (macCalls_onlyMac c .sha1 k2 [seed]).projections
  simp only [commitRecord, macCallsOf_append, m1, m2, macCallsOf_refillRecord]
  simp [macCallsOf]

/-- Two digests for `A(1)` and 18 of the REFILL (R84, R89). -/
theorem digestsOf_commitRecord (c : Config) (k1 k2 seed : Bytes) : digestsOf (commitRecord c k1 k2 seed) = 20 := by
  obtain ⟨-, -, -, -, r⟩ := refillRecord_projections c k1 k2 seed (c.hmac .md5 k1 seed) (c.hmac .sha1 k2 seed)
  simp only [commitRecord, digestsOf_append, digestsOf_macCalls, r]
  rfl

/-- A composite is one operation for each part, a digest and a reset (R72). -/
theorem length_macCalls (c : Config) (h : Chain) (key : Bytes) (parts : List Bytes) :
    (macCalls c h key parts).length = parts.length + 2 := by
  simp [macCalls]

/-- A block is seven operations (R90). -/
theorem length_passCalls (c : Config) (h : Chain) (key seed : Bytes) (a : Digest h) :
    (passCalls c h key seed a).length = 7 * h.blocks := by
  simp [passCalls, blockCalls, length_macCalls, List.length_flatMap, Nat.mul_comm]

/-- The operations of an INIT without the key load: 3 for each `A(1)` and the 63 of the REFILL (R84, R90). -/
theorem length_macCallsOf_commitRecord (c : Config) (k1 k2 seed : Bytes) :
    (macCallsOf (commitRecord c k1 k2 seed)).length = 69 := by
  simp only [macCallsOf_commitRecord, List.length_append, length_macCalls, length_passCalls]
  rfl

/-- The key load is one MAC_INIT on each port, MD5 first, where a secret is supplied (R78, R84). -/
theorem macCallsOf_keyLoadRecord {secret : Option Bytes} {k1 k2 : Bytes}
    (halves : ∀ x, secret = some x → k1 = firstHalf x ∧ k2 = lastHalf x) :
    macCallsOf (keyLoadRecord secret) =
      if secret.isSome then [.mac .md5 (.init k1) .accepted, .mac .sha1 (.init k2) .accepted] else [] := by
  cases secret with
  | none => rfl
  | some x =>
    obtain ⟨rfl, rfl⟩ := halves x rfl
    rfl

/-- The check issues no operation (R75). -/
theorem macCallsOf_initRecord (c : Config) (secret : Option Bytes) (k1 k2 seed : Bytes) :
    macCallsOf (initRecord c secret k1 k2 seed) =
      macCallsOf (keyLoadRecord secret) ++ macCallsOf (commitRecord c k1 k2 seed) := by
  rw [initRecord, macCallsOf_append, macCallsOf_append]
  rfl

/-- All digests of an INIT are the commit's (R84). -/
theorem digestsOf_initRecord (c : Config) (secret : Option Bytes) (k1 k2 seed : Bytes) :
    digestsOf (initRecord c secret k1 k2 seed) = 20 := by
  rw [initRecord, digestsOf_append, digestsOf_commitRecord]
  cases secret <;> rfl

/-- An INIT answers once, in its commit (R75). -/
theorem responsesOf_initRecord (c : Config) (secret : Option Bytes) (k1 k2 seed : Bytes) :
    responsesOf (initRecord c secret k1 k2 seed) = [responseWord .ok none true] := by
  rw [initRecord, responsesOf_append, responsesOf_commitRecord]
  cases secret <;> rfl

/-! ### The obligations -/

/-- Settles O30: the cut of an even and of an odd secret, and the library's facts of `take` and `drop`. -/
theorem secretSplitsIntoHalves : Obligations.SecretSplitsIntoHalves := by
  intro x
  refine ⟨length_firstHalf x, length_lastHalf x, List.take_prefix _ _, List.drop_suffix _ _, fun k hx => ?_, fun k hx => ?_⟩
  · obtain ⟨h1, h2⟩ := halves_of_even hx
    rw [h1, h2, List.take_append_drop]
  · obtain ⟨h1, h2⟩ := halves_of_odd hx
    refine ⟨?_, ?_, ?_⟩
    · rw [h1, List.getElem?_take_of_lt (Nat.lt_succ_self k)]
    · rw [h2, List.getElem?_drop]
      rfl
    · rw [h1, h2, List.drop_drop, List.take_append_drop]

/-- Settles O31: the checks pass, so the INIT commits; the commit leaves the stream at its first byte. -/
theorem initStartsTheStream : Obligations.InitStartsTheStream := by
  intro c secret seed s k1 k2 hsecret hseed hold hready
  have ok : ∀ x, secret = some x → secretOk c x = true := by
    intro x hx
    obtain ⟨-, h1, h2, -⟩ := hsecret x hx
    exact secretOk_iff.mpr ⟨h1, h2⟩
  have hst : initStatus c s.init secret seed = .ok :=
    (initStatus_ok c _ _ _).mpr
      ⟨tooLong_eq_false.mpr ⟨fun x hx => (hsecret x hx).1, hseed⟩, ok, fun h => (hold h).1, hready⟩
  have halves : ∀ x, secret = some x → k1 = firstHalf x ∧ k2 = lastHalf x := by
    intro x hx
    obtain ⟨-, -, -, h1, h2⟩ := hsecret x hx
    exact ⟨h1, h2⟩
  obtain ⟨run, keyed⟩ := initWith_success c secret seed s k1 k2 hst halves fun h => (hold h).2
  obtain ⟨fseed, fdst, fports, -⟩ := loaded_fields c secret seed s ok
  refine ⟨_, _, run, ?_, committed_streamAt c k1 k2 _ keyed, fseed, rfl, rfl, fports, fdst,
    initWith_trace hst halves (fun h => (hold h).2) run, responsesOf_initRecord c secret k1 k2 _⟩
  rintro rfl
  exact congrArg outcomeOf run

/-- Settles O32: the record of a successful INIT, its MAC-port operations read off. -/
theorem initIssuesTheTraceOfR84 : Obligations.InitIssuesTheTraceOfR84 := by
  intro c secret seed s t k1 k2 ev hst halves hold run htrace
  obtain rfl := List.append_cancel_left (htrace.symm.trans (initWith_trace hst halves hold run))
  have load := macCallsOf_keyLoadRecord halves
  refine ⟨?_, ?_, digestsOf_initRecord c secret k1 k2 t.seed⟩
  · rw [macCallsOf_initRecord, load, macCallsOf_commitRecord]
    simp only [List.append_assoc]
  · rw [macCallsOf_initRecord, load, List.length_append, length_macCallsOf_commitRecord]
    cases secret <;> rfl

/-- Settles O33: both INITs start one stream, under the same keys and seed, and its first position fixes every register. -/
theorem reinitEqualsFreshInit : Obligations.ReinitEqualsFreshInit := by
  intro c n x secret seed s hready hkeys hmd5 hsha1 hx hd
  have supplied : ∀ y, secret = some y → y = x := by
    rintro y rfl
    rcases hkeys with h | ⟨h, -⟩
    · exact Option.some.inj h
    · exact absurd h (by simp)
  have held : secret = none → Keyed (firstHalf x) (lastHalf x) s := by
    rintro rfl
    rcases hkeys with h | ⟨-, h⟩
    · exact absurd h (by simp)
    · exact h
  obtain ⟨t, -, run, -, stream, tseed, tidx, -⟩ :=
    initStartsTheStream c secret seed s (firstHalf x) (lastHalf x)
      (fun y hy => by obtain rfl := supplied y hy; exact ⟨hx, hmd5, hsha1, rfl, rfl⟩)
      (fun d h => by rw [h] at hd; exact hd) (fun h => ⟨hready, held h⟩) (fun _ => hready)
  obtain ⟨t', -, run', -, stream', tseed', tidx', -⟩ :=
    initStartsTheStream c (some x) (some (seed.getD s.seed)) (State.afterReset c n) (firstHalf x) (lastHalf x)
      (fun y hy => by obtain rfl := Option.some.inj hy; exact ⟨hx, hmd5, hsha1, rfl, rfl⟩)
      (fun d h => by obtain rfl := Option.some.inj h; exact hd) (fun h => absurd h (by simp)) (fun h => absurd h (by simp))
  exact ⟨t, t', run, run', stream.sameRegisters stream' (tseed'.trans tseed.symm) (tidx'.trans tidx.symm)⟩

end Sys2Proof.Machine
end

section
/-! PROOFS. REFILL as an instruction (42_refill.md R85 to R90, R94), the phases of a command (R93), and what any list of valid
draws delivers (43_stream.md R92, R95, R96). -/

namespace Sys2Proof.Machine

/-! ### REFILL as an instruction (R85, R93) -/

/-- On idle keyed adapters REFILL leaves the refilled state, back in the phase it began in. -/
theorem exec_refill_keyed {k1 k2 : Bytes} {s : State} (hk : Keyed k1 k2 s) :
    exec .refill s = .next ((refilled config k1 k2 s).setPhase s.phase) :=
  congrArg outcomeOf (refillAndReturn_keyed config k1 k2 s hk)

/-- A REFILL is 63 operations: nine blocks of seven (R90). -/
theorem length_macCallsOf_refillRecord (c : Config) (k1 k2 seed : Bytes) (a1 : Digest .md5) (a2 : Digest .sha1) :
    (macCallsOf (refillRecord c k1 k2 seed a1 a2)).length = 63 := by
  rw [macCallsOf_refillRecord, List.length_append, length_passCalls, length_passCalls]
  rfl

/-! ### The bytes a record hands over -/

/-- Where no response carries a byte, the bytes handed over are those of the beats. -/
theorem drawnBytes_of_noData {ev : List Event} (h : ∀ w ∈ responsesOf ev, respDV w = false) :
    drawnBytes ev = (beatsOf ev).map Prod.snd := by
  induction ev with
  | nil => rfl
  | cons e ev ih =>
    have rest := ih fun w hw => h w (by
      rw [← List.singleton_append, responsesOf_append]
      exact List.mem_append_right _ hw)
    rw [← List.singleton_append, drawnBytes_append, beatsOf_append, List.map_append, rest]
    congr 1
    cases e with
    | response w =>
      have noData : respDV w = false := h w List.mem_cons_self
      simp [drawnBytes, beatsOf, noData]
    | _ => rfl

/-! ### Runs that deliver the stream (R92) -/

/-- From stream position `pos` in `s`, a run to `t` handed over the next `n` bytes of the stream and stands behind them. -/
def Delivers (c : Config) (k1 k2 : Bytes) (pos n : Nat) (s t : State) : Prop :=
  StreamAt c k1 k2 (pos + n) t ∧ t.seed = s.seed ∧
    ∃ ev, t.trace = s.trace ++ ev ∧ drawnBytes ev = (List.range n).map fun j => streamByte c k1 k2 s.seed (pos + j)

/-- No run hands over no byte. -/
theorem Delivers.refl {c : Config} {k1 k2 : Bytes} {pos : Nat} {s : State} (hs : StreamAt c k1 k2 pos s) :
    Delivers c k1 k2 pos 0 s s :=
  ⟨hs, rfl, [], (List.append_nil _).symm, rfl⟩

/-- One run behind another hands over the bytes of both. -/
theorem Delivers.trans {c : Config} {k1 k2 : Bytes} {pos m n : Nat} {s t u : State} (h : Delivers c k1 k2 pos m s t)
    (g : Delivers c k1 k2 (pos + m) n t u) : Delivers c k1 k2 pos (m + n) s u := by
  obtain ⟨-, seed, ev, tr, bytes⟩ := h
  obtain ⟨stream', seed', ev', tr', bytes'⟩ := g
  refine ⟨by rwa [← Nat.add_assoc], seed'.trans seed, ev ++ ev', by rw [tr', tr, List.append_assoc], ?_⟩
  rw [drawnBytes_append, bytes, bytes', seed, List.range_add, List.map_append, List.map_map]
  simp only [Function.comp_def, Nat.add_assoc]

/-- A NEXT_BYTE hands over the next byte of the stream (R95). -/
theorem nextByteWith_delivers {c : Config} {k1 k2 : Bytes} {pos : Nat} {s : State} (hs : StreamAt c k1 k2 pos s) :
    ∃ t, nextByteWith c s = .ok t ∧ Delivers c k1 k2 pos 1 s t := by
  obtain ⟨byte, stream⟩ := nextDraw_streamAt c k1 k2 pos ((s.setPhase .check).setPhase .draw) hs
  obtain ⟨init, -, -, seed, -, -, -, tr⟩ := nextDraw_frame c k1 k2 ((s.setPhase .check).setPhase .draw)
  obtain ⟨-, -, noByte, -, -⟩ := drawRecord_projections c k1 k2 ((s.setPhase .check).setPhase .draw)
  refine ⟨_, nextByteWith_ready c k1 k2 s hs.1 hs.2.1, stream.same (finish_same _ _ _), seed,
    [.phase .check, .phase .draw] ++ drawRecord c k1 k2 ((s.setPhase .check).setPhase .draw) ++
      [.phase .respond, .response (responseWord .ok (some (streamByte c k1 k2 s.seed pos)) s.init), .phase .idle], ?_, ?_⟩
  · rw [State.finish_trace, tr, byte, init]
    simp
  · rw [drawnBytes_append, drawnBytes_append, noByte]
    simp [drawnBytes]

/-- A NEXT_BYTES that passes its checks hands over as many bytes of the stream as it asks for (R96). -/
theorem nextBytesWith_deliversBytes {c : Config} {k1 k2 : Bytes} {pos : Nat} {s : State} {dest : Option Nat}
    {offset length : Int} (hs : StreamAt c k1 k2 pos s) (hst : nextBytesStatus s.init dest offset length = .ok) :
    ∃ t, nextBytesWith c dest offset length s = .ok t ∧ Delivers c k1 k2 pos length.toNat s t := by
  obtain ⟨t, ev, run, stream, tr, response, beats, -, seed, -⟩ := nextBytesWith_delivers hs hst
  refine ⟨t, run, stream, seed, ev, tr, ?_⟩
  rw [drawnBytes_of_noData (by simp [response]), beats, List.map_map]
  rfl

/-- A valid draw is a NEXT_BYTE, or a NEXT_BYTES whose checks pass in Ready (R95, R96). -/
theorem validDraw_inv {i : Instr} {n : Nat} (h : validDraw i = some n) :
    (i = .nextByte ∧ n = 1) ∨ ∃ dest offset length, i = .nextBytes dest offset length ∧ n = length.toNat ∧
      nextBytesStatus true dest offset length = .ok := by
  cases i with
  | nextByte => exact .inl ⟨rfl, (Option.some.inj h).symm⟩
  | nextBytes dest offset length =>
    cases dest with
    | none => exact absurd h (by simp [validDraw])
    | some cap =>
      rw [validDraw] at h
      split at h
      · exact absurd h (by simp)
      · rename_i inside
        exact .inr ⟨_, _, _, rfl, (Option.some.inj h).symm, by simp [nextBytesStatus, inside]⟩
  | _ => exact absurd h (by simp [validDraw])

/-- From a stream position a valid draw completes and hands over the bytes it asks for. -/
theorem exec_validDraw_delivers {k1 k2 : Bytes} {pos n : Nat} {i : Instr} {s : State} (hs : StreamAt config k1 k2 pos s)
    (h : validDraw i = some n) : ∃ t, exec i s = .next t ∧ Delivers config k1 k2 pos n s t := by
  rcases validDraw_inv h with ⟨rfl, rfl⟩ | ⟨dest, offset, length, rfl, rfl, hst⟩
  · obtain ⟨t, run, del⟩ := nextByteWith_delivers hs
    exact ⟨t, congrArg outcomeOf run, del⟩
  · obtain ⟨t, run, del⟩ := nextBytesWith_deliversBytes hs (hs.1.symm ▸ hst)
    exact ⟨t, congrArg outcomeOf run, del⟩

/-- And so does a list of them, one behind the other (R101). -/
theorem execAll_validDraws_delivers {k1 k2 : Bytes} {pos : Nat} {is : List Instr} {s : State}
    (hs : StreamAt config k1 k2 pos s) (valid : ∀ i ∈ is, validDraw i ≠ none) :
    ∃ t, execAll is s = .next t ∧ Delivers config k1 k2 pos (is.filterMap validDraw).sum s t := by
  induction is generalizing pos s with
  | nil => exact ⟨s, rfl, Delivers.refl hs⟩
  | cons i is ih =>
    obtain ⟨hi, his⟩ := List.forall_mem_cons.mp valid
    obtain ⟨n, hn⟩ := Option.ne_none_iff_exists'.mp hi
    obtain ⟨u, run, del⟩ := exec_validDraw_delivers hs hn
    obtain ⟨t, run', del'⟩ := ih del.1 his
    refine ⟨t, by rw [execAll, run]; exact run', ?_⟩
    rw [List.filterMap_cons_some hn, List.sum_cons]
    exact del.trans del'

/-! ### The obligations -/

/-- Settles O42: each valid draw delivers its share of the stream, and runs that deliver compose. -/
theorem anyDrawsDeliverThePrf : Obligations.AnyDrawsDeliverThePrf := by
  intro k1 k2 pos is s hs valid
  obtain ⟨t, run, stream, -, ev, tr, bytes⟩ := execAll_validDraws_delivers hs valid
  exact ⟨t, ev, _, run, tr, rfl, bytes, stream⟩

/-- Settles O20: a failing command writes CHECK, RESPOND, IDLE; for one that answers OK, `host_inv` gives the path from CHECK. -/
theorem phasesFollowTheStateMachine : Obligations.PhasesFollowTheStateMachine := by
  intro i s t ev hi e tr
  rcases host_inv hi e with ⟨-, rfl⟩ | ⟨-, ev', data, eff⟩
  · obtain rfl := List.append_cancel_left tr
    exact ⟨rfl, rfl⟩
  · obtain rfl := List.append_cancel_left (eff.trace.symm.trans tr)
    have phases : phasesOf ([.phase .check] ++ ev' ++ [.phase .respond, .response (responseWord .ok data t.init), .phase .idle]) =
        .check :: (phasesOf ev' ++ [.respond, .idle]) := by simp [phasesOf]
    rw [phases]
    refine ⟨eff.path, ?_⟩
    rw [← List.cons_append, List.getLast?_append_of_ne_nil _ (List.cons_ne_nil _ _)]
    rfl

/-- Settles O28: the fields of the refilled state; its buffer is `refillBuf_get`. -/
theorem refillFillsTheBuffer : Obligations.RefillFillsTheBuffer := by
  intro k1 k2 s hk
  exact ⟨_, exec_refill_keyed hk, fun j => refillBuf_get config k1 k2 s.seed s.aMd5 s.aSha1 s.buf j.val j.isLt, rfl, rfl, rfl,
    rfl, rfl, rfl, rfl, rfl, ⟨rfl, rfl, rfl, rfl, rfl⟩, fun _ => rfl⟩

/-- Settles O29: REFILL appends its record and the return to the phase it began in, which is no operation. -/
theorem refillIssuesTheTraceOfR90 : Obligations.RefillIssuesTheTraceOfR90 := by
  intro k1 k2 s t ev hk e tr
  obtain rfl := Host.Outcome.next.inj ((exec_refill_keyed hk).symm.trans e)
  have record : ev = refillRecord config k1 k2 s.seed s.aMd5 s.aSha1 ++ [.phase s.phase] :=
    List.append_cancel_left (tr.symm.trans (List.append_assoc _ _ _))
  have calls : macCallsOf ev = macCallsOf (refillRecord config k1 k2 s.seed s.aMd5 s.aSha1) := by
    rw [record, macCallsOf_append]
    exact List.append_nil _
  obtain ⟨responses, beats, -, phases, digests⟩ := refillRecord_projections config k1 k2 s.seed s.aMd5 s.aSha1
  refine ⟨by rw [calls, macCallsOf_refillRecord], by rw [calls, length_macCallsOf_refillRecord], ?_, ?_, ?_, ?_⟩
  · rw [record, digestsOf_append, digests]
    rfl
  · rw [record, phasesOf_append, phases]
    rfl
  · rw [record, responsesOf_append, responses]
    rfl
  · rw [record, beatsOf_append, beats]
    rfl

end Sys2Proof.Machine
end

section
/-! PROOFS. The draw commands (43_stream.md): what each does without a refill, that NEXT_BYTE and NEXT_BYTES are runs of one and
the same draw (R95, R96, R99 to R101), and their frame. -/

namespace Sys2Proof.Machine

/-! ### The record of a draw command (R93, R95, R96) -/

/-- Where a draw command draws from: its checks are behind it, and no register but the phase is written (R93). -/
abbrev State.drawing (s : State) : State := (s.setPhase .check).setPhase .draw

theorem drawing_same (s : State) : SameRegisters s s.drawing := ⟨rfl, rfl, rfl, rfl, rfl, rfl, rfl, rfl⟩

/-- What a draw command that answers OK in Ready records around the record `ev` of its draws. -/
def drawCommandRecord (ev : List Event) (data : Option Byte) : List Event :=
  [.phase .check, .phase .draw] ++ ev ++ [.phase .respond, .response (responseWord .ok data true), .phase .idle]

/-- Around the draws stand one response and its byte, and no digest or REFILL. -/
theorem drawCommandRecord_projections (ev : List Event) (data : Option Byte) :
    responsesOf (drawCommandRecord ev data) = responsesOf ev ++ [responseWord .ok data true] ∧
      drawnBytes (drawCommandRecord ev data) = drawnBytes ev ++ data.toList ∧
      (phasesOf (drawCommandRecord ev data)).count (.fillMd5Out 0) = (phasesOf ev).count (.fillMd5Out 0) ∧
      digestsOf (drawCommandRecord ev data) = digestsOf ev := by
  refine ⟨by simp [drawCommandRecord, responsesOf], ?_, ?_,
    by simp [drawCommandRecord, digestsOf]⟩
  · cases data <;> simp [drawCommandRecord, drawnBytes]
  · simp [drawCommandRecord, phasesOf]

/-- The record of a draw command, from the record of its draws. -/
theorem trace_finish_of_draws {s u : State} {ev : List Event} (data : Option Byte) (hr : u.init = true)
    (tr : u.trace = s.drawing.trace ++ ev) :
    (u.finish .ok data).trace = s.trace ++ drawCommandRecord ev data := by
  rw [State.finish_trace, tr, hr]
  simp [drawCommandRecord]

/-! ### The draw commands, by their draws (R95, R96) -/

/-- In Ready a NEXT_BYTE answers the byte that its draw delivers. -/
theorem nextByteWith_of_draw {c : Config} {s u : State} {b : Byte} (hr : s.init = true)
    (e : drawByte c s.drawing = .ok (b, u)) :
    nextByteWith c s = .ok (u.finish .ok (some b)) := by
  rw [nextByteWith, hr, nextByteStatus, if_pos rfl]
  simp only [e]

/-- A NEXT_BYTES whose checks pass answers OK behind its draws. -/
theorem nextBytesWith_of_draws {c : Config} {dest : Option Nat} {offset length : Int} {s u : State}
    (hst : nextBytesStatus s.init dest offset length = .ok)
    (e : drawTo c offset.toNat length.toNat s.drawing = .ok u) :
    nextBytesWith c dest offset length s = .ok (u.finish .ok none) := by
  rw [nextBytesWith, hst]
  simp only [e]

/-- What a NEXT_BYTES whose checks pass did: its draws, and the answer. -/
theorem nextBytesWith_inv {c : Config} {dest : Option Nat} {offset length : Int} {s t : State}
    (hst : nextBytesStatus s.init dest offset length = .ok) (e : nextBytesWith c dest offset length s = .ok t) :
    ∃ u, drawTo c offset.toNat length.toNat s.drawing = .ok u ∧ t = u.finish .ok none := by
  cases hu : drawTo c offset.toNat length.toNat s.drawing with
  | error f =>
    rw [nextBytesWith, hst] at e
    simp [hu] at e
  | ok u => exact ⟨u, rfl, Except.ok.inj (e.symm.trans (nextBytesWith_of_draws hst hu))⟩

/-- With an unread byte in the buffer a draw needs no key: it is that byte, and the cursor moves (R95). -/
theorem drawByte_buffered (c : Config) (s : State) (r : s.idx.val < 80) :
    drawByte c s = .ok (s.buf[s.idx.val], s.setIdx ⟨s.idx.val + 1, by omega⟩) := by
  rw [drawByte, dif_pos r]
  rfl

/-- So NEXT_BYTE in Ready is one reading of the buffer, as an equation. -/
theorem exec_nextByte_buffered {s : State} (r : s.idx.val < 80) (hr : s.init = true) :
    exec .nextByte s = .next
      { s with
        idx := ⟨s.idx.val + 1, by omega⟩
        phase := .idle
        trace := s.trace ++ drawCommandRecord [] (some s.buf[s.idx.val]) } := by
  refine (congrArg outcomeOf (nextByteWith_of_draw hr (drawByte_buffered config s.drawing r))).trans ?_
  simp [outcomeOf, State.finish, State.log, State.setPhase, State.setIdx, drawCommandRecord, hr]

/-- On idle keyed adapters with the buffer exhausted, NEXT_BYTE is a REFILL and the reading of the new `buf[0]`. -/
theorem exec_nextByte_exhausted {k1 k2 : Bytes} {s : State} (hr : s.init = true) (hk : Keyed k1 k2 s)
    (r : ¬ s.idx.val < 80) :
    exec .nextByte s = .next
      { refilled config k1 k2 s with
        idx := 1
        phase := .idle
        trace := s.trace ++ drawCommandRecord (refillRecord config k1 k2 s.seed s.aMd5 s.aSha1 ++ [.phase .draw])
          (some (refillBuf config k1 k2 s.seed s.aMd5 s.aSha1 s.buf)[0]) } := by
  refine (congrArg outcomeOf (nextByteWith_ready config k1 k2 s hr hk)).trans ?_
  rw [nextDraw_exhausted config k1 k2 s.drawing r]
  simp [outcomeOf, refilled, State.finish, State.log, State.setPhase, State.setIdx, drawCommandRecord, hr]

/-- A NEXT_BYTES of length 0 whose checks pass only records its phases and its answer (R102). -/
theorem exec_nextBytes_zero {s : State} {dest : Option Nat} {offset : Int} (hr : s.init = true)
    (hst : nextBytesStatus s.init dest offset 0 = .ok) :
    exec (.nextBytes dest offset 0) s = .next
      { s with phase := .idle, trace := s.trace ++ drawCommandRecord [] none } := by
  refine (congrArg outcomeOf (nextBytesWith_of_draws hst rfl)).trans ?_
  simp [outcomeOf, State.finish, State.log, State.setPhase, drawCommandRecord, hr]

/-! ### Runs that draw (R99, R100) -/

/-- The run from `s` to `t`, recorded in `ev`, is `n` draws on adapters keyed with `k1`, `k2`: it hands over their bytes, leaves
their registers, and has run REFILL `r` times. -/
structure DrawRun (c : Config) (k1 k2 : Bytes) (n r : Nat) (s t : State) (ev : List Event) : Prop where
  trace : t.trace = s.trace ++ ev
  registers : SameRegisters (afterDraws c k1 k2 n s) t
  ready : t.init = true
  keyed : Keyed k1 k2 t
  bytes : drawnBytes ev = drawsFrom c k1 k2 n s
  refills : (phasesOf ev).count (.fillMd5Out 0) = r
  digests : digestsOf ev = 18 * r
  cursor : t.idx.val + 80 * r = s.idx.val + n
  noneDrawn : n = 0 → r = 0
  someDrawn : 0 < n → 1 ≤ t.idx.val

/-- The empty run draws nothing. -/
theorem DrawRun.refl (c : Config) {k1 k2 : Bytes} {s : State} (hr : s.init = true) (hk : Keyed k1 k2 s) :
    DrawRun c k1 k2 0 0 s s [] where
  trace := (List.append_nil _).symm
  registers := SameRegisters.refl s
  ready := hr
  keyed := hk
  bytes := rfl
  refills := rfl
  digests := rfl
  cursor := rfl
  noneDrawn _ := rfl
  someDrawn h := absurd h (Nat.lt_irrefl 0)

/-- One run behind another draws the bytes of both. -/
theorem DrawRun.trans {c : Config} {k1 k2 : Bytes} {m n q r : Nat} {s t u : State} {ev ev' : List Event}
    (h : DrawRun c k1 k2 m q s t ev) (g : DrawRun c k1 k2 n r t u ev') :
    DrawRun c k1 k2 (m + n) (q + r) s u (ev ++ ev') := by
  obtain ⟨bytes, registers⟩ := draws_congr c k1 k2 n h.registers
  obtain ⟨bothBytes, bothRegisters⟩ := draws_add c k1 k2 m n s
  have cursor := h.cursor
  have cursor' := g.cursor
  have noneDrawn := h.noneDrawn
  have noneDrawn' := g.noneDrawn
  exact {
    trace := by rw [g.trace, h.trace, List.append_assoc]
    registers := bothRegisters ▸ registers.trans g.registers
    ready := g.ready
    keyed := g.keyed
    bytes := by rw [drawnBytes_append, h.bytes, g.bytes, bytes, bothBytes]
    refills := by rw [phasesOf_append, List.count_append, h.refills, g.refills]
    digests := by rw [digestsOf_append, h.digests, g.digests, Nat.mul_add]
    cursor := by omega
    noneDrawn := by omega
    someDrawn := fun hmn => by
      rcases Nat.eq_zero_or_pos n with hn | hn
      · have := h.someDrawn (by omega)
        have := noneDrawn' hn
        omega
      · exact g.someDrawn hn }

/-- A NEXT_BYTE is one draw (R95). -/
theorem nextByteWith_drawRun {c : Config} {k1 k2 : Bytes} {s : State} (hr : s.init = true) (hk : Keyed k1 k2 s) :
    ∃ t r ev, nextByteWith c s = .ok t ∧ DrawRun c k1 k2 1 r s t ev := by
  obtain ⟨byte, registers⟩ := nextDraw_congr c k1 k2 (drawing_same s)
  obtain ⟨init, -, -, -, -, -, -, tr⟩ := nextDraw_frame c k1 k2 s.drawing
  obtain ⟨r, cursor, digests, pos, phases⟩ := nextDraw_cursor c k1 k2 s.drawing
  obtain ⟨-, -, noByte, -⟩ := drawRecord_projections c k1 k2 s.drawing
  have keyed : Keyed k1 k2 (nextDraw c k1 k2 s.drawing).2 := nextDraw_keyed c k1 k2 _ hk
  have run := nextByteWith_ready c k1 k2 s hr hk
  generalize nextDraw c k1 k2 s.drawing = draw at *
  generalize drawRecord c k1 k2 s.drawing = ev at *
  obtain ⟨-, recordBytes, recordPhases, recordDigests⟩ := drawCommandRecord_projections ev (some draw.1)
  refine ⟨_, r, drawCommandRecord ev (some draw.1), run, ?_⟩
  exact {
    trace := trace_finish_of_draws _ (init.trans hr) tr
    registers := registers.trans (finish_same _ _ _)
    ready := init.trans hr
    keyed := keyed
    bytes := by rw [recordBytes, noByte, byte]; rfl
    refills := recordPhases.trans (phases rfl).1
    digests := recordDigests.trans digests
    cursor := cursor
    noneDrawn := fun h => absurd h Nat.one_ne_zero
    someDrawn := fun _ => pos }

/-- A NEXT_BYTES whose checks pass is as many draws as it asks for, and DST takes their bytes in order (R96). -/
theorem nextBytesWith_drawRun {c : Config} {k1 k2 : Bytes} {s : State} {dest : Option Nat} {offset length : Int}
    (hst : nextBytesStatus s.init dest offset length = .ok) (hk : Keyed k1 k2 s) :
    ∃ t r ev, nextBytesWith c dest offset length s = .ok t ∧ DrawRun c k1 k2 length.toNat r s t ev ∧
      t.dst = replayBeats (beatsAt offset.toNat (drawsFrom c k1 k2 length.toNat s)) s.dst := by
  obtain ⟨hr, -⟩ := (nextBytesStatus_ok _ _ _ _).mp hst
  obtain ⟨bytes, registers⟩ := draws_congr c k1 k2 length.toNat (drawing_same s)
  obtain ⟨u, ev, r, run, same, -, -, tr, dst, -, beats, drawn, digests, cursor, noneDrawn, someDrawn, init, keyed, -,
    phases⟩ := drawTo_keyed c k1 k2 offset.toNat length.toNat s.drawing hk
  obtain ⟨-, recordBytes, recordPhases, recordDigests⟩ := drawCommandRecord_projections ev none
  refine ⟨u.finish .ok none, r, drawCommandRecord ev none, nextBytesWith_of_draws hst run, ?_, ?_⟩
  · exact {
      trace := trace_finish_of_draws none (init.trans hr) tr
      registers := (registers.trans same).trans (finish_same _ _ _)
      ready := init.trans hr
      keyed := keyed
      bytes := by rw [recordBytes, drawn, bytes]; exact List.append_nil _
      refills := recordPhases.trans (phases rfl).1
      digests := recordDigests.trans digests
      cursor := cursor
      noneDrawn := noneDrawn
      someDrawn := someDrawn }
  · rw [← bytes, ← beats]
    exact dst

/-- A NEXT_BYTES in Ready whose window is good passes its checks. -/
theorem nextBytesStatus_of_window {ready : Bool} {cap : Nat} {offset length : Int} (hr : ready = true) (ho : 0 ≤ offset)
    (hl : 0 ≤ length) (hc : offset + length ≤ cap) : nextBytesStatus ready (some cap) offset length = .ok :=
  (nextBytesStatus_ok _ _ _ _).mpr ⟨hr, cap, rfl, ho, hl, hc⟩

/-- `n` NEXT_BYTE are `n` draws. -/
theorem execAll_nextByte_drawRun {k1 k2 : Bytes} (n : Nat) {s : State} (hr : s.init = true) (hk : Keyed k1 k2 s) :
    ∃ t r ev, execAll (List.replicate n .nextByte) s = .next t ∧ DrawRun config k1 k2 n r s t ev := by
  induction n generalizing s with
  | zero => exact ⟨s, 0, [], rfl, DrawRun.refl config hr hk⟩
  | succ n ih =>
    obtain ⟨t, q, ev, run, first⟩ := nextByteWith_drawRun (c := config) hr hk
    obtain ⟨u, r, ev', run', others⟩ := ih first.ready first.keyed
    have run : exec .nextByte s = .next t := congrArg outcomeOf run
    refine ⟨u, q + r, ev ++ ev', ?_, Nat.add_comm 1 n ▸ first.trans others⟩
    rw [List.replicate_succ, execAll, run]
    exact run'

/-- R100's count, solved from the cursor: `r = ceil((i0 + n)/80) - 1` where a byte is drawn. -/
theorem DrawRun.refillCount {c : Config} {k1 k2 : Bytes} {n r : Nat} {s t : State} {ev : List Event}
    (h : DrawRun c k1 k2 n r s t ev) (hn : 1 ≤ n) : r = (s.idx.val + n + 79) / 80 - 1 := by
  have cursor := h.cursor
  have low := h.someDrawn hn
  have high := t.idx.isLt
  omega

/-! ### A draw cut in two (R101) -/

/-- `n` draws deliver `n` bytes. -/
theorem length_drawsFrom (c : Config) (k1 k2 : Bytes) (n : Nat) (s : State) : (drawsFrom c k1 k2 n s).length = n := by
  induction n generalizing s with
  | zero => rfl
  | succ n ih => rw [drawsFrom, List.length_cons, ih]

/-- The beats of two byte strings, the second behind the first. -/
theorem beatsAt_append (a : Nat) (xs ys : Bytes) : beatsAt a (xs ++ ys) = beatsAt a xs ++ beatsAt (a + xs.length) ys := by
  induction xs generalizing a with
  | nil => rfl
  | cons x xs ih =>
    rw [List.cons_append, beatsAt, ih, beatsAt, List.cons_append, List.length_cons, Nat.add_assoc, Nat.add_comm 1]

/-- DST behind `m + n` draws is DST behind `m`, then `n` behind them. -/
theorem replayDraws_add (c : Config) (k1 k2 : Bytes) (a m n : Nat) (s : State) (dst : Memory) :
    replayBeats (beatsAt a (drawsFrom c k1 k2 (m + n) s)) dst =
      replayBeats (beatsAt (a + m) (drawsFrom c k1 k2 n (afterDraws c k1 k2 m s)))
        (replayBeats (beatsAt a (drawsFrom c k1 k2 m s)) dst) := by
  rw [(draws_add c k1 k2 m n s).1, beatsAt_append, replayBeats_append, length_drawsFrom]

/-! ### The frame of a draw command (R43, R95, R96) -/

/-- A host command that is no INIT leaves the flag, the keys, the seed and the ports alone, and idle adapters idle. -/
theorem host_frame_of_ne_init {i : Instr} {s t : State} (hi : isHostCommand i = true)
    (hn : ∀ secret seed, i ≠ .init secret seed) (e : exec i s = .next t) :
    t.init = s.init ∧ t.md5.key = s.md5.key ∧ t.sha1.key = s.sha1.key ∧ t.seed = s.seed ∧ SamePorts s t ∧ t.phase = .idle ∧
      (AdaptersIdle s → AdaptersIdle t) := by
  rcases host_inv hi e with ⟨-, rfl⟩ | ⟨-, ev, data, eff⟩
  · exact ⟨rfl, rfl, rfl, rfl, answered_ports _ s, rfl, id⟩
  · have idle : AdaptersIdle s → AdaptersIdle t := fun ⟨h1, h2⟩ => ⟨eff.md5Idle h1, eff.sha1Idle h2⟩
    have hinit := eff.init
    have hmd5 := eff.md5Key
    have hsha1 := eff.sha1Key
    have hseed := eff.seed
    cases i with
    | init secret seed => exact absurd rfl (hn secret seed)
    | _ => exact ⟨hinit, hmd5, hsha1, hseed, eff.ports, eff.phase, idle⟩

/-- An address that an instruction does not name reads as before. -/
theorem read_of_notMem_beatAddresses {i : Instr} {s t : State} {x : Nat} (e : exec i s = .next t) (w : Memory.wf s.dst)
    (hx : x ∉ beatAddresses i) : Memory.read t.dst x = Memory.read s.dst x := by
  obtain ⟨ev, -, dst, addresses⟩ := exec_beats e
  rw [dst]
  refine read_replayBeats_of_notMem w ?_
  rw [addresses]
  split
  · exact hx
  · exact List.not_mem_nil

/-- A valid draw that stays within the buffer runs no REFILL: chain values and buffer stay, even on keyless adapters. -/
theorem validDraw_withinBuffer {i : Instr} {n : Nat} {s t : State} (h : validDraw i = some n) (e : exec i s = .next t)
    (within : s.idx.val + n ≤ 80) : t.aMd5 = s.aMd5 ∧ t.aSha1 = s.aSha1 ∧ t.buf = s.buf := by
  rcases validDraw_inv h with ⟨rfl, rfl⟩ | ⟨dest, offset, length, rfl, rfl, hst⟩
  · cases hr : s.init with
    | false =>
      obtain rfl := Except.ok.inj ((nextByteWith_uninit config s hr).symm.trans (outcomeOf_next e))
      exact ⟨rfl, rfl, rfl⟩
    | true =>
      obtain rfl := Host.Outcome.next.inj ((exec_nextByte_buffered within hr).symm.trans e)
      exact ⟨rfl, rfl, rfl⟩
  · cases hr : s.init with
    | false =>
      have rejected : nextBytesStatus s.init dest offset length ≠ .ok := by simp [nextBytesStatus, hr]
      obtain rfl :=
        Except.ok.inj ((nextBytesWith_error config dest offset length s rejected).symm.trans (outcomeOf_next e))
      exact ⟨rfl, rfl, rfl⟩
    | true =>
      obtain ⟨u, run, rfl⟩ := nextBytesWith_inv (hr ▸ hst) (outcomeOf_next e)
      obtain ⟨-, -, -, -, -, -, -, -, kept, -⟩ := drawTo_inv run rfl
      exact kept within

/-! ### The obligations -/

/-- Settles O34: `exec_nextByte_buffered`, its record written out. -/
theorem nextByteReadsTheBuffer : Obligations.NextByteReadsTheBuffer :=
  fun _ r hr => exec_nextByte_buffered r hr

/-- Settles O35: the fields of the state that `exec_nextByte_exhausted` names; its buffer is `refillBuf_get`. -/
theorem nextByteRefillsFirst : Obligations.NextByteRefillsFirst := by
  intro k1 k2 s hr hk hidx
  obtain ⟨responses, -, -, -, digests⟩ := refillRecord_projections config k1 k2 s.seed s.aMd5 s.aSha1
  obtain ⟨commandResponses, -, -, commandDigests⟩ :=
    drawCommandRecord_projections (refillRecord config k1 k2 s.seed s.aMd5 s.aSha1 ++ [.phase .draw])
      (some (refillBuf config k1 k2 s.seed s.aMd5 s.aSha1 s.buf)[0])
  refine ⟨_, _, exec_nextByte_exhausted hr hk (by simp [hidx]),
    fun j => refillBuf_get config k1 k2 s.seed s.aMd5 s.aSha1 s.buf j.val j.isLt, rfl, rfl, rfl, hr, rfl, rfl, rfl, rfl,
    ⟨rfl, rfl, rfl, rfl, rfl⟩, fun _ => rfl, rfl, ?_, ?_⟩
  · rw [commandResponses, responsesOf_append, responses]
    rfl
  · rw [commandDigests, digestsOf_append, digests]
    rfl

/-- Settles O38: the empty loop draws nothing, and a failed check only answers. -/
theorem zeroLengthDrawChangesNothing : Obligations.ZeroLengthDrawChangesNothing := by
  intro s cap offset
  have fails : ∀ {dest : Option Nat} {st : Status}, nextBytesStatus s.init dest offset 0 = st → st ≠ .ok →
      exec (.nextBytes dest offset 0) s = .next (answered st s) := by
    rintro dest st rfl hst
    exact exec_error rfl hst
  refine ⟨fun hr ho hc => ?_, fun hr => ?_, fun hr => ?_, fun hr hout => ?_⟩
  · exact exec_nextBytes_zero hr (nextBytesStatus_of_window hr ho (Int.le_refl 0) (by omega))
  · exact fails (by simp [nextBytesStatus, hr]) (by decide)
  · exact fails (by simp [nextBytesStatus, hr]) (by decide)
  · have bad : windowBad cap offset 0 = true := by
      simp only [windowBad, Bool.or_eq_true, decide_eq_true_eq]
      omega
    exact fails (by simp [nextBytesStatus, hr, bad]) (by decide)

/-- Settles O39: both runs are the same `n` draws. -/
theorem batchingIsEquivalent : Obligations.BatchingIsEquivalent := by
  intro k1 k2 s cap offset length hr hk ho hl hc
  obtain ⟨t, _, ev, run, one, -⟩ :=
    nextBytesWith_drawRun (c := config) (nextBytesStatus_of_window hr ho hl hc) hk
  obtain ⟨u, _, ev', run', many⟩ := execAll_nextByte_drawRun length.toNat hr hk
  exact ⟨t, u, ev, ev', congrArg outcomeOf run, run', one.trace, many.trace, one.bytes.trans many.bytes.symm,
    by rw [one.bytes, length_drawsFrom], one.registers.symm.trans many.registers⟩

/-- Settles O40: either run is `n` draws, whose REFILLs the cursor counts. -/
theorem refillCountOfADraw : Obligations.RefillCountOfADraw := by
  intro k1 k2 s t ev cap n offset hr hk ho hc e tr
  obtain ⟨r, ev', drawn⟩ : ∃ r ev', DrawRun config k1 k2 n r s t ev' := by
    rcases e with e | e
    · obtain ⟨u, r, ev', run, drawn, -⟩ :=
        nextBytesWith_drawRun (c := config) (nextBytesStatus_of_window hr ho (Int.natCast_nonneg n) hc) hk
      obtain rfl := Except.ok.inj (run.symm.trans (outcomeOf_next e))
      exact ⟨r, ev', drawn⟩
    · obtain ⟨u, r, ev', run, drawn⟩ := execAll_nextByte_drawRun n hr hk
      obtain rfl := Host.Outcome.next.inj (run.symm.trans e)
      exact ⟨r, ev', drawn⟩
  obtain rfl := List.append_cancel_left (drawn.trace.symm.trans tr)
  have cursor := drawn.cursor
  refine ⟨fun hn => ?_, fun hn => ?_⟩
  · rw [← drawn.refillCount hn]
    exact ⟨drawn.refills, drawn.digests, by omega, drawn.someDrawn hn⟩
  · obtain rfl := drawn.noneDrawn hn
    exact ⟨drawn.digests, Fin.ext (by omega)⟩

/-- Settles O41: `m + n` draws are `m` and then `n`, in the registers and in DST. -/
theorem splitDrawIsContinuous : Obligations.SplitDrawIsContinuous := by
  intro k1 k2 s cap m n offset hr hk ho hc
  obtain ⟨t, _, _, run, whole, dst⟩ :=
    nextBytesWith_drawRun (c := config) (length := (m + n : Nat)) (nextBytesStatus_of_window hr ho (by omega) hc) hk
  obtain ⟨v, _, _, run1, first, dst1⟩ :=
    nextBytesWith_drawRun (c := config) (length := m) (nextBytesStatus_of_window (cap := cap) hr ho (by omega) (by omega)) hk
  obtain ⟨u, _, _, run2, second, dst2⟩ :=
    nextBytesWith_drawRun (c := config) (offset := offset + m) (length := n)
      (nextBytesStatus_of_window (cap := cap) first.ready (by omega) (by omega) (by omega)) first.keyed
  have run1 : exec (.nextBytes (some cap) offset m) s = .next v := congrArg outcomeOf run1
  have run2 : exec (.nextBytes (some cap) (offset + m) n) v = .next u := congrArg outcomeOf run2
  have behind : (offset + m).toNat = offset.toNat + m := by omega
  simp only [Int.toNat_natCast] at whole first second dst dst1 dst2
  refine ⟨t, u, congrArg outcomeOf run, ?_, whole.registers.symm.trans (first.trans second).registers, ?_⟩
  · simp only [execAll, run1, run2]
  · rw [dst, dst2, dst1, behind, replayDraws_add, (draws_congr config k1 k2 n first.registers).1]

/-- Settles O43: no draw is an INIT, a draw within the buffer runs no REFILL, and DST changes only where the command says. -/
theorem drawsTouchOnlyTheStream : Obligations.DrawsTouchOnlyTheStream := by
  intro i s t e w hi
  obtain ⟨host, notInit⟩ : isHostCommand i = true ∧ ∀ secret seed, i ≠ .init secret seed := by
    rcases hi with rfl | ⟨dest, offset, length, rfl⟩ <;> exact ⟨rfl, fun _ _ => Instr.noConfusion⟩
  obtain ⟨init, md5, sha1, seed, ports, phase, idle⟩ := host_frame_of_ne_init host notInit e
  refine ⟨init, md5, sha1, seed, ports, phase, idle, fun n hn within => validDraw_withinBuffer hn e within, ?_, ?_⟩
  · rintro rfl x
    exact read_of_notMem_beatAddresses e w List.not_mem_nil
  · rintro dest offset length rfl x hx
    refine read_of_notMem_beatAddresses e w fun hmem => ?_
    have := List.mem_range'_1.mp hmem
    omega

/-- Settles O44: both hooks only answer OK. -/
theorem entropyHooksAreNoOps : Obligations.EntropyHooksAreNoOps :=
  fun b bs s => ⟨exec_addRandomByte b s, exec_addRandomBytes bs s⟩

end Sys2Proof.Machine
end

section
/-! PROOFS. Errors (60_exceptions.md): the status a response carries and what it says of the command (R105 to R115), that a
failing command only answers (R116), and that no run from the engine invariant stops (R124). -/

namespace Sys2Proof.Machine

/-! ### From the response word to the status (R56, R105) -/

/-- R105 gives every status its own number. -/
theorem Status.code_injective : Function.Injective Status.code := by
  intro a b
  cases a <;> cases b <;> decide

/-- R105's numbers end at 0x08. -/
theorem Status.code_le (st : Status) : st.code.toNat ≤ 8 := by
  cases st <;> decide

/-- Every response a host command sends carries its status. -/
theorem host_respStatus {i : Instr} {s t : State} {ev : List Event} {w : Word} (hi : isHostCommand i = true)
    (e : exec i s = .next t) (tr : t.trace = s.trace ++ ev) (hw : w ∈ responsesOf ev) :
    respStatus w = (commandStatus config i s.init).code := by
  obtain ⟨⟨data, responses, -⟩, -⟩ := host_record hi e tr
  rw [responses, List.mem_singleton] at hw
  rw [hw, respStatus_responseWord]

/-- Over every configuration, an INIT that answers a next state sends one response, made of its status (R75, R76). -/
theorem initWith_responses {c : Config} {secret seed : Option Bytes} {s t : State} {ev : List Event}
    (e : initWith c secret seed s = .ok t) (tr : t.trace = s.trace ++ ev) :
    responsesOf ev = [responseWord (initStatus c s.init secret seed) none t.init] := by
  by_cases hst : initStatus c s.init secret seed = .ok
  · rw [initWith_ok c secret seed s hst] at e
    obtain ⟨-, accepted, -⟩ := (initStatus_ok c _ _ _).mp hst
    obtain ⟨u, ev', rfl, ready, -, -, -, -, -, -, -, -, -, trace, noResponse, -⟩ := initCommit_inv e
    obtain ⟨-, -, -, loaded⟩ := loaded_fields c secret seed s accepted
    rw [trace, loaded, List.append_assoc, List.append_assoc] at tr
    obtain rfl := List.append_cancel_left tr
    have noKeyLoadResponse : responsesOf (keyLoadRecord secret) = [] := by cases secret <;> rfl
    simp only [responsesOf_append, noKeyLoadResponse, noResponse, hst, ready]
    rfl
  · obtain rfl := Except.ok.inj ((initWith_error c secret seed s hst).symm.trans e)
    obtain rfl := List.append_cancel_left tr
    rfl

/-! ### What a status says of its command (R106 to R113) -/

/-- A failed length check: one operand is over its limit (R63, R113). -/
theorem longer_of_tooLong {c : Config} {secret seed : Option Bytes} (h : tooLong c secret seed = true) :
    (∃ x, secret = some x ∧ x.length > c.maxSecretLen) ∨ ∃ d, seed = some d ∧ d.length > c.maxSeedLen := by
  by_contra! hn
  obtain ⟨hsecret, hseed⟩ := hn
  exact absurd (tooLong_eq_false.mpr ⟨hsecret, hseed⟩) (by simp [h])

/-- Each status that INIT's checks can end in has its cause. -/
theorem initStatus_cause (c : Config) (ready : Bool) (secret seed : Option Bytes) :
    InitErrorCause c ready secret seed (initStatus c ready secret seed).code := by
  cases hl : tooLong c secret seed with
  | true =>
    rw [initStatus_of_tooLong hl]
    simp [InitErrorCause, Status.code, longer_of_tooLong hl]
  | false =>
    cases secret with
    | none => cases ready <;> simp [InitErrorCause, initStatus, hl, Status.code]
    | some x =>
      cases hx : secretOk c x with
      | false =>
        rw [initStatus_of_refused hl hx]
        simpa [InitErrorCause, Status.code, secretOk, halfFor] using hx
      | true =>
        have halves := secretOk_iff.mp hx
        cases ready <;> cases seed <;> simp [InitErrorCause, initStatus, hl, hx, halves, Status.code]

/-- A window whose check fails (R96, R111). -/
theorem windowBad_iff {cap : Nat} {offset length : Int} :
    windowBad cap offset length = true ↔ offset < 0 ∨ length < 0 ∨ offset + length > cap := by
  simp only [windowBad, Bool.or_eq_true, decide_eq_true_eq, or_assoc]

/-- In Ready the status of a NEXT_BYTES with a destination is decided by its window (R96, R115). -/
theorem commandStatus_window (c : Config) (cap : Nat) (offset length : Int) :
    commandStatus c (.nextBytes (some cap) offset length) true = if windowBad cap offset length then .bounds else .ok :=
  rfl

/-- R105's column "raised by": what the status of a command says of it. What INIT's own errors say is `InitErrorCause`. -/
def RaisedBy (ready : Bool) (i : Instr) : Status → Prop
  | .ok => True
  | .illegalState => ready = false ∧ (i = .nextByte ∨ ∃ dest offset length, i = .nextBytes dest offset length)
  | .noSecret | .noSeed | .invalidKey | .length => ∃ secret seed, i = .init secret seed
  | .nullDest => ready = true ∧ ∃ offset length, i = .nextBytes none offset length
  | .bounds => ready = true ∧ ∃ cap offset length, i = .nextBytes (some cap) offset length ∧
      (offset < 0 ∨ length < 0 ∨ offset + length > cap)
  | .illegalCmd => ∃ opc, i = .illegal opc

/-- The status of every command is raised by it. -/
theorem commandStatus_raisedBy (c : Config) (i : Instr) (ready : Bool) : RaisedBy ready i (commandStatus c i ready) := by
  cases i with
  | init secret seed =>
    show RaisedBy ready _ (initStatus c ready secret seed)
    have ⟨_, _, _, _, only⟩ := initStatus_cause c ready secret seed
    cases hst : initStatus c ready secret seed with
    | ok => trivial
    | noSecret | noSeed | invalidKey | length => exact ⟨secret, seed, rfl⟩
    | illegalState | nullDest | bounds | illegalCmd => exact absurd (hst ▸ only) (by decide)
  | nextByte =>
    cases ready with
    | false => exact ⟨rfl, .inl rfl⟩
    | true => trivial
  | nextBytes dest offset length =>
    cases ready with
    | false => exact ⟨rfl, .inr ⟨dest, offset, length, rfl⟩⟩
    | true =>
      cases dest with
      | none => exact ⟨rfl, offset, length, rfl⟩
      | some cap =>
        rw [commandStatus_window]
        split
        · rename_i bad
          exact ⟨rfl, cap, offset, length, rfl, windowBad_iff.mp bad⟩
        · trivial
  | illegal opc => exact ⟨opc, rfl⟩
  | _ => trivial

/-! ### A command whose checks fail (R116) -/

/-- A command whose checks end in the error `st` only answers it. -/
theorem exec_of_status {i : Instr} {s : State} {st : Status} (hi : isHostCommand i = true)
    (hst : commandStatus config i s.init = st) (hne : st ≠ .ok) : exec i s = .next (answered st s) := by
  subst hst
  exact exec_error hi hne

/-! ### No run stops (R124, R136) -/

/-- Where a Ready block has a stream, every host command answers a next state. -/
theorem host_runs {i : Instr} {s : State} (hi : isHostCommand i = true) (hs : s.init = true → HasStream config s) :
    ∃ t, exec i s = .next t := by
  by_cases hst : commandStatus config i s.init = .ok
  · cases i with
    | init secret seed =>
      obtain ⟨t, run, -⟩ := initWith_hasStream hst hs
      exact ⟨t, congrArg outcomeOf run⟩
    | nextByte =>
      have hr : s.init = true := by
        by_contra hu
        exact absurd hst (by simp [commandStatus, nextByteStatus, hu])
      obtain ⟨k1, k2, pos, -, stream⟩ := hs hr
      obtain ⟨t, run, -⟩ := nextByteWith_streamAt stream
      exact ⟨t, congrArg outcomeOf run⟩
    | nextBytes dest offset length =>
      obtain ⟨hr, -⟩ := (nextBytesStatus_ok _ _ _ _).mp hst
      obtain ⟨k1, k2, pos, -, stream⟩ := hs hr
      obtain ⟨t, run, -⟩ := nextBytesWith_streamAt hst stream
      exact ⟨t, congrArg outcomeOf run⟩
    | addRandomByte b => exact ⟨_, exec_addRandomByte b s⟩
    | addRandomBytes bs => exact ⟨_, exec_addRandomBytes bs s⟩
    | illegal opc => exact absurd hst (by simp [commandStatus])
    | _ => exact absurd hi (by simp [isHostCommand])
  · exact ⟨_, exec_error hi hst⟩

/-- From the engine invariant every step answers a next state: it is a reset, a wait or a host command. -/
theorem engineInv_steps {s : State} (inv : EngineInv config s) : ∃ t, step s = .next t := by
  obtain ⟨hp, hm, -, hs⟩ := inv
  cases hr : s.resetIn with
  | true => exact ⟨_, step_of_reset hr⟩
  | false =>
    cases hf : fetch s.cmdIn s.payIn with
    | waiting => exact ⟨s, step_of_waiting hr hm hp hf⟩
    | command i ws bs =>
      rw [step_of_command hr hm hp hf]
      exact host_runs (fetch_wellFormed hf).1 hs

/-- A run whose first step answers `t` goes on as the run from `t`. -/
theorem run_succ_of_step {M : Host.Core} {s t : M.State} (e : M.step s = .next t) (n : Nat) : M.run (n + 1) s = M.run n t := by
  rw [Host.Core.run, e]

/-! ### The obligations -/

/-- Settles O14: a status that is not OK is that of a failed check, and the command then only answers it. -/
theorem failingCommandChangesNothing : Obligations.FailingCommandChangesNothing := by
  intro i s t ev w hi e tr hw hne
  rw [host_respStatus hi e tr hw] at hne
  have hst : commandStatus config i s.init ≠ .ok := fun h => hne (by rw [h]; rfl)
  obtain rfl := Host.Outcome.next.inj ((exec_error hi hst).symm.trans e)
  obtain rfl := List.append_cancel_left tr
  obtain rfl := List.mem_singleton.mp hw
  exact ⟨rfl, by simp, by simp, by simp, by simp, answered_same _ s, answered_ports _ s, rfl, rfl, rfl, rfl⟩

/-- Settles O15: the number of a response gives its status back, and `commandStatus_raisedBy` and `initStatus_cause` say what
the status means. -/
theorem errorsHaveTheirCause : Obligations.ErrorsHaveTheirCause := by
  refine ⟨fun i s t ev w hi e tr hw => ?_, fun c secret seed s t ev w e tr hw => ?_⟩
  · have code := host_respStatus hi e tr hw
    have raised : ∀ st : Status, respStatus w = st.code → RaisedBy s.init i st := by
      intro st hst
      rw [← Status.code_injective (code.symm.trans hst)]
      exact commandStatus_raisedBy config i s.init
    refine ⟨raised .illegalState, fun h => ?_, raised .nullDest, raised .bounds, raised .illegalCmd, code ▸ Status.code_le _⟩
    obtain ⟨secret, seed, rfl⟩ : ∃ secret seed, i = .init secret seed := by
      rcases h with h | h | h | h
      exacts [raised .noSecret h, raised .noSeed h, raised .invalidKey h, raised .length h]
    exact ⟨secret, seed, rfl, code ▸ initStatus_cause config s.init secret seed⟩
  · rw [initWith_responses e tr, List.mem_singleton] at hw
    rw [hw, respStatus_responseWord]
    exact initStatus_cause c s.init secret seed

/-- Settles O50, by induction on the number of steps: each answers a next state and keeps the invariant. -/
theorem everyRunGoesOn : Obligations.EveryRunGoesOn := by
  intro n
  induction n with
  | zero => exact fun s _ => ⟨s, rfl⟩
  | succ n ih =>
    intro s inv
    obtain ⟨t, e⟩ := engineInv_steps inv
    obtain ⟨u, run⟩ := ih t (stepKeepsTheEngineInvariant s t inv e)
    exact ⟨u, (run_succ_of_step (M := core) e n).trans run⟩

/-- Settles O16: in Uninitialized the status of both draw commands is ERR_ILLEGAL_STATE, before any operand is looked at. -/
theorem drawsAreRejectedBeforeInit : Obligations.DrawsAreRejectedBeforeInit := by
  intro s hu
  constructor
  · exact exec_of_status rfl (by rw [hu]; rfl) (by decide)
  · exact fun _ _ _ => exec_of_status rfl (by rw [hu]; rfl) (by decide)

/-- Settles O17: in Ready the destination is checked, and then the window. -/
theorem invalidWindowIsRejected : Obligations.InvalidWindowIsRejected := by
  intro s offset length hr
  refine ⟨?_, fun cap outside => ?_⟩
  · exact exec_of_status rfl (by rw [hr]; rfl) (by decide)
  · exact exec_of_status rfl (by rw [hr, commandStatus_window, if_pos (windowBad_iff.mpr outside)]) (by decide)

/-- Settles O54: the STATUS field of a response word is the number of its status, and R105's numbers are `Status.code`. -/
theorem statusNumbersAreThoseOfR105 : Obligations.StatusNumbersAreThoseOfR105 := by
  intro data rdy
  simp only [respStatus_responseWord]
  exact ⟨rfl, rfl, rfl, rfl, rfl, rfl, rfl, rfl, rfl⟩

end Sys2Proof.Machine
end
